-- ==== Sys2Proof/Word.lean ====
section
/-! DEFINITION. The block's only data word: an 8-bit unsigned byte (spec 10_state.md R22), and byte strings
(00_scope.md section 6). -/

namespace Sys2Proof

/-- One byte of an area, a frame or a serial line: an 8-bit unsigned value (R22). -/
abbrev Byte := BitVec 8

/-- A byte string; index 0 is the first byte received (00_scope.md section 6). -/
abbrev Bytes := List Byte

/-- A 16-bit field of a binary frame (R86). -/
abbrev Half := BitVec 16

end Sys2Proof
end

