-- ==== Sys2Proof/Config.lean ====
section
/-! DEFINITION. The implementation parameters of 00_scope.md R5, the fixed constants of R6, the character codes of
30_encoding.md R80, and the one free value of the model (`Config.arbiter`, log 2). -/

namespace Sys2Proof

/-- Parity setting of the serial line (part of the opaque `SERIAL_PARAMS`, log 15). -/
inductive Parity where
  | none
  | even
  | odd
deriving DecidableEq, Repr

/-- `SERIAL_PARAMS` (R5): passed opaquely to the serial driver, read by no rule of the block (R29). DESIGN CHOICE
(log 15): its parts are the four settings the spec's default names. -/
structure SerialParams where
  baud : Nat
  dataBits : Nat
  parity : Parity
  stopBits : Nat
deriving DecidableEq, Repr

/-- The implementation parameters, fixed at reset and read-only while the block runs (R5, R29). -/
structure Params where
  /-- `CAP`, the capacity of each area in bytes. -/
  cap : Nat
  /-- `NUM_BIN_PORTS`, the number of binary frame ports. -/
  numBinPorts : Nat
  /-- `MAX_ASCII_FRAME`, the largest frame the ASCII framer holds. -/
  maxAsciiFrame : Nat
  /-- `SERIAL_PARAMS`. -/
  serial : SerialParams
  /-- `INIT_IMAGE`, an optional store image loaded at reset. -/
  initImage : Option Bytes
deriving DecidableEq, Repr

/-- The legal values of R5's table: `CAP >= 1`, `NUM_BIN_PORTS >= 0`, `MAX_ASCII_FRAME >= 5`. -/
abbrev Params.Legal (p : Params) : Prop := 1 ≤ p.cap ∧ 5 ≤ p.maxAsciiFrame

/-- The values R5 gives for this hardware. `NUM_BIN_PORTS` is OPEN in R5: the 2 here is a DESIGN CHOICE (log 1), and
`State.resetOf` takes any other value. -/
def Params.default : Params :=
  { cap := 65536
    numBinPorts := 2
    maxAsciiFrame := 2048
    serial := { baud := 9600, dataBits := 8, parity := .none, stopBits := 1 }
    initImage := none }

namespace Config

/-- The order in which agents that can step together take their steps is not fixed (R58, R65; 93 I6: any value). This
constant has no body: nothing can be proved of its values. It is applied to the counter `State.tick` (log 2). -/
opaque arbiter : Nat → Nat

/-- `ENQ = 0x06`, the source's value (R6; 93 I12). -/
def ENQ : Byte := 0x06
/-- `ETX = 0x03` (R6). -/
def ETX : Byte := 0x03
/-- Binary read command byte (R6). -/
def cmdRead : Byte := 0x54
/-- Binary write command byte (R6). -/
def cmdWrite : Byte := 0x58
/-- Binary read response command byte (R6). -/
def rspRead : Byte := 0x55
/-- Binary write response command byte (R6). -/
def rspWrite : Byte := 0x59

/-! Character codes (R80; the spec marks them as general knowledge, 93 I10, log 11). -/

def ch0 : Byte := 0x30
def ch1 : Byte := 0x31
def ch9 : Byte := 0x39
def chA : Byte := 0x41
def chB : Byte := 0x42
def chC : Byte := 0x43
def chD : Byte := 0x44
def chE : Byte := 0x45
def chF : Byte := 0x46
def chL : Byte := 0x4C
def chM : Byte := 0x4D
def chP : Byte := 0x50
def chQ : Byte := 0x51
def chS : Byte := 0x53
def chT : Byte := 0x54
def chW : Byte := 0x57
def chX : Byte := 0x58
def chr : Byte := 0x72
def chw : Byte := 0x77

end Config

end Sys2Proof
end

