-- ==== Sys2Proof/Syntax.lean ====
section
/-! DEFINITION. The block's commands (30_encoding.md R99, opcode_table.json): one constructor of `Instr` per row, with
the operands of R98 that the row's rule uses; the requests a port takes; the error kinds of 60_exceptions.md R300. -/

namespace Sys2Proof

/-- The four areas (10_state.md R22, R23). -/
inductive Area where
  | p
  | q
  | m
  | d
deriving DecidableEq, Repr

/-- The error kinds, codes 1 to 7 of R300. -/
inductive ErrorKind where
  | invalidAddress
  | unsupportedArea
  | outOfRange
  | malformedFrame
  | unimplemented
  | malformedSnapshot
  | unsupportedCommand
deriving DecidableEq, Repr

/-- The fields `BinParseCommon` (R171) takes from a binary frame after its command byte. `data` holds the bytes from
offset `32 + N`: a write's payload and, after it, trailing bytes (R89, R177). `N` is `name.length + 1`. -/
structure BinFields where
  name : Bytes
  count : Half
  data : Bytes
deriving DecidableEq, Repr

/-- The operands of an ASCII read (R94): the station characters, `s[0]` (not checked, R144), the index suffix `s[3..]`
(R145) and the size. The area and class characters `s[1..2]` are the constructor. -/
structure AscReadOp where
  st1 : Byte
  st2 : Byte
  pre : Byte
  suffix : Bytes
  size : Byte
deriving DecidableEq, Repr

/-- The operands of an ASCII write (R95): those of a read, and `tail`, the bytes `F[p..]` from the payload offset to
the end of the stripped frame (payload, then normally `ETX`). -/
structure AscWriteOp where
  st1 : Byte
  st2 : Byte
  pre : Byte
  suffix : Bytes
  size : Byte
  tail : Bytes
deriving DecidableEq, Repr

/-- A command as its port performs it: one constructor per row of opcode_table.json. A binary command carries the
number `k` of the port `BIN[k]` whose transaction it is, the request's header `F[0..19]` and the fields of R171, `none`
where the frame does not hold them (the command then ends with `MalformedFrame`, R173, R174; log 9). The `DD`/`DL`
classes carry their area character, which is any (R147). -/
inductive Instr where
  | binRead (k : Nat) (header : Bytes) (fields : Option BinFields)
  | binWrite (k : Nat) (header : Bytes) (fields : Option BinFields)
  | ascRdMb (op : AscReadOp)
  | ascRdPb (op : AscReadOp)
  | ascRdDb (op : AscReadOp)
  | ascRdTb (op : AscReadOp)
  | ascWrMx (op : AscWriteOp)
  | ascWrDx (op : AscWriteOp)
  | ascWrCw (op : AscWriteOp)
  | ascWrTw (op : AscWriteOp)
  | ascWrMw (op : AscWriteOp)
  | ascWrDw (op : AscWriteOp)
  | ascWrDd (area : Byte) (op : AscWriteOp)
  | ascWrDl (area : Byte) (op : AscWriteOp)
  | ascWssMx (op : AscWriteOp)
  | ascWssDx (op : AscWriteOp)
  | ascWssCw (op : AscWriteOp)
  | ascWssTw (op : AscWriteOp)
  | ascWssMw (op : AscWriteOp)
  | ascWssDw (op : AscWriteOp)
  | ascWssDd (area : Byte) (op : AscWriteOp)
  | ascWssDl (area : Byte) (op : AscWriteOp)
  | hostRead (text : Bytes) (n : Nat)
  | hostWrite (text : Bytes) (d : Bytes)
  | hostReadbit (text : Bytes)
  | hostWritebit (text : Bytes) (v : Bool)
  | hostExport
  | hostImport (img : Bytes)
deriving DecidableEq, Repr

/-- An operation requested on the host port (43_host_port.md R270). -/
inductive HostOp where
  | read (text : Bytes) (n : Nat)
  | write (text : Bytes) (d : Bytes)
  | readbit (text : Bytes)
  | writebit (text : Bytes) (v : Bool)
  | exportSnapshot
  | importSnapshot (img : Bytes)
deriving DecidableEq, Repr

/-- One complete request of one port: a frame of `BIN[k]`, a frame `W` the ASCII framer delivered (from `ENQ` through
the second checksum character, R93), or a host operation. -/
inductive Request where
  | bin (k : Nat) (frame : Bytes)
  | asc (frame : Bytes)
  | host (op : HostOp)
deriving DecidableEq, Repr

/-- The agents (10_state.md R20). -/
inductive Agent where
  | bin (k : Nat)
  | ser
  | host
deriving DecidableEq, Repr

end Sys2Proof
end

