-- ==== Sys2Proof/WellFormed.lean ====
section
/-! DEFINITION. Which terms of `Instr` are commands a request can hold: the ranges the frame layouts give the operands
(30_encoding.md R89, R94, R95, R98). -/

namespace Sys2Proof

/-- A decimal digit character (R81). -/
def isDigit (c : Byte) : Bool := 0x30 ≤ c.toNat && c.toNat ≤ 0x39

/-- `N = F[28]` is 8 bits and counts the name plus 1 (R89), so a name has at most 254 bytes. -/
def BinFields.wf (f : BinFields) : Bool := f.name.length ≤ 254

/-- The header is `F[0..19]`, 20 bytes (R89); the fields, where present, fit the frame's length byte. -/
def wfBin (header : Bytes) (fields : Option BinFields) : Bool :=
  header.length == 20 && (match fields with
    | none => true
    | some f => f.wf)

/-- The station is two decimal digits (R210); the name length `L` is two decimal digits and counts three characters
before the suffix (R94, R145), so a suffix has at most 96 bytes. -/
def wfAsc (st1 st2 : Byte) (suffix : Bytes) : Bool :=
  isDigit st1 && isDigit st2 && suffix.length ≤ 96

def AscReadOp.wf (op : AscReadOp) : Bool := wfAsc op.st1 op.st2 op.suffix

def AscWriteOp.wf (op : AscWriteOp) : Bool := wfAsc op.st1 op.st2 op.suffix

/-- The operands a request can hold. A host operation takes any text, count, byte string and image (R271 to R277). -/
def Instr.wf : Instr → Bool
  | .binRead _ h f => wfBin h f
  | .binWrite _ h f => wfBin h f
  | .ascRdMb op => op.wf
  | .ascRdPb op => op.wf
  | .ascRdDb op => op.wf
  | .ascRdTb op => op.wf
  | .ascWrMx op => op.wf
  | .ascWrDx op => op.wf
  | .ascWrCw op => op.wf
  | .ascWrTw op => op.wf
  | .ascWrMw op => op.wf
  | .ascWrDw op => op.wf
  | .ascWrDd _ op => op.wf
  | .ascWrDl _ op => op.wf
  | .ascWssMx op => op.wf
  | .ascWssDx op => op.wf
  | .ascWssCw op => op.wf
  | .ascWssTw op => op.wf
  | .ascWssMw op => op.wf
  | .ascWssDw op => op.wf
  | .ascWssDd _ op => op.wf
  | .ascWssDl _ op => op.wf
  | .hostRead _ _ => true
  | .hostWrite _ _ => true
  | .hostReadbit _ => true
  | .hostWritebit _ _ => true
  | .hostExport => true
  | .hostImport _ => true

end Sys2Proof
end

