-- ==== Sys2Proof/Decode.lean ====
section
/-! DEFINITION. The field codecs of 30_encoding.md section 2, the routing of a request to its command (R99, R171, R175,
R202 to R205, R219, R238), total on any bytes and rejecting by an error kind, and then the encoder (R89, R94, R95, R102). -/

namespace Sys2Proof

open Config

/-! ## Frame notation (00_scope.md section 6) -/

/-- `F[i]`; 0 where the frame has no byte `i` (every use stands behind a length check). -/
def byteAt (F : Bytes) (i : Nat) : Byte := F.getD i 0

/-- `F[i .. i+n-1]`. -/
def slice (F : Bytes) (i n : Nat) : Bytes := (F.drop i).take n

/-! ## Field codecs -/

/-- Value of a decimal digit character (R81). -/
def digit (c : Byte) : Option Nat := if isDigit c then some (c.toNat - 0x30) else none

/-- `Dec2` (R82). -/
def dec2 (x y : Byte) : Except ErrorKind Nat :=
  match digit x, digit y with
  | some a, some b => .ok (10 * a + b)
  | _, _ => .error .malformedFrame

/-- The two decimal digit characters of a value below 100 (the inverse of `Dec2`, R102). -/
def dec2Enc (n : Nat) : Bytes := [BitVec.ofNat 8 (0x30 + n / 10), BitVec.ofNat 8 (0x30 + n % 10)]

/-- The value of a digit string read after a value `acc` (R83). -/
def decStrFrom : Nat → Bytes → Option Nat
  | acc, [] => some acc
  | acc, c :: cs =>
    match digit c with
    | some v => decStrFrom (10 * acc + v) cs
    | none => none

/-- `DecStr` (R83): the value of a non-empty string of decimal digits, unbounded; no value otherwise. -/
def decStr : Bytes → Option Nat
  | [] => none
  | c :: cs => decStrFrom 0 (c :: cs)

/-- `hexchar` (R84). -/
def hexChar (n : Nat) : Byte := if n < 10 then BitVec.ofNat 8 (0x30 + n) else BitVec.ofNat 8 (0x41 + (n - 10))

/-- `HexEnc` of one byte (R84): two characters, the high nibble first, upper case. -/
def hexEnc (v : Byte) : Bytes := [hexChar (v.toNat / 16), hexChar (v.toNat % 16)]

/-- `HexEnc` of a byte string (R84). -/
def hexEncAll : Bytes → Bytes
  | [] => []
  | v :: vs => hexEnc v ++ hexEncAll vs

/-- `hexval` (R85): either letter case. -/
def hexVal (c : Byte) : Option Nat :=
  if 0x30 ≤ c.toNat ∧ c.toNat ≤ 0x39 then some (c.toNat - 0x30)
  else if 0x41 ≤ c.toNat ∧ c.toNat ≤ 0x46 then some (c.toNat - 0x41 + 10)
  else if 0x61 ≤ c.toNat ∧ c.toNat ≤ 0x66 then some (c.toNat - 0x61 + 10)
  else none

/-- `HexDec2` (R85). -/
def hexDec2 (x y : Byte) : Except ErrorKind Byte :=
  match hexVal x, hexVal y with
  | some a, some b => .ok (BitVec.ofNat 8 (16 * a + b))
  | _, _ => .error .malformedFrame

/-- `HexDec` (R85). The rule defines it for an even number of characters, and every use has one; an odd one is
rejected. -/
def hexDec : Bytes → Except ErrorKind Bytes
  | [] => .ok []
  | [_] => .error .malformedFrame
  | x :: y :: rest =>
    match hexDec2 x y with
    | .ok v =>
      match hexDec rest with
      | .ok vs => .ok (v :: vs)
      | .error e => .error e
    | .error e => .error e

/-- `u16le` (R86). -/
def u16le (x y : Byte) : Half := BitVec.ofNat 16 (x.toNat + 256 * y.toNat)

/-- The two bytes of a 16-bit field, the low byte first (R86). -/
def le16 (n : Nat) : Bytes := [BitVec.ofNat 8 (n % 256), BitVec.ofNat 8 (n / 256)]

/-- `Sum8` (R88): the byte sum modulo 256. -/
def sum8 (s : Bytes) : Byte := BitVec.ofNat 8 (s.map BitVec.toNat).sum

/-! ## Binary requests -/

/-- The fields of `BinParseCommon` (R171) after the command byte; `none` where one of its length checks or the check
`N >= 1` raises `MalformedFrame`. -/
def binFields (F : Bytes) : Option BinFields :=
  if F.length < 29 then none
  else
    let n := (byteAt F 28).toNat
    if n = 0 then none
    else if F.length < 32 + n then none
    else some
      { name := slice F 31 (n - 1)
        count := u16le (byteAt F (30 + n)) (byteAt F (31 + n))
        data := F.drop (32 + n) }

/-- Classification of a binary frame by its command byte (R99, R171, R175). -/
def decodeBin (k : Nat) (F : Bytes) : Except ErrorKind Instr :=
  if F.length < 21 then .error .malformedFrame
  else if byteAt F 20 = cmdRead then .ok (.binRead k (F.take 20) (binFields F))
  else if byteAt F 20 = cmdWrite then .ok (.binWrite k (F.take 20) (binFields F))
  else .error .unsupportedCommand

/-! ## ASCII requests -/

/-- What a header parse gives (R204, R205): the address, the size and the bytes from the payload offset on. -/
structure AscHeader where
  addr : Bytes
  size : Byte
  tail : Bytes
deriving DecidableEq, Repr

/-- `AscReadHeader` (`b = 0`, R204) and `AscWriteHeader` (R205): the same checks, `b` bytes later. -/
def ascHeader (F : Bytes) (b : Nat) : Except ErrorKind AscHeader :=
  if F.length < 8 + b then .error .malformedFrame
  else
    match dec2 (byteAt F (6 + b)) (byteAt F (7 + b)) with
    | .error e => .error e
    | .ok l =>
      if F.length < 10 + b + l then .error .malformedFrame
      else
        match hexDec2 (byteAt F (8 + b + l)) (byteAt F (9 + b + l)) with
        | .error e => .error e
        | .ok size => .ok { addr := slice F (8 + b) l, size := size, tail := F.drop (10 + b + l) }

/-- The read class of an area character and a class character (R146, R219). -/
def ascReadClass (area cls : Byte) (op : AscReadOp) : Except ErrorKind Instr :=
  if cls = chB then
    if area = chM then .ok (.ascRdMb op)
    else if area = chP then .ok (.ascRdPb op)
    else if area = chD then .ok (.ascRdDb op)
    else if area = chT then .ok (.ascRdTb op)
    else .error .unsupportedArea
  else .error .unsupportedArea

/-- The write class of the `wS` family: the class character first, then the area character (R147, R238). -/
def ascWriteClass (area cls : Byte) (op : AscWriteOp) : Except ErrorKind Instr :=
  if cls = chX then
    if area = chM then .ok (.ascWrMx op)
    else if area = chD then .ok (.ascWrDx op)
    else .error .unsupportedArea
  else if cls = chW then
    if area = chC then .ok (.ascWrCw op)
    else if area = chT then .ok (.ascWrTw op)
    else if area = chM then .ok (.ascWrMw op)
    else if area = chD then .ok (.ascWrDw op)
    else .error .unsupportedArea
  else if cls = chD then .ok (.ascWrDd area op)
  else if cls = chL then .ok (.ascWrDl area op)
  else .error .unsupportedArea

/-- The write class of the `WSS` family (R238, R240 to R247). -/
def ascWssClass (area cls : Byte) (op : AscWriteOp) : Except ErrorKind Instr :=
  if cls = chX then
    if area = chM then .ok (.ascWssMx op)
    else if area = chD then .ok (.ascWssDx op)
    else .error .unsupportedArea
  else if cls = chW then
    if area = chC then .ok (.ascWssCw op)
    else if area = chT then .ok (.ascWssTw op)
    else if area = chM then .ok (.ascWssMw op)
    else if area = chD then .ok (.ascWssDw op)
    else .error .unsupportedArea
  else if cls = chD then .ok (.ascWssDd area op)
  else if cls = chL then .ok (.ascWssDl area op)
  else .error .unsupportedArea

/-- `AscRead` up to its choice of command (R219). -/
def decodeAscRead (F : Bytes) : Except ErrorKind Instr :=
  match ascHeader F 0 with
  | .error e => .error e
  | .ok h =>
    if h.addr.length < 3 then .error .invalidAddress
    else ascReadClass (byteAt h.addr 1) (byteAt h.addr 2)
      { st1 := byteAt F 1, st2 := byteAt F 2, pre := byteAt h.addr 0, suffix := h.addr.drop 3, size := h.size }

/-- The operands of a write whose header parsed as `h` (R205, R145). -/
def ascWriteOp (F : Bytes) (h : AscHeader) : AscWriteOp :=
  { st1 := byteAt F 1, st2 := byteAt F 2, pre := byteAt h.addr 0, suffix := h.addr.drop 3, size := h.size,
    tail := h.tail }

/-- `AscWrite(F, 0)` up to its choice of command (R238). -/
def decodeAscWrite (F : Bytes) : Except ErrorKind Instr :=
  match ascHeader F 0 with
  | .error e => .error e
  | .ok h =>
    if h.addr.length < 3 then .error .invalidAddress
    else ascWriteClass (byteAt h.addr 1) (byteAt h.addr 2) (ascWriteOp F h)

/-- `AscWrite(F, 1)` up to its choice of command (R238, R205 with `b = 1`). -/
def decodeAscWss (F : Bytes) : Except ErrorKind Instr :=
  match ascHeader F 1 with
  | .error e => .error e
  | .ok h =>
    if h.addr.length < 3 then .error .invalidAddress
    else ascWssClass (byteAt h.addr 1) (byteAt h.addr 2) (ascWriteOp F h)

/-- Token routing (R203): `rS`, then `WSS`, then `wS`, case-sensitive. -/
def routeAsc (F : Bytes) : Except ErrorKind Instr :=
  if slice F 3 2 = [chr, chS] then decodeAscRead F
  else if slice F 3 3 = [chW, chS, chS] then decodeAscWss F
  else if slice F 3 2 = [chw, chS] then decodeAscWrite F
  else .error .unsupportedCommand

/-- The frame `F` the codec works on: `W` without its two trailing checksum characters (R93, R202). -/
def stripChecksum (W : Bytes) : Bytes := W.take (W.length - 2)

/-- `AscProcess` (R202) up to the choice of command. The checksum characters are not compared with anything (R208). -/
def decodeAsc (W : Bytes) : Except ErrorKind Instr :=
  if W.length < 5 then .error .malformedFrame
  else
    let F := stripChecksum W
    if byteAt F 0 ≠ ENQ then .error .malformedFrame
    else if F.length < 6 then .error .malformedFrame
    else
      match dec2 (byteAt F 1) (byteAt F 2) with
      | .error e => .error e
      | .ok _ => routeAsc F

/-! ## Host requests -/

/-- The command of a host operation (R270 to R277). -/
def decodeHost : HostOp → Instr
  | .read t n => .hostRead t n
  | .write t d => .hostWrite t d
  | .readbit t => .hostReadbit t
  | .writebit t v => .hostWritebit t v
  | .exportSnapshot => .hostExport
  | .importSnapshot img => .hostImport img

/-- `ReadByte(t)` expands to `HOST_READ(t, 1)` (R275). -/
def HostOp.readByte (t : Bytes) : HostOp := .read t 1
/-- `WriteByte(t, v)` expands to `HOST_WRITE(t, v)` with the one-byte string `v` (R275). -/
def HostOp.writeByte (t : Bytes) (v : Byte) : HostOp := .write t [v]
/-- `ReadBool(t)` expands to `HOST_READBIT(t)` (R275). -/
def HostOp.readBool (t : Bytes) : HostOp := .readbit t
/-- `WriteBool(t, x)` expands to `HOST_WRITEBIT(t, 1 if x else 0)` (R275). -/
def HostOp.writeBool (t : Bytes) (x : Bool) : HostOp := .writebit t x

/-! ## All requests -/

/-- The command a request selects, or the error kind with which its transaction ends before one is selected (R99,
R101). -/
def decode : Request → Except ErrorKind Instr
  | .bin k F => decodeBin k F
  | .asc W => decodeAsc W
  | .host op => .ok (decodeHost op)

/-- The agent whose request it is (10_state.md R20). -/
def Request.agent : Request → Agent
  | .bin k _ => .bin k
  | .asc _ => .ser
  | .host _ => .host

/-- The agent that performs a command (60_exceptions.md R310: binary ports the BIN_* commands, the serial port the
ASC_* commands, the host port the HOST_* operations). -/
def Instr.agent : Instr → Agent
  | .binRead k _ _ => .bin k
  | .binWrite k _ _ => .bin k
  | .ascRdMb _ => .ser
  | .ascRdPb _ => .ser
  | .ascRdDb _ => .ser
  | .ascRdTb _ => .ser
  | .ascWrMx _ => .ser
  | .ascWrDx _ => .ser
  | .ascWrCw _ => .ser
  | .ascWrTw _ => .ser
  | .ascWrMw _ => .ser
  | .ascWrDw _ => .ser
  | .ascWrDd _ _ => .ser
  | .ascWrDl _ _ => .ser
  | .ascWssMx _ => .ser
  | .ascWssDx _ => .ser
  | .ascWssCw _ => .ser
  | .ascWssTw _ => .ser
  | .ascWssMw _ => .ser
  | .ascWssDw _ => .ser
  | .ascWssDd _ _ => .ser
  | .ascWssDl _ _ => .ser
  | .hostRead _ _ => .host
  | .hostWrite _ _ => .host
  | .hostReadbit _ => .host
  | .hostWritebit _ _ => .host
  | .hostExport => .host
  | .hostImport _ => .host

/-! ## Encoder

Bytes no rule interprets are filled as R102 and the spec's examples fill them: 0x00 at offsets 21 to 27, 29 and 30, `'B'`
as third token character, `'0'` as the extra `WSS` byte, and the modulo-256 sum as checksum (log 10). -/

/-- A binary request (R89, R102). A frame without fields ends after its command byte. -/
def encodeBin (cmd : Byte) (header : Bytes) (fields : Option BinFields) : Bytes :=
  header ++ [cmd] ++ (match fields with
    | none => []
    | some f =>
      [0, 0, 0, 0, 0, 0, 0] ++ [BitVec.ofNat 8 (f.name.length + 1)] ++ [0, 0] ++ f.name
        ++ le16 f.count.toNat ++ f.data)

/-- An ASCII request on the wire (R93 to R95, R102): `token` is the 3-character token, or `WSS` and its extra byte. -/
def encodeAsc (st1 st2 : Byte) (token addr : Bytes) (size : Byte) (tail : Bytes) : Bytes :=
  let F := [ENQ, st1, st2] ++ token ++ dec2Enc addr.length ++ addr ++ hexEnc size ++ tail
  F ++ hexEnc (sum8 F)

/-- An ASCII read of class `area`, `B` (R94). -/
def encodeAscRead (area : Byte) (op : AscReadOp) : Request :=
  .asc (encodeAsc op.st1 op.st2 [chr, chS, chB] ([op.pre, area, chB] ++ op.suffix) op.size [ETX])

/-- An ASCII write of class `area`, `cls` with token `wSB` (R95, `b = 0`). -/
def encodeAscWrite (area cls : Byte) (op : AscWriteOp) : Request :=
  .asc (encodeAsc op.st1 op.st2 [chw, chS, chB] ([op.pre, area, cls] ++ op.suffix) op.size op.tail)

/-- An ASCII write of class `area`, `cls` with token `WSS` (R95, `b = 1`). -/
def encodeAscWss (area cls : Byte) (op : AscWriteOp) : Request :=
  .asc (encodeAsc op.st1 op.st2 [chW, chS, chS, ch0] ([op.pre, area, cls] ++ op.suffix) op.size op.tail)

/-- The request that holds a command (R99, R102). -/
def encode : Instr → Request
  | .binRead k h f => .bin k (encodeBin cmdRead h f)
  | .binWrite k h f => .bin k (encodeBin cmdWrite h f)
  | .ascRdMb op => encodeAscRead chM op
  | .ascRdPb op => encodeAscRead chP op
  | .ascRdDb op => encodeAscRead chD op
  | .ascRdTb op => encodeAscRead chT op
  | .ascWrMx op => encodeAscWrite chM chX op
  | .ascWrDx op => encodeAscWrite chD chX op
  | .ascWrCw op => encodeAscWrite chC chW op
  | .ascWrTw op => encodeAscWrite chT chW op
  | .ascWrMw op => encodeAscWrite chM chW op
  | .ascWrDw op => encodeAscWrite chD chW op
  | .ascWrDd area op => encodeAscWrite area chD op
  | .ascWrDl area op => encodeAscWrite area chL op
  | .ascWssMx op => encodeAscWss chM chX op
  | .ascWssDx op => encodeAscWss chD chX op
  | .ascWssCw op => encodeAscWss chC chW op
  | .ascWssTw op => encodeAscWss chT chW op
  | .ascWssMw op => encodeAscWss chM chW op
  | .ascWssDw op => encodeAscWss chD chW op
  | .ascWssDd area op => encodeAscWss area chD op
  | .ascWssDl area op => encodeAscWss area chL op
  | .hostRead t n => .host (.read t n)
  | .hostWrite t d => .host (.write t d)
  | .hostReadbit t => .host (.readbit t)
  | .hostWritebit t v => .host (.writebit t v)
  | .hostExport => .host .exportSnapshot
  | .hostImport img => .host (.importSnapshot img)

/-! ## The opcode table's words (log 8) -/

/-- The first `n` bytes of `w`, the least significant first. -/
def leBytes : Nat → Nat → Bytes
  | 0, _ => []
  | n + 1, w => BitVec.ofNat 8 (w % 256) :: leBytes n (w / 256)

/-- The binary frame that holds a table word: the table's bits 7 to 0 are the byte at offset 20 (its selector), later
bytes follow it, every other byte is 0, and the frame reaches past the name length and a count. -/
def tableFrame (nbits w : Nat) : Bytes :=
  List.replicate 20 0 ++ leBytes (max 13 ((nbits + 7) / 8)) (w % 2 ^ nbits)

/-- The command the decoder reads from a table word (only the two binary rows have bits in the table). -/
def decodeTableWord (nbits w : Nat) : Option Instr :=
  match decode (.bin 0 (tableFrame nbits w)) with
  | .ok i => some i
  | .error _ => none

end Sys2Proof
end

