-- ==== Sys2Proof/Machine/Memory.lean ====
section
/-! DEFINITION. The areas as plain data: each a list of (index, byte) pairs in one canonical form (log 17), with
the reading and writing of one byte and of byte strings. Bounds are checked by the primitives of Machine/Ops.lean. -/

namespace Sys2Proof.Machine

/-- The bytes of one area (10_state.md R22): the listed indices strictly rise and hold bytes other than `unlisted`. -/
abbrev Memory := List Host.Cell

/-- What an index that is not listed reads as: the reset contents, every byte 0 (R22, 70_reset_and_hazards.md R330). -/
def unlisted : Byte := 0

/-- Every listed index is above `lo`, the indices strictly rise, and no entry is `unlisted`. -/
def Memory.wfAbove (lo : Nat) : Memory → Bool
  | [] => true
  | (a, b) :: rest => lo ≤ a && b != unlisted && Memory.wfAbove (a + 1) rest

/-- The canonical form. -/
def Memory.wf (m : Memory) : Bool := Memory.wfAbove 0 m

/-- Every listed index is below `cap`. -/
def Memory.below (cap : Nat) : Memory → Bool
  | [] => true
  | (a, _) :: rest => a < cap && Memory.below cap rest

/-- Byte `i` of an area (R50). -/
def Memory.read : Memory → Nat → Byte
  | [], _ => unlisted
  | (a, b) :: rest, i => if i = a then b else Memory.read rest i

/-- An area with byte `i` replaced by `v`, in canonical form. -/
def Memory.write : Memory → Nat → Byte → Memory
  | [], i, v => if v = unlisted then [] else [(i, v)]
  | (a, b) :: rest, i, v =>
    if i < a then (if v = unlisted then (a, b) :: rest else (i, v) :: (a, b) :: rest)
    else if i = a then (if v = unlisted then rest else (i, v) :: rest)
    else (a, b) :: Memory.write rest i v

/-- `n` bytes from index `start` on, the byte at the lowest index first (20_memory.md R51, R53). -/
def Memory.readBytes (m : Memory) : Nat → Nat → Bytes
  | _, 0 => []
  | start, n + 1 => m.read start :: Memory.readBytes m (start + 1) n

/-- The bytes of `v` stored from index `start` on, the first byte at the lowest index (R51, R54). -/
def Memory.writeBytes : Memory → Nat → Bytes → Memory
  | m, _, [] => m
  | m, start, b :: bs => Memory.writeBytes (m.write start b) (start + 1) bs

/-- The area that holds the byte string `v` from index `start` on and is 0 elsewhere (R63, R330). -/
def Memory.ofBytes : Nat → Bytes → Memory
  | _, [] => []
  | start, b :: bs =>
    if b = unlisted then Memory.ofBytes (start + 1) bs else (start, b) :: Memory.ofBytes (start + 1) bs

/-- The four areas (R22): disjoint, each a memory of its own. -/
structure Store where
  p : Memory
  q : Memory
  m : Memory
  d : Memory
deriving DecidableEq, Repr

/-- `A[a]`. -/
def Store.get (st : Store) : Area → Memory
  | .p => st.p
  | .q => st.q
  | .m => st.m
  | .d => st.d

/-- The store with `A[a]` replaced. -/
def Store.set (st : Store) (a : Area) (m : Memory) : Store :=
  match a with
  | .p => { st with p := m }
  | .q => { st with q := m }
  | .m => { st with m := m }
  | .d => { st with d := m }

/-- Every byte of every area 0 (R22). -/
def Store.zero : Store := { p := [], q := [], m := [], d := [] }

/-- The store a snapshot image of `4 * cap` bytes lays out, areas in the order P, Q, M, D (20_memory.md R63). -/
def Store.ofImage (cap : Nat) (img : Bytes) : Store :=
  { p := Memory.ofBytes 0 (img.take cap)
    q := Memory.ofBytes 0 ((img.drop cap).take cap)
    m := Memory.ofBytes 0 ((img.drop (2 * cap)).take cap)
    d := Memory.ofBytes 0 ((img.drop (3 * cap)).take cap) }

end Sys2Proof.Machine
end

