-- ==== Sys2Proof/Machine/State.lean ====
section
/-! DEFINITION. The state of the block (10_state.md, its summary in section 7), the reasons a step can stop, and the
state after reset (70_reset_and_hazards.md R330 to R332). -/

namespace Sys2Proof.Machine

/-- The outcome of a transaction (60_exceptions.md R300): `OK` or one error kind. -/
inductive Status where
  | ok
  | error (e : ErrorKind)
deriving DecidableEq, Repr

/-- `binState[k]` (R25). -/
inductive PortState where
  | closed
  | opened
deriving DecidableEq, Repr

/-- `fs`, the framer state (R26). -/
inductive FramerState where
  | hunt
  | body
  | ck1
  | ck2
deriving DecidableEq, Repr

/-- What a successful host operation returns (43_host_port.md R271 to R277): bytes, one bit, or `ok` alone. -/
inductive HostValue where
  | bytes (d : Bytes)
  | bit (v : Bool)
  | done
deriving DecidableEq, Repr

/-- An entry of `hostOut`: the operation's result with status `OK`, or the error status alone (R270). -/
inductive HostResult where
  | ok (v : HostValue)
  | error (e : ErrorKind)
deriving DecidableEq, Repr

/-- A binary port `BIN[k]` (R21, R25). -/
structure BinPort where
  /-- `binState[k]`. -/
  state : PortState
  /-- `binIn[k]`, the head first. -/
  inQ : List Bytes
  /-- `binOut[k]`, the oldest first. -/
  outQ : List Bytes
  /-- `close[k]`; `true` is high. -/
  close : Bool
  /-- The statuses the port has presented, one per transaction, the oldest first (R28; log 3). An output: no step reads
  it. -/
  status : List Status
deriving DecidableEq, Repr

/-- The serial port `SER` (R21, R26). -/
structure SerPort where
  /-- `fs`. -/
  fs : FramerState
  /-- `buf`. -/
  buf : Bytes
  /-- `serRx`, the head first. -/
  rx : Bytes
  /-- `serTx`, the oldest first. -/
  tx : Bytes
  /-- The statuses of the port's transactions, the oldest first (R28, R209; log 3). An output: no step reads it. -/
  status : List Status
deriving DecidableEq, Repr

/-- The host port `HOST` (R21, R27). -/
structure HostPort where
  /-- `hostIn`, the head first. -/
  inQ : List HostOp
  /-- `hostOut`, the oldest first. -/
  outQ : List HostResult
deriving DecidableEq, Repr

/-- The state of the block. -/
structure State where
  /-- The configuration (R5, R29), read-only while the block runs. -/
  cfg : Params
  /-- How reset ended: `OK`, or `MalformedSnapshot` when the boot image has the wrong size and the block does not leave
  reset (70_reset_and_hazards.md R331; log 6). -/
  boot : Status
  /-- The areas (R22). -/
  store : Store
  /-- The binary ports; `bin[k]` is `BIN[k]` (R20, R25). -/
  bin : List BinPort
  /-- The serial port (R26). -/
  ser : SerPort
  /-- The host port (R27). -/
  host : HostPort
  /-- The model's own counter, to which the free value `Config.arbiter` is applied (log 2). -/
  tick : Nat
deriving DecidableEq, Repr

/-- Why the machine stops. -/
inductive Fault where
  /-- Raised by `step` alone, in a state whose reset failed with `MalformedSnapshot`: the block does not leave reset and
  no port takes any step (70_reset_and_hazards.md R331; 93 I14 "stuck"). Safe: the hardware does nothing there. -/
  | heldInReset
deriving DecidableEq, Repr

/-- Why a step has no meaning. -/
inductive Refusal where
  /-- Raised by an arm of `exec` whose instruction has no meaning yet; no arm raises it. Safe: the machine stops where
  the hardware goes on. -/
  | notModelled (mnemonic : String)
deriving DecidableEq, Repr

/-- A binary port after reset: `CLOSED`, queues empty, `close[k]` low (R25). -/
def BinPort.reset : BinPort := { state := .closed, inQ := [], outQ := [], close := false, status := [] }

/-- The serial port after reset: `HUNT`, everything empty (R26). -/
def SerPort.reset : SerPort := { fs := .hunt, buf := [], rx := [], tx := [], status := [] }

/-- The host port after reset: both queues empty (R27). -/
def HostPort.reset : HostPort := { inQ := [], outQ := [] }

/-- The store reset leaves (R330): the image of `INIT_IMAGE` where it is given, all zero otherwise. DESIGN CHOICE
(log 18): where the image has a wrong size and reset fails (R331), the spec does not say what the areas hold; here they
hold as much of the image as fits, cut off at `4 * CAP` bytes or 0 where it is short. -/
def Params.resetStore (p : Params) : Store :=
  match p.initImage with
  | none => Store.zero
  | some img => Store.ofImage p.cap img

/-- Whether reset succeeds (R331): an image of a length other than `4 * CAP` is `MalformedSnapshot`. -/
def Params.bootStatus (p : Params) : Status :=
  match p.initImage with
  | none => .ok
  | some img => if img.length = 4 * p.cap then .ok else .error .malformedSnapshot

/-- The block right after reset with configuration `p` (R5, R330 to R332): every port in its reset state, the store
initialised. Where reset fails (R331) the store and the ports are the model's choice (log 18). -/
def State.resetOf (p : Params) : State :=
  { cfg := p
    boot := Params.bootStatus p
    store := Params.resetStore p
    bin := List.replicate p.numBinPorts BinPort.reset
    ser := SerPort.reset
    host := HostPort.reset
    tick := 0 }

/-- The block right after reset with the values R5 gives for this hardware. -/
def State.reset : State := State.resetOf Params.default

end Sys2Proof.Machine
end

