-- ==== Sys2Proof/Machine/Operands.lean ====
section
/-! DEFINITION. The address resolver (40_address_resolver.md) and the other operand forms of 30_encoding.md R98 that a
command assembles after its request was decoded. -/

namespace Sys2Proof.Machine

open Config

/-- The area a canonical letter names, upper case only (R140; 10_state.md R23). -/
def areaOf (c : Byte) : Option Area :=
  if c = chP then some .p
  else if c = chQ then some .q
  else if c = chM then some .m
  else if c = chD then some .d
  else none

/-- The data-type letters `B`, `W`, `D`, `L` of the generic form (R140). -/
def isTypeLetter (c : Byte) : Bool := c == chB || c == chW || c == chD || c == chL

/-- The digits of a generic address: a data-type letter in front is skipped, with no scaling (R140, R142). -/
def skipTypeLetter (rest : Bytes) : Bytes := if isTypeLetter (byteAt rest 0) then rest.drop 1 else rest

/-- An index suffix read by `DecStr`; no value is `InvalidAddress` (R83, 42_ascii_codec.md R222, R239). -/
def decIndex (t : Bytes) : Except ErrorKind Nat :=
  match decStr t with
  | some i => .ok i
  | none => .error .invalidAddress

/-- `ResolveGeneric(s, isRead)` (R140). `isRead` does not change the result (R141). -/
def resolveGeneric (s : Bytes) (_isRead : Bool) : Except ErrorKind (Area × Nat) :=
  if s.length < 3 then .error .invalidAddress
  else
    match areaOf (byteAt s 1) with
    | none => .error .unsupportedArea
    | some a =>
      match decIndex (skipTypeLetter (s.drop 2)) with
      | .ok i => .ok (a, i)
      | .error e => .error e

/-- `ResolveLetterOrDigit(t)` (R143). -/
def resolveLetterOrDigit (t : Bytes) : Except ErrorKind Nat :=
  if t = [chA] then .ok 10
  else if t = [chB] then .ok 11
  else if t = [chC] then .ok 12
  else if t = [chD] then .ok 13
  else if t = [chE] then .ok 14
  else if t = [chF] then .ok 15
  else decIndex t

/-- The bit value of a class `X` write (42_ascii_codec.md R239): the two characters at the payload offset, 1 for
`"01"` and 0 for anything else; too few characters are `MalformedFrame`. -/
def bitValue (tail : Bytes) : Except ErrorKind Bool :=
  if tail.length < 2 then .error .malformedFrame
  else .ok (tail.take 2 = [ch0, ch1])

/-- The payload of a class `W` write (R239): `4 * size` hex characters, decoded to `2 * size` bytes in the order
received. -/
def wordPayload (size : Byte) (tail : Bytes) : Except ErrorKind Bytes :=
  if tail.length < 4 * size.toNat then .error .malformedFrame
  else hexDec (tail.take (4 * size.toNat))

/-- The payload of a binary write (41_binary_codec.md R174): `2 * count` bytes; later bytes are ignored (R177). -/
def binPayload (f : BinFields) : Except ErrorKind Bytes :=
  if f.data.length < 2 * f.count.toNat then .error .malformedFrame
  else .ok (f.data.take (2 * f.count.toNat))

/-- The fields of a binary request; where the frame does not hold them, `MalformedFrame` (R171). -/
def binParsed (fields : Option BinFields) : Except ErrorKind BinFields :=
  match fields with
  | some f => .ok f
  | none => .error .malformedFrame

end Sys2Proof.Machine
end

