-- ==== Sys2Proof/Machine/Flags.lean ====
section
/-! DEFINITION. The block has no flags and no condition codes; the status of a transaction stands in their place
(10_state.md R28). This file holds what is computed from a status. -/

namespace Sys2Proof.Machine

/-- The codes of the statuses (60_exceptions.md R300). -/
def Status.code : Status → Nat
  | .ok => 0
  | .error .invalidAddress => 1
  | .error .unsupportedArea => 2
  | .error .outOfRange => 3
  | .error .malformedFrame => 4
  | .error .unimplemented => 5
  | .error .malformedSnapshot => 6
  | .error .unsupportedCommand => 7

/-- The error kinds that make a binary port request that its connection be closed (41_binary_codec.md R170, R178). -/
def closesPort : ErrorKind → Bool
  | .unsupportedCommand => true
  | .malformedFrame => true
  | .invalidAddress => false
  | .unsupportedArea => false
  | .outOfRange => false
  | .unimplemented => false
  | .malformedSnapshot => false

/-- The status of a host result (43_host_port.md R270). -/
def HostResult.status : HostResult → Status
  | .ok _ => .ok
  | .error e => .error e

end Sys2Proof.Machine
end

