-- ==== Sys2Proof/Machine/Ops.lean ====
section
/-! DEFINITION. The primitives of the memory access unit (20_memory.md R52 to R57) with the two snapshot operations, and
the two ways a transaction ends on each port: with its result, or by the error entry of 60_exceptions.md R306. -/

namespace Sys2Proof.Machine

/-! ## Memory primitives. Each checks its bounds before it touches anything; indices are unbounded (log 7, R53). -/

/-- `MemRead(a, start, n)` (R53). -/
def memRead (cap : Nat) (st : Store) (a : Area) (start n : Nat) : Except ErrorKind Bytes :=
  if start + n > cap then .error .outOfRange
  else .ok ((st.get a).readBytes start n)

/-- `MemWrite(a, start, n, v)` with `n = len(v)` (R54). -/
def memWrite (cap : Nat) (st : Store) (a : Area) (start : Nat) (v : Bytes) : Except ErrorKind Store :=
  if start + v.length > cap then .error .outOfRange
  else .ok (st.set a ((st.get a).writeBytes start v))

/-- Bit `i` of an area: bit `i mod 8` of byte `i div 8`, bit 0 the least significant (R52). -/
def Memory.bit (m : Memory) (i : Nat) : Bool := (m.read (i / 8)).getLsbD (i % 8)

/-- `BitRead(a, i)` (R55). -/
def bitRead (cap : Nat) (st : Store) (a : Area) (i : Nat) : Except ErrorKind Bool :=
  if i ≥ 8 * cap then .error .outOfRange
  else .ok ((st.get a).bit i)

/-- A byte with bit `j` replaced by `v`: `(b AND NOT (1 << j)) OR (v << j)` (R56). -/
def setBit (b : Byte) (j : Nat) (v : Bool) : Byte :=
  (b &&& ~~~((1 : Byte) <<< j)) ||| (BitVec.ofNat 8 v.toNat <<< j)

/-- `BitWrite(a, i, v)`: one read-modify-write of the byte `A[a][i div 8]` (R56, R67). -/
def bitWrite (cap : Nat) (st : Store) (a : Area) (i : Nat) (v : Bool) : Except ErrorKind Store :=
  if i ≥ 8 * cap then .error .outOfRange
  else .ok (st.set a ((st.get a).write (i / 8) (setBit ((st.get a).read (i / 8)) (i % 8) v)))

/-- Eight bits from bit index `i` on, packed least-significant first (the inner sum of R57). -/
def Memory.packByte (m : Memory) (i : Nat) : Byte :=
  BitVec.ofNat 8 ((List.range 8).map fun j => (m.bit (i + j)).toNat <<< j).sum

/-- `8 * n` bits from bit index `i` on, packed into `n` bytes (R57). -/
def Memory.packBytes (m : Memory) : Nat → Nat → Bytes
  | _, 0 => []
  | i, n + 1 => m.packByte i :: Memory.packBytes m (i + 8) n

/-- `BitRangeRead(a, start, nbytes)` (R57). -/
def bitRangeRead (cap : Nat) (st : Store) (a : Area) (start nbytes : Nat) : Except ErrorKind Bytes :=
  if start + 8 * nbytes > 8 * cap then .error .outOfRange
  else .ok ((st.get a).packBytes start nbytes)

/-- The snapshot image of the store: areas in the order P, Q, M, D (R63, 43_host_port.md R276). -/
def Store.image (cap : Nat) (st : Store) : Bytes :=
  st.p.readBytes 0 cap ++ st.q.readBytes 0 cap ++ st.m.readBytes 0 cap ++ st.d.readBytes 0 cap

/-- The store an image replaces all four areas with, or `MalformedSnapshot` (43_host_port.md R277). -/
def importImage (cap : Nat) (img : Bytes) : Except ErrorKind Store :=
  if img.length = 4 * cap then .ok (Store.ofImage cap img) else .error .malformedSnapshot

/-! ## The end of a transaction -/

/-- The state with port `BIN[k]` changed; no change where there is no such port (log 9). -/
def State.onBin (s : State) (k : Nat) (f : BinPort → BinPort) : State := { s with bin := s.bin.modify k f }

/-- A binary port after an error (R176, R178, R306): the status is presented, no response is appended, and an
`UnsupportedCommand` or a `MalformedFrame` raises `close[k]` and closes the port. -/
def BinPort.fail (e : ErrorKind) (p : BinPort) : BinPort :=
  { p with
    status := p.status ++ [.error e]
    close := p.close || closesPort e
    state := if closesPort e then .closed else p.state }

/-- Error entry (R306), the ONE operation by which a transaction of any port ends in an error: no area is written, no
response byte is emitted, the status is presented; a binary port may close (R178); the serial port stays open and its
framer is where the completed frame left it, in `HUNT` (R200, R209); the host's result is the error status alone (R270).
Nothing else is saved or changed and no handler runs. There is no return from an error: a port that is not closed takes
its next request as after a success (R307). -/
def raiseError (a : Agent) (e : ErrorKind) (s : State) : State :=
  match a with
  | .bin k => s.onBin k (BinPort.fail e)
  | .ser => { s with ser := { s.ser with status := s.ser.status ++ [.error e] } }
  | .host => { s with host := { s.host with outQ := s.host.outQ ++ [.error e] } }

/-- A binary port after a success: the response is appended to `binOut[k]`, with status `OK` (R170). -/
def BinPort.emit (r : Bytes) (p : BinPort) : BinPort := { p with outQ := p.outQ ++ [r], status := p.status ++ [.ok] }

/-- `emit(r)` on port `BIN[k]`, the store as the transaction's one primitive left it (R170). -/
def emitBin (k : Nat) (st : Store) (r : Bytes) (s : State) : State := { s with store := st }.onBin k (BinPort.emit r)

/-- `emit(r)` on the serial port: the bytes of `r` are appended to `serTx` in order (R202). -/
def emitSer (st : Store) (r : Bytes) (s : State) : State :=
  { s with store := st, ser := { s.ser with tx := s.ser.tx ++ r, status := s.ser.status ++ [.ok] } }

/-- A host operation's result with status `OK`, appended to `hostOut` (R270). -/
def emitHost (st : Store) (v : HostValue) (s : State) : State :=
  { s with store := st, host := { s.host with outQ := s.host.outQ ++ [.ok v] } }

/-- The end of a transaction of `BIN[k]` (R170): its store and response, or the error it raised. -/
def finishBin (k : Nat) (r : Except ErrorKind (Store × Bytes)) (s : State) : State :=
  match r with
  | .ok (st, bytes) => emitBin k st bytes s
  | .error e => raiseError (.bin k) e s

/-- The end of a transaction of the serial port (R202, R209). -/
def finishSer (r : Except ErrorKind (Store × Bytes)) (s : State) : State :=
  match r with
  | .ok (st, bytes) => emitSer st bytes s
  | .error e => raiseError .ser e s

/-- The end of a host operation (R270). -/
def finishHost (r : Except ErrorKind (Store × HostValue)) (s : State) : State :=
  match r with
  | .ok (st, v) => emitHost st v s
  | .error e => raiseError .host e s

end Sys2Proof.Machine
end

