-- ==== Sys2Proof/Machine/Responses.lean ====
section
/-! DEFINITION. The response builders: binary (30_encoding.md R87, R91, R92; 41_binary_codec.md R172) and ASCII (R96, R97;
42_ascii_codec.md R206, R207). -/

namespace Sys2Proof.Machine

open Config

/-- `BinHeader(F)` on the request's header bytes (R172): five bytes overwritten by the sentinels. -/
def binHeader (h : Bytes) : Bytes :=
  ((((h.set 9 0x11).set 10 0x01).set 12 0xA0).set 13 0x11).set 18 0x03

/-- `BinPatch(r)` (R172, R87): byte 16 becomes `(len(r) - 20) mod 256`, after the whole response is built. -/
def binPatch (r : Bytes) : Bytes := r.set 16 (BitVec.ofNat 8 (r.length - 20))

/-- The 10-byte sub-header at offsets 20 to 29 of a response (R91, R92). -/
def binSubHeader (cmd : Byte) : Bytes := [cmd, 0x00, 0x14, 0x00, 0x08, 0x01, 0x00, 0x00, 0x01, 0x00]

/-- The binary read response (R91, R173). -/
def binReadResponse (h : Bytes) (count : Nat) (d : Bytes) : Bytes :=
  binPatch (binHeader h ++ binSubHeader rspRead ++ le16 count ++ d)

/-- The binary write response (R92, R174). -/
def binWriteResponse (h : Bytes) : Bytes := binPatch (binHeader h ++ binSubHeader rspWrite)

/-- A response string with its checksum (R88). -/
def withSum8 (p : Bytes) : Bytes := p ++ hexEnc (sum8 p)

/-- `AscReadResp(F, d)` (R96, R206), `st1`, `st2` being `F[1]`, `F[2]`. -/
def ascReadResp (st1 st2 : Byte) (d : Bytes) : Bytes :=
  withSum8 ([ENQ, st1, st2, chr, chS, chB, ch0, ch1] ++ hexEnc (BitVec.ofNat 8 d.length) ++ hexEncAll d ++ [ETX])

/-- `AscWriteResp(F)` (R97, R207), `cls` being `F[3]`. -/
def ascWriteResp (st1 st2 cls : Byte) : Bytes := withSum8 [ENQ, st1, st2, cls, chS, chB, ETX]

end Sys2Proof.Machine
end

