-- ==== Sys2Proof/Machine/AsciiRead.lean ====
section
/-! DEFINITION. The ASCII read commands (42_ascii_codec.md R220 to R223). -/

namespace Sys2Proof.Machine

/-- The transaction of a bit-oriented read of area `a` (R220, R221): a letter-or-digit bit index, `8 * size` bits. -/
def ascBitRead (a : Area) (cap : Nat) (st : Store) (op : AscReadOp) : Except ErrorKind (Store × Bytes) := do
  let start ← resolveLetterOrDigit op.suffix
  let d ← bitRangeRead cap st a start op.size.toNat
  return (st, ascReadResp op.st1 op.st2 d)

/-- The transaction of a byte-oriented read of area `a` (R222, R223): a decimal byte index, `size` bytes. -/
def ascByteRead (a : Area) (cap : Nat) (st : Store) (op : AscReadOp) : Except ErrorKind (Store × Bytes) := do
  let start ← decIndex op.suffix
  let d ← memRead cap st a start op.size.toNat
  return (st, ascReadResp op.st1 op.st2 d)

/-- ASC_RD_MB (R220). -/
def execAscRdMb (op : AscReadOp) (s : State) : Host.Outcome State Fault Refusal :=
  .next (finishSer (ascBitRead .m s.cfg.cap s.store op) s)

/-- ASC_RD_PB (R221). -/
def execAscRdPb (op : AscReadOp) (s : State) : Host.Outcome State Fault Refusal :=
  .next (finishSer (ascBitRead .p s.cfg.cap s.store op) s)

/-- ASC_RD_DB (R222). -/
def execAscRdDb (op : AscReadOp) (s : State) : Host.Outcome State Fault Refusal :=
  .next (finishSer (ascByteRead .d s.cfg.cap s.store op) s)

/-- ASC_RD_TB (R223): letter `T` names area `Q`. -/
def execAscRdTb (op : AscReadOp) (s : State) : Host.Outcome State Fault Refusal :=
  .next (finishSer (ascByteRead .q s.cfg.cap s.store op) s)

end Sys2Proof.Machine
end

