-- ==== Sys2Proof/Machine/AsciiWrite.lean ====
section
/-! DEFINITION. The two write bodies of the serial port (42_ascii_codec.md R239) and the write commands of the `wS`
family (R230 to R237). -/

namespace Sys2Proof.Machine

open Config

/-- `WRX(a)` (R239): a letter-or-digit bit index, then the value, then the bit write; the size is not used. `cls` is
`F[3]`, echoed in the response. -/
def ascBitWrite (cls : Byte) (a : Area) (cap : Nat) (st : Store) (op : AscWriteOp) : Except ErrorKind (Store × Bytes) := do
  let i ← resolveLetterOrDigit op.suffix
  let v ← bitValue op.tail
  let st' ← bitWrite cap st a i v
  return (st', ascWriteResp op.st1 op.st2 cls)

/-- `WRW(a)` (R239): a decimal byte index, then the payload, then the byte write, with no swap. -/
def ascWordWrite (cls : Byte) (a : Area) (cap : Nat) (st : Store) (op : AscWriteOp) : Except ErrorKind (Store × Bytes) := do
  let start ← decIndex op.suffix
  let d ← wordPayload op.size op.tail
  let st' ← memWrite cap st a start d
  return (st', ascWriteResp op.st1 op.st2 cls)

/-- ASC_WR_MX (R230). -/
def execAscWrMx (op : AscWriteOp) (s : State) : Host.Outcome State Fault Refusal :=
  .next (finishSer (ascBitWrite chw .m s.cfg.cap s.store op) s)

/-- ASC_WR_DX (R231). -/
def execAscWrDx (op : AscWriteOp) (s : State) : Host.Outcome State Fault Refusal :=
  .next (finishSer (ascBitWrite chw .d s.cfg.cap s.store op) s)

/-- ASC_WR_CW (R232): letter `C` names area `P`. -/
def execAscWrCw (op : AscWriteOp) (s : State) : Host.Outcome State Fault Refusal :=
  .next (finishSer (ascWordWrite chw .p s.cfg.cap s.store op) s)

/-- ASC_WR_TW (R233): letter `T` names area `Q`. -/
def execAscWrTw (op : AscWriteOp) (s : State) : Host.Outcome State Fault Refusal :=
  .next (finishSer (ascWordWrite chw .q s.cfg.cap s.store op) s)

/-- ASC_WR_MW (R234). -/
def execAscWrMw (op : AscWriteOp) (s : State) : Host.Outcome State Fault Refusal :=
  .next (finishSer (ascWordWrite chw .m s.cfg.cap s.store op) s)

/-- ASC_WR_DW (R235). -/
def execAscWrDw (op : AscWriteOp) (s : State) : Host.Outcome State Fault Refusal :=
  .next (finishSer (ascWordWrite chw .d s.cfg.cap s.store op) s)

/-- ASC_WR_DD (R236): the double-word class is recognised and not implemented: the transaction ends with
`Unimplemented` whatever the area character and the payload, nothing written, nothing emitted. -/
def execAscWrDd (_area : Byte) (_op : AscWriteOp) (s : State) : Host.Outcome State Fault Refusal :=
  .next (raiseError .ser .unimplemented s)

/-- ASC_WR_DL (R237): the long-word class is recognised and not implemented: the transaction ends with
`Unimplemented` whatever the area character and the payload, nothing written, nothing emitted. -/
def execAscWrDl (_area : Byte) (_op : AscWriteOp) (s : State) : Host.Outcome State Fault Refusal :=
  .next (raiseError .ser .unimplemented s)

end Sys2Proof.Machine
end

