-- ==== Sys2Proof/Machine/AsciiShifted.lean ====
section
/-! DEFINITION. The shifted write commands of the `WSS` family (42_ascii_codec.md R240 to R247): the `wS` bodies at the
shifted offsets (which the decoder applies, R205), the response echoing `F[3] = 'W'`. -/

namespace Sys2Proof.Machine

open Config

/-- ASC_WSS_MX (R240). -/
def execAscWssMx (op : AscWriteOp) (s : State) : Host.Outcome State Fault Refusal :=
  .next (finishSer (ascBitWrite chW .m s.cfg.cap s.store op) s)

/-- ASC_WSS_DX (R241). -/
def execAscWssDx (op : AscWriteOp) (s : State) : Host.Outcome State Fault Refusal :=
  .next (finishSer (ascBitWrite chW .d s.cfg.cap s.store op) s)

/-- ASC_WSS_CW (R242): letter `C` names area `P`. -/
def execAscWssCw (op : AscWriteOp) (s : State) : Host.Outcome State Fault Refusal :=
  .next (finishSer (ascWordWrite chW .p s.cfg.cap s.store op) s)

/-- ASC_WSS_TW (R243): letter `T` names area `Q`. -/
def execAscWssTw (op : AscWriteOp) (s : State) : Host.Outcome State Fault Refusal :=
  .next (finishSer (ascWordWrite chW .q s.cfg.cap s.store op) s)

/-- ASC_WSS_MW (R244). -/
def execAscWssMw (op : AscWriteOp) (s : State) : Host.Outcome State Fault Refusal :=
  .next (finishSer (ascWordWrite chW .m s.cfg.cap s.store op) s)

/-- ASC_WSS_DW (R245). -/
def execAscWssDw (op : AscWriteOp) (s : State) : Host.Outcome State Fault Refusal :=
  .next (finishSer (ascWordWrite chW .d s.cfg.cap s.store op) s)

/-- ASC_WSS_DD (R246): the double-word class is recognised and not implemented: the transaction ends with
`Unimplemented` whatever the area character and the payload, nothing written, nothing emitted. -/
def execAscWssDd (_area : Byte) (_op : AscWriteOp) (s : State) : Host.Outcome State Fault Refusal :=
  .next (raiseError .ser .unimplemented s)

/-- ASC_WSS_DL (R247): the long-word class is recognised and not implemented: the transaction ends with
`Unimplemented` whatever the area character and the payload, nothing written, nothing emitted. -/
def execAscWssDl (_area : Byte) (_op : AscWriteOp) (s : State) : Host.Outcome State Fault Refusal :=
  .next (raiseError .ser .unimplemented s)

end Sys2Proof.Machine
end

