-- ==== Sys2Proof/Machine/Binary.lean ====
section
/-! DEFINITION. The binary commands (41_binary_codec.md R173, R174). -/

namespace Sys2Proof.Machine

/-- The transaction of BIN_READ (R173). -/
def binReadBody (cap : Nat) (st : Store) (h : Bytes) (fields : Option BinFields) : Except ErrorKind (Store × Bytes) := do
  let f ← binParsed fields
  let (a, start) ← resolveGeneric f.name true
  let d ← memRead cap st a start f.count.toNat
  return (st, binReadResponse h f.count.toNat d)

/-- The transaction of BIN_WRITE (R174). -/
def binWriteBody (cap : Nat) (st : Store) (h : Bytes) (fields : Option BinFields) : Except ErrorKind (Store × Bytes) := do
  let f ← binParsed fields
  let d ← binPayload f
  let (a, start) ← resolveGeneric f.name false
  let st' ← memWrite cap st a start d
  return (st', binWriteResponse h)

/-- BIN_READ (R173). -/
def execBinRead (k : Nat) (h : Bytes) (fields : Option BinFields) (s : State) : Host.Outcome State Fault Refusal :=
  .next (finishBin k (binReadBody s.cfg.cap s.store h fields) s)

/-- BIN_WRITE (R174). -/
def execBinWrite (k : Nat) (h : Bytes) (fields : Option BinFields) (s : State) : Host.Outcome State Fault Refusal :=
  .next (finishBin k (binWriteBody s.cfg.cap s.store h fields) s)

end Sys2Proof.Machine
end

