-- ==== Sys2Proof/Machine/HostPort.lean ====
section
/-! DEFINITION. The host operations (43_host_port.md R271 to R277). -/

namespace Sys2Proof.Machine

/-- The transaction of HOST_READ (R271): `n` bytes. -/
def hostReadBody (cap : Nat) (st : Store) (t : Bytes) (n : Nat) : Except ErrorKind (Store × HostValue) := do
  let (a, start) ← resolveGeneric t true
  let d ← memRead cap st a start n
  return (st, .bytes d)

/-- The transaction of HOST_WRITE (R272). -/
def hostWriteBody (cap : Nat) (st : Store) (t d : Bytes) : Except ErrorKind (Store × HostValue) := do
  let (a, start) ← resolveGeneric t false
  let st' ← memWrite cap st a start d
  return (st', .done)

/-- The transaction of HOST_READBIT (R273): the index is a bit index (R142). -/
def hostReadbitBody (cap : Nat) (st : Store) (t : Bytes) : Except ErrorKind (Store × HostValue) := do
  let (a, i) ← resolveGeneric t true
  let v ← bitRead cap st a i
  return (st, .bit v)

/-- The transaction of HOST_WRITEBIT (R274): the index is a bit index (R142). -/
def hostWritebitBody (cap : Nat) (st : Store) (t : Bytes) (v : Bool) : Except ErrorKind (Store × HostValue) := do
  let (a, i) ← resolveGeneric t false
  let st' ← bitWrite cap st a i v
  return (st', .done)

/-- The transaction of HOST_IMPORT (R277): all four areas in one operation, or none. -/
def hostImportBody (cap : Nat) (img : Bytes) : Except ErrorKind (Store × HostValue) := do
  let st' ← importImage cap img
  return (st', .done)

/-- HOST_READ (R271). -/
def execHostRead (t : Bytes) (n : Nat) (s : State) : Host.Outcome State Fault Refusal :=
  .next (finishHost (hostReadBody s.cfg.cap s.store t n) s)

/-- HOST_WRITE (R272). -/
def execHostWrite (t d : Bytes) (s : State) : Host.Outcome State Fault Refusal :=
  .next (finishHost (hostWriteBody s.cfg.cap s.store t d) s)

/-- HOST_READBIT (R273). -/
def execHostReadbit (t : Bytes) (s : State) : Host.Outcome State Fault Refusal :=
  .next (finishHost (hostReadbitBody s.cfg.cap s.store t) s)

/-- HOST_WRITEBIT (R274). -/
def execHostWritebit (t : Bytes) (v : Bool) (s : State) : Host.Outcome State Fault Refusal :=
  .next (finishHost (hostWritebitBody s.cfg.cap s.store t v) s)

/-- HOST_EXPORT (R276): the image of the whole store, in one operation; it raises nothing (R305). -/
def execHostExport (s : State) : Host.Outcome State Fault Refusal :=
  .next (emitHost s.store (.bytes (s.store.image s.cfg.cap)) s)

/-- HOST_IMPORT (R277). -/
def execHostImport (img : Bytes) (s : State) : Host.Outcome State Fault Refusal :=
  .next (finishHost (hostImportBody s.cfg.cap img) s)

end Sys2Proof.Machine
end

