-- ==== Sys2Proof/Machine/Dispatch.lean ====
section
/-! DEFINITION. The meaning of every command, one arm per constructor (30_encoding.md R99). -/

namespace Sys2Proof.Machine

def exec (i : Instr) (s : State) : Host.Outcome State Fault Refusal :=
  match i with
  | .binRead k h f => Sys2Proof.Machine.execBinRead k h f s
  | .binWrite k h f => Sys2Proof.Machine.execBinWrite k h f s
  | .ascRdMb op => Sys2Proof.Machine.execAscRdMb op s
  | .ascRdPb op => Sys2Proof.Machine.execAscRdPb op s
  | .ascRdDb op => Sys2Proof.Machine.execAscRdDb op s
  | .ascRdTb op => Sys2Proof.Machine.execAscRdTb op s
  | .ascWrMx op => Sys2Proof.Machine.execAscWrMx op s
  | .ascWrDx op => Sys2Proof.Machine.execAscWrDx op s
  | .ascWrCw op => Sys2Proof.Machine.execAscWrCw op s
  | .ascWrTw op => Sys2Proof.Machine.execAscWrTw op s
  | .ascWrMw op => Sys2Proof.Machine.execAscWrMw op s
  | .ascWrDw op => Sys2Proof.Machine.execAscWrDw op s
  | .ascWrDd area op => Sys2Proof.Machine.execAscWrDd area op s
  | .ascWrDl area op => Sys2Proof.Machine.execAscWrDl area op s
  | .ascWssMx op => Sys2Proof.Machine.execAscWssMx op s
  | .ascWssDx op => Sys2Proof.Machine.execAscWssDx op s
  | .ascWssCw op => Sys2Proof.Machine.execAscWssCw op s
  | .ascWssTw op => Sys2Proof.Machine.execAscWssTw op s
  | .ascWssMw op => Sys2Proof.Machine.execAscWssMw op s
  | .ascWssDw op => Sys2Proof.Machine.execAscWssDw op s
  | .ascWssDd area op => Sys2Proof.Machine.execAscWssDd area op s
  | .ascWssDl area op => Sys2Proof.Machine.execAscWssDl area op s
  | .hostRead t n => Sys2Proof.Machine.execHostRead t n s
  | .hostWrite t d => Sys2Proof.Machine.execHostWrite t d s
  | .hostReadbit t => Sys2Proof.Machine.execHostReadbit t s
  | .hostWritebit t v => Sys2Proof.Machine.execHostWritebit t v s
  | .hostExport => Sys2Proof.Machine.execHostExport s
  | .hostImport img => Sys2Proof.Machine.execHostImport img s

end Sys2Proof.Machine
end

