-- ==== Sys2Proof/Machine/Ports.lean ====
section
/-! DEFINITION. What each port takes from its input in one step (10_state.md R24; 41_binary_codec.md R170; 42_ascii_codec.md
R200; 43_host_port.md R270), and which agents can take a step. -/

namespace Sys2Proof.Machine

open Config

/-- What one byte does to the framer: its next state, its next buffer, and the frame `W` it delivers, if any. -/
structure FramerOut where
  fs : FramerState
  buf : Bytes
  frame : Option Bytes
deriving DecidableEq, Repr

/-- The framer's transitions (R200), row by row. -/
def framer (maxFrame : Nat) (fs : FramerState) (buf : Bytes) (c : Byte) : FramerOut :=
  match fs with
  | .hunt => if c = ENQ then ⟨.body, [c], none⟩ else ⟨.hunt, buf, none⟩
  | .body =>
    if c = ENQ then ⟨.body, [c], none⟩
    else if c = ETX then ⟨.ck1, buf ++ [c], none⟩
    else if (buf ++ [c]).length > maxFrame - 3 then ⟨.hunt, [], none⟩
    else ⟨.body, buf ++ [c], none⟩
  | .ck1 => ⟨.ck2, buf ++ [c], none⟩
  | .ck2 => ⟨.hunt, [], some (buf ++ [c])⟩

/-- A binary port that may take a step (R170): `OPEN`, with a frame waiting. A `CLOSED` port takes none (R25). -/
def BinPort.ready (p : BinPort) : Bool := p.state == .opened && !p.inQ.isEmpty

/-- The agents that may take a step (R20, R24): ready binary ports, the serial port when a byte waits, the host port
when a request waits. -/
def enabled (s : State) : List Agent :=
  ((List.range s.bin.length).filter fun k => (s.bin[k]?.map BinPort.ready).getD false).map Agent.bin
    ++ (if s.ser.rx.isEmpty then [] else [Agent.ser])
    ++ (if s.host.inQ.isEmpty then [] else [Agent.host])

/-- The agent that steps next. With one agent able to step it is that one; with several, any of them: the choice is
the free value `Config.arbiter` at the counter (R58, R65, 93 I6; log 2). -/
def choose (n : Nat) : List Agent → Option Agent
  | [] => none
  | [a] => some a
  | a :: b :: rest => (a :: b :: rest)[Config.arbiter n % (rest.length + 2)]?

/-- An agent takes the head of its input (R24): the state with it removed, and the request it completes. A byte on the
serial line completes a request only as the second checksum character of a frame (R200, R341). -/
def fetch (a : Agent) (s : State) : State × Option Request :=
  match a with
  | .bin k =>
    match s.bin[k]? with
    | some p =>
      match p.state, p.inQ with
      | .opened, F :: rest => (s.onBin k fun p => { p with inQ := rest }, some (.bin k F))
      | _, _ => (s, none)
    | none => (s, none)
  | .ser =>
    match s.ser.rx with
    | [] => (s, none)
    | c :: rest =>
      let o := framer s.cfg.maxAsciiFrame s.ser.fs s.ser.buf c
      ({ s with ser := { s.ser with rx := rest, fs := o.fs, buf := o.buf } }, o.frame.map Request.asc)
  | .host =>
    match s.host.inQ with
    | [] => (s, none)
    | op :: rest => ({ s with host := { s.host with inQ := rest } }, some (.host op))

end Sys2Proof.Machine
end

