-- ==== Sys2Proof/Machine/Step.lean ====
section
/-! DEFINITION. One step of the block: one agent takes the head of its input and, where that completes a request, runs its
transaction (00_scope.md R7; 10_state.md R20, R24). -/

namespace Sys2Proof.Machine

/-- The transaction of one request: the command it selects, or the error entry (R99, R101, R306). -/
def transact (r : Request) (s : State) : Host.Outcome State Fault Refusal :=
  match decode r with
  | .ok i => exec i s
  | .error e => .next (raiseError r.agent e s)

/-- One step of one agent (R170, R200, R270). -/
def serve (a : Agent) (s : State) : Host.Outcome State Fault Refusal :=
  match fetch a s with
  | (s', some r) => transact r s'
  | (s', none) => .next s'

/-- One step of the block. A block whose reset failed takes none (R331). Where no agent has input, nothing happens and
all state survives (60_exceptions.md R315; log 5). -/
def step (s : State) : Host.Outcome State Fault Refusal :=
  match s.boot with
  | .error _ => .fault .heldInReset
  | .ok =>
    match choose s.tick (enabled s) with
    | none => .next s
    | some a => serve a { s with tick := s.tick + 1 }

/-- A binary port, `OPEN`, holding one frame and nothing else (log 8). -/
def BinPort.holding (F : Bytes) (p : BinPort) : BinPort := { p with state := .opened, close := false, inQ := [F] }

/-- `s` with the frame of a table word as the only input of the block, at port `BIN[0]`, which is open: the next step
runs exactly it (log 8). Input of the other ports is set aside, since an agent that has input may be the one that steps;
where the block has no binary port it gets one; a block held in reset has left it. -/
def State.withFetchWord (s : State) (nbits w : Nat) : State :=
  { s with
    cfg := { s.cfg with numBinPorts := max 1 s.cfg.numBinPorts }
    boot := .ok
    bin := (s.bin.headD BinPort.reset).holding (tableFrame nbits w) :: s.bin.tail.map fun p => { p with inQ := [] }
    ser := { s.ser with rx := [] }
    host := { s.host with inQ := [] } }

end Sys2Proof.Machine
end

