-- ==== Sys2Proof/Machine/Session.lean ====
section
/-! DEFINITION. What the outside of the block does to its state between steps (10_state.md R21, R25; 00_scope.md R3; 93 I15;
log 4): the session adapter opens and closes binary ports and delivers frames, the serial driver delivers and takes
bytes, the host requests operations and takes results. No step of the block calls these. -/

namespace Sys2Proof.Machine

/-- The session adapter accepts a connection for port `k` and sets it `OPEN` (R25). DESIGN CHOICE (log 4): `binIn[k]` is
emptied whatever it holds, be it frames an earlier connection left (R178: never processed) or frames delivered before
the port's first opening or while it was `CLOSED`; and `close[k]` is low for the new connection. -/
def State.openPort (k : Nat) (s : State) : State :=
  s.onBin k fun p => { p with state := .opened, inQ := [], close := false }

/-- The session adapter closes the connection of port `k` and sets it `CLOSED` (R25). -/
def State.closePort (k : Nat) (s : State) : State := s.onBin k fun p => { p with state := .closed }

/-- The transport delivers a complete frame to port `k` (R21). -/
def State.deliverFrame (k : Nat) (F : Bytes) (s : State) : State :=
  s.onBin k fun p => { p with inQ := p.inQ ++ [F] }

/-- The serial driver delivers bytes (R21). They wait in `serRx`, and none is lost (70_reset_and_hazards.md R341). -/
def State.receive (bs : Bytes) (s : State) : State := { s with ser := { s.ser with rx := s.ser.rx ++ bs } }

/-- The host requests an operation (R21, R270). -/
def State.request (op : HostOp) (s : State) : State :=
  { s with host := { s.host with inQ := s.host.inQ ++ [op] } }

/-- The session adapter takes what port `k` has put out (R21). -/
def State.drainPort (k : Nat) (s : State) : State := s.onBin k fun p => { p with outQ := [], status := [] }

/-- The serial driver takes the bytes of `serTx` (R21). -/
def State.drainSerial (s : State) : State := { s with ser := { s.ser with tx := [], status := [] } }

/-- The host takes its results (R21). -/
def State.drainHost (s : State) : State := { s with host := { s.host with outQ := [] } }

end Sys2Proof.Machine
end

