-- ==== Sys2Proof/Safety.lean ====
section
/-! DEFINITION. The terms the statements use: what a byte and a bit of the store is, what a transaction of each port leaves
alone, the check orders of 60_exceptions.md R303 to R305 written out on their own, and the invariant of the block. -/

namespace Sys2Proof.Machine

open Config

/-- Byte `i` of area `a`. -/
def State.byte (s : State) (a : Area) (i : Nat) : Byte := (s.store.get a).read i

/-- Bit `i` of area `a` (20_memory.md R52). -/
def State.bitAt (s : State) (a : Area) (i : Nat) : Bool := (s.byte a (i / 8)).getLsbD (i % 8)

/-- The place of an area in the snapshot image (20_memory.md R63): its first byte is at `place * CAP`. -/
def place : Area → Nat
  | .p => 0
  | .q => 1
  | .m => 2
  | .d => 3

/-- The canonical letter of an area (10_state.md R23). -/
def letter : Area → Byte
  | .p => chP
  | .q => chQ
  | .m => chM
  | .d => chD

/-- Every byte of every area reads as before. -/
def SameBytes (s t : State) : Prop := ∀ a i, t.byte a i = s.byte a i

/-- Every byte outside the `n` bytes from index `start` of area `a` reads as before. -/
def SameBytesOutside (a : Area) (start n : Nat) (s t : State) : Prop :=
  ∀ b i, ¬(b = a ∧ start ≤ i ∧ i < start + n) → t.byte b i = s.byte b i

/-- Every bit other than bit `i` of area `a` is as before. -/
def SameBitsExcept (a : Area) (i : Nat) (s t : State) : Prop :=
  ∀ b j, ¬(b = a ∧ j = i) → t.bitAt b j = s.bitAt b j

/-- What no transaction changes: the configuration, how reset ended, the model's counter. -/
def SameFixed (s t : State) : Prop := t.cfg = s.cfg ∧ t.boot = s.boot ∧ t.tick = s.tick

/-- What a transaction of `BIN[k]` leaves alone beside the store: everything outside port `k`. -/
def BinFrame (k : Nat) (s t : State) : Prop :=
  SameFixed s t ∧ t.ser = s.ser ∧ t.host = s.host ∧ ∀ j, j ≠ k → t.bin[j]? = s.bin[j]?

/-- What a transaction of the serial port leaves alone beside the store: the other ports, the framer and `serRx`. -/
def SerFrame (s t : State) : Prop :=
  SameFixed s t ∧ t.bin = s.bin ∧ t.host = s.host ∧ t.ser.fs = s.ser.fs ∧ t.ser.buf = s.ser.buf ∧ t.ser.rx = s.ser.rx

/-- What a host operation leaves alone beside the store: the other ports and `hostIn`. -/
def HostFrame (s t : State) : Prop :=
  SameFixed s t ∧ t.bin = s.bin ∧ t.ser = s.ser ∧ t.host.inQ = s.host.inQ

/-- The serial port answered `r` with status `OK`. -/
def SerAnswered (r : Bytes) (s t : State) : Prop :=
  t.ser.tx = s.ser.tx ++ r ∧ t.ser.status = s.ser.status ++ [.ok]

/-- The whole read response of R96 for station `st1 st2` and payload `d`. -/
def IsReadResponse (st1 st2 : Byte) (d r : Bytes) : Prop :=
  ∃ p : Bytes, p = [0x06, st1, st2, 0x72, 0x53, 0x42, 0x30, 0x31] ++ hexEnc (BitVec.ofNat 8 d.length) ++ hexEncAll d ++ [0x03]
    ∧ r = p ++ hexEnc (sum8 p) ∧ r.length = 13 + 2 * d.length

/-- The whole write response of R97 for station `st1 st2` and command class byte `cls`. -/
def IsWriteResponse (st1 st2 cls : Byte) (r : Bytes) : Prop :=
  ∃ p : Bytes, p = [0x06, st1, st2, cls, 0x53, 0x42, 0x03] ∧ r = p ++ hexEnc (sum8 p) ∧ r.length = 9

/-- Port `k` answered `r` with status `OK` and is otherwise as it was. -/
def BinAnswered (k : Nat) (p : BinPort) (r : Bytes) (t : State) : Prop :=
  t.bin[k]? = some { p with outQ := p.outQ ++ [r], status := p.status ++ [.ok] }

/-- The host port answered `v` with status `OK`. -/
def HostAnswered (v : HostValue) (s t : State) : Prop := t.host.outQ = s.host.outQ ++ [.ok v]

/-- A transaction of port `k` ended with error `e` (41_binary_codec.md R176, R178): nothing written or emitted, the
status presented, the port closed for the two kinds that close. -/
def BinFailed (k : Nat) (p : BinPort) (e : ErrorKind) (s t : State) : Prop :=
  t.store = s.store ∧ BinFrame k s t ∧
    t.bin[k]? = some
      { p with
        status := p.status ++ [.error e]
        close := p.close || (e == .unsupportedCommand || e == .malformedFrame)
        state := if e = .unsupportedCommand ∨ e = .malformedFrame then .closed else p.state }

/-- A transaction of the serial port ended with error `e` (42_ascii_codec.md R209). -/
def SerFailed (e : ErrorKind) (s t : State) : Prop :=
  t.store = s.store ∧ SerFrame s t ∧ t.ser.tx = s.ser.tx ∧ t.ser.status = s.ser.status ++ [.error e]

/-- A host operation ended with error `e` (43_host_port.md R270). -/
def HostFailed (e : ErrorKind) (s t : State) : Prop :=
  t.store = s.store ∧ HostFrame s t ∧ t.host.outQ = s.host.outQ ++ [.error e]

/-! ## Check orders -/

/-- The error of a generic address text, in the order of R148 and item 5 of R303: length, area character, digits. -/
def addressError (s : Bytes) : Option ErrorKind :=
  if s.length < 3 then some .invalidAddress
  else if byteAt s 1 ∉ [chP, chQ, chM, chD] then some .unsupportedArea
  else if decStr (if byteAt s 2 ∈ [chB, chW, chD, chL] then s.drop 3 else s.drop 2) = none then some .invalidAddress
  else none

/-- The index a generic address text names (R140); only used where `addressError` gives none. -/
def addressIndex (s : Bytes) : Nat :=
  (decStr (if byteAt s 2 ∈ [chB, chW, chD, chL] then s.drop 3 else s.drop 2)).getD 0

/-- The first failing check of a binary request (R303), written from the frame's offsets (30_encoding.md R89, R90). -/
def binFirstError (cap : Nat) (F : Bytes) : Option ErrorKind :=
  let n := (byteAt F 28).toNat
  let count := (byteAt F (30 + n)).toNat + 256 * (byteAt F (31 + n)).toNat
  let name := slice F 31 (n - 1)
  if F.length < 21 then some .malformedFrame
  else if byteAt F 20 ≠ 0x54 ∧ byteAt F 20 ≠ 0x58 then some .unsupportedCommand
  else if F.length < 29 ∨ n = 0 ∨ F.length < 32 + n then some .malformedFrame
  else if byteAt F 20 = 0x58 ∧ F.length < 32 + n + 2 * count then some .malformedFrame
  else if addressError name ≠ none then addressError name
  else if addressIndex name + (if byteAt F 20 = 0x58 then 2 * count else count) > cap then some .outOfRange
  else none

/-- The index suffix of an ASCII bit class (40_address_resolver.md R143). -/
def letterIndex (t : Bytes) : Option Nat :=
  if t.length = 1 ∧ 0x41 ≤ (byteAt t 0).toNat ∧ (byteAt t 0).toNat ≤ 0x46 then some ((byteAt t 0).toNat - 0x41 + 10)
  else decStr t

/-- The shift `b` of an ASCII write (30_encoding.md R95): 1 for the token `WSS`. -/
def wssShift (F : Bytes) : Nat := if slice F 3 3 = [chW, chS, chS] then 1 else 0

/-- Checks 5 to 8 of R304 for a read: the class pair, the index suffix, the bounds. -/
def ascReadError (cap : Nat) (s : Bytes) (size : Nat) : Option ErrorKind :=
  if byteAt s 2 ≠ chB ∨ byteAt s 1 ∉ [chM, chP, chD, chT] then some .unsupportedArea
  else if byteAt s 1 ∈ [chM, chP] then
    match letterIndex (s.drop 3) with
    | none => some .invalidAddress
    | some i => if i + 8 * size > 8 * cap then some .outOfRange else none
  else
    match decStr (s.drop 3) with
    | none => some .invalidAddress
    | some i => if i + size > cap then some .outOfRange else none

/-- Checks 5 to 8 of R304 for a write: the class, the area character, the index suffix, the payload `tail`, the
bounds. -/
def ascWriteError (cap : Nat) (s : Bytes) (size : Nat) (tail : Bytes) : Option ErrorKind :=
  if byteAt s 2 = chD ∨ byteAt s 2 = chL then some .unimplemented
  else if byteAt s 2 = chX ∧ byteAt s 1 ∈ [chM, chD] then
    match letterIndex (s.drop 3) with
    | none => some .invalidAddress
    | some i =>
      if tail.length < 2 then some .malformedFrame
      else if i ≥ 8 * cap then some .outOfRange else none
  else if byteAt s 2 = chW ∧ byteAt s 1 ∈ [chC, chT, chM, chD] then
    match decStr (s.drop 3) with
    | none => some .invalidAddress
    | some i =>
      if tail.length < 4 * size ∨ ∃ c ∈ tail.take (4 * size), hexVal c = none then some .malformedFrame
      else if i + 2 * size > cap then some .outOfRange else none
  else some .unsupportedArea

/-- The first failing check of an ASCII request (R304), written from the offsets of 30_encoding.md R94 and R95. -/
def ascFirstError (cap : Nat) (W : Bytes) : Option ErrorKind :=
  let F := W.take (W.length - 2)
  let b := wssShift F
  let len := 10 * ((byteAt F (6 + b)).toNat - 0x30) + ((byteAt F (7 + b)).toNat - 0x30)
  let s := slice F (8 + b) len
  let size := 16 * (hexVal (byteAt F (8 + b + len))).getD 0 + (hexVal (byteAt F (9 + b + len))).getD 0
  if W.length < 5 ∨ byteAt F 0 ≠ ENQ ∨ F.length < 6 ∨ digit (byteAt F 1) = none ∨ digit (byteAt F 2) = none then
    some .malformedFrame
  else if slice F 3 2 ≠ [chr, chS] ∧ slice F 3 3 ≠ [chW, chS, chS] ∧ slice F 3 2 ≠ [chw, chS] then
    some .unsupportedCommand
  else if F.length < 8 + b ∨ digit (byteAt F (6 + b)) = none ∨ digit (byteAt F (7 + b)) = none
      ∨ F.length < 10 + b + len
      ∨ hexVal (byteAt F (8 + b + len)) = none ∨ hexVal (byteAt F (9 + b + len)) = none then
    some .malformedFrame
  else if s.length < 3 then some .invalidAddress
  else if slice F 3 2 = [chr, chS] then ascReadError cap s size
  else ascWriteError cap s size (F.drop (10 + b + len))

/-- The first failing check of a host operation (R305). -/
def hostFirstError (cap : Nat) : HostOp → Option ErrorKind
  | .read t n => (addressError t).or (if addressIndex t + n > cap then some .outOfRange else none)
  | .write t d => (addressError t).or (if addressIndex t + d.length > cap then some .outOfRange else none)
  | .readbit t => (addressError t).or (if addressIndex t ≥ 8 * cap then some .outOfRange else none)
  | .writebit t _ => (addressError t).or (if addressIndex t ≥ 8 * cap then some .outOfRange else none)
  | .exportSnapshot => none
  | .importSnapshot img => if img.length ≠ 4 * cap then some .malformedSnapshot else none

/-! ## The invariant -/

/-- Every area in the canonical form of its list, with no index at or above `cap` (10_state.md R22). -/
def Store.Ok (cap : Nat) (st : Store) : Prop := ∀ a, (st.get a).wf = true ∧ (st.get a).below cap = true

/-- A port that requests its connection's close takes no further step (41_binary_codec.md R178). -/
def BinPort.Ok (p : BinPort) : Prop := p.close = true → p.state = .closed

/-- The framer's buffer in each of its states (42_ascii_codec.md R200, R201; 10_state.md R26): one `ENQ`, a body
without `ENQ` and `ETX`, then `ETX` and the checksum characters taken so far, within the limit. -/
def SerPort.Ok (maxFrame : Nat) (p : SerPort) : Prop :=
  match p.fs with
  | .hunt => p.buf = []
  | .body => ∃ body : Bytes, ENQ ∉ body ∧ ETX ∉ body ∧ p.buf = ENQ :: body ∧ p.buf.length ≤ maxFrame - 3
  | .ck1 => ∃ body : Bytes, ENQ ∉ body ∧ ETX ∉ body ∧ p.buf = ENQ :: (body ++ [ETX]) ∧ p.buf.length ≤ maxFrame - 2
  | .ck2 => ∃ (body : Bytes) (c : Byte), ENQ ∉ body ∧ ETX ∉ body ∧ p.buf = ENQ :: (body ++ [ETX, c])
      ∧ p.buf.length ≤ maxFrame - 1

/-- What every state of a run from reset satisfies. -/
structure State.Inv (s : State) : Prop where
  /-- The configuration holds legal values (00_scope.md R5). -/
  legal : s.cfg.Legal
  /-- How reset ended is what the image's size makes it (70_reset_and_hazards.md R331). -/
  booted : s.boot = Params.bootStatus s.cfg
  /-- There are `NUM_BIN_PORTS` binary ports (10_state.md R20). -/
  ports : s.bin.length = s.cfg.numBinPorts
  /-- The areas hold indices `0 .. CAP-1`, in canonical form (R22). -/
  store : s.store.Ok s.cfg.cap
  /-- A port that raised `close[k]` is `CLOSED` (R178). -/
  closed : ∀ p ∈ s.bin, p.Ok
  /-- The framer (R200). -/
  framer : s.ser.Ok s.cfg.maxAsciiFrame

/-! ## Noninterference and the framer's run -/

/-- `s` with every status it has presented dropped; on the host port a status is part of its result (10_state.md R28),
so the results go with it. -/
def State.dropStatus (s : State) : State :=
  { s with
    bin := s.bin.map fun p => { p with status := [] }
    ser := { s.ser with status := [] }
    host := { s.host with outQ := [] } }

/-- The framer run over a byte string: its state and buffer after it, and the frames it delivered, oldest first. -/
def framerRun (maxFrame : Nat) : FramerState → Bytes → Bytes → FramerState × Bytes × List Bytes
  | fs, buf, [] => (fs, buf, [])
  | fs, buf, c :: cs =>
    let o := framer maxFrame fs buf c
    let r := framerRun maxFrame o.fs o.buf cs
    (r.1, r.2.1, o.frame.toList ++ r.2.2)

end Sys2Proof.Machine
end

