-- ==== Sys2Proof/Certificates/Slice0/Obligations.lean ====
section
/-! DEFINITION. The statements for the provers, each a `def Obligations.<Name> : Prop`. Each docstring names the rule of
spec/ it formalises; a premise `Store.Ok` or `State.Inv` is an invariant of the model (`StepKeepsTheInvariant`,
`ResetHasTheInvariant`). -/

open Sys2Proof Sys2Proof.Machine Sys2Proof.Config

/-! ## Encoding -/

/-- Decoding an encoded command gives it back, for every command and every operand value the encodings admit (R89,
R94, R95, R99). The filler bytes of the encoder are the model's choice (log 10). -/
def Obligations.DecodeOfEncodeIsIdentity : Prop :=
  ∀ i : Instr, i.wf = true → decode (encode i) = .ok i

/-- Every command the decoder answers holds operands in the ranges of the frame layouts (R89, R94, R95, R98). -/
def Obligations.DecodedCommandsAreWellFormed : Prop :=
  ∀ (r : Request) (i : Instr), decode r = .ok i → i.wf = true

/-- Frames of 95_test_vectors.md, byte for byte, decode to the commands they stand for (L1-2, A-R3, A-W1, A-W25, B-U1). -/
def Obligations.SpecFramesDecodeToTheirCommands : Prop :=
  decode (.bin 0 [0x80, 0x81, 0x82, 0x83, 0x84, 0x85, 0x86, 0x87, 0x88, 0x89, 0x8A, 0x8B, 0x8C, 0x8D, 0x8E, 0x8F, 0x90, 0x91,
      0x92, 0x93, 0x54, 0x00, 0x00, 0x00, 0x00, 0x00, 0x00, 0x00, 0x05, 0x00, 0x00, 0x25, 0x4D, 0x57, 0x30, 0x04, 0x00])
    = .ok (.binRead 0 [0x80, 0x81, 0x82, 0x83, 0x84, 0x85, 0x86, 0x87, 0x88, 0x89, 0x8A, 0x8B, 0x8C, 0x8D, 0x8E, 0x8F, 0x90,
        0x91, 0x92, 0x93] (some { name := [0x25, 0x4D, 0x57, 0x30], count := 4, data := [] }))
  ∧ decode (.asc [0x06, 0x30, 0x35, 0x72, 0x53, 0x42, 0x30, 0x34, 0x25, 0x50, 0x42, 0x41, 0x30, 0x32, 0x03, 0x33, 0x33])
    = .ok (.ascRdPb { st1 := 0x30, st2 := 0x35, pre := 0x25, suffix := [0x41], size := 2 })
  ∧ decode (.asc [0x06, 0x30, 0x31, 0x77, 0x53, 0x42, 0x30, 0x34, 0x25, 0x4D, 0x58, 0x46, 0x30, 0x31, 0x30, 0x31, 0x03, 0x41,
      0x43])
    = .ok (.ascWrMx { st1 := 0x30, st2 := 0x31, pre := 0x25, suffix := [0x46], size := 1, tail := [0x30, 0x31, 0x03] })
  ∧ decode (.asc [0x06, 0x30, 0x31, 0x57, 0x53, 0x53, 0x30, 0x30, 0x35, 0x25, 0x4D, 0x57, 0x31, 0x30, 0x30, 0x31, 0x43, 0x41,
      0x46, 0x45, 0x03, 0x39, 0x36])
    = .ok (.ascWssMw (AscWriteOp.mk 0x30 0x31 0x25 [0x31, 0x30] 1 [0x43, 0x41, 0x46, 0x45, 0x03]))
  ∧ decode (.bin 0 [0x80, 0x81, 0x82, 0x83, 0x84, 0x85, 0x86, 0x87, 0x88, 0x89, 0x8A, 0x8B, 0x8C, 0x8D, 0x8E, 0x8F, 0x90, 0x91,
      0x92, 0x93, 0x55, 0x00, 0x00, 0x00, 0x00, 0x00, 0x00, 0x00, 0x05, 0x00, 0x00, 0x25, 0x4D, 0x57, 0x30, 0x01, 0x00])
    = .error .unsupportedCommand

/-- Binary bytes no rule interprets (21 to 27, 29, 30) may hold any value and never change which command a frame holds
or any of its operands (R89, R101). -/
def Obligations.UninterpretedBinaryBytesNeverMatter : Prop :=
  ∀ (k : Nat) (F G : Bytes), F.length = G.length →
    (∀ i, ¬(21 ≤ i ∧ i ≤ 27) → i ≠ 29 → i ≠ 30 → byteAt F i = byteAt G i) →
    decode (.bin k F) = decode (.bin k G)

/-- Bytes after the last field a binary command uses never change the outcome of its transaction (R177). -/
def Obligations.TrailingBinaryBytesNeverMatter : Prop :=
  ∀ (k : Nat) (F x : Bytes) (s : State) (n count : Nat), n = (byteAt F 28).toNat →
    count = (byteAt F (30 + n)).toNat + 256 * (byteAt F (31 + n)).toNat →
    (byteAt F 20 = 0x54 ∧ 32 + n ≤ F.length ∨ byteAt F 20 = 0x58 ∧ 32 + n + 2 * count ≤ F.length) →
    transact (.bin k (F ++ x)) s = transact (.bin k F) s

/-- The two checksum characters of an ASCII frame are not compared with anything and may hold any value (R208). -/
def Obligations.IncomingChecksumNeverMatters : Prop :=
  ∀ (F : Bytes) (c1 c2 d1 d2 : Byte) (s : State),
    transact (.asc (F ++ [c1, c2])) s = transact (.asc (F ++ [d1, d2])) s

/-- The third character of an `rS?` or `wS?` token and the extra byte of a `WSS` token never change the command (R101,
R203, R205). -/
def Obligations.UninterpretedTokenBytesNeverMatter : Prop :=
  ∀ (W : Bytes) (x : Byte),
    ((slice W 3 2 = [chr, chS] ∨ slice W 3 2 = [chw, chS]) → decode (.asc (W.set 5 x)) = decode (.asc W))
    ∧ (slice W 3 3 = [chW, chS, chS] → decode (.asc (W.set 6 x)) = decode (.asc W))

/-! ## Codecs and the resolver -/

/-- `HexDec(HexEnc(b)) = b` for every byte string (R85). -/
def Obligations.HexDecodingInvertsEncoding : Prop :=
  ∀ b : Bytes, hexDec (hexEncAll b) = .ok b

/-- Changing any single byte of a string to a different value changes its modulo-256 sum (R88). -/
def Obligations.ChecksumDetectsAnyOneByteChange : Prop :=
  ∀ (p : Bytes) (i : Nat) (b : Byte), i < p.length → b ≠ byteAt p i → sum8 (p.set i b) ≠ sum8 p

/-- `DecStr` (R83): a non-empty string of digits has the value `sum over k of dec(s[k]) * 10^(len(s)-1-k)`; any other
string has none, and the caller raises `InvalidAddress`. -/
def Obligations.DecimalStringHasItsPositionalValue : Prop :=
  ∀ s : Bytes,
    (s ≠ [] → (∀ c ∈ s, 0x30 ≤ c.toNat ∧ c.toNat ≤ 0x39) →
      decStr s = some ((List.range s.length).map fun k =>
        ((byteAt s k).toNat - 0x30) * 10 ^ (s.length - 1 - k)).sum)
    ∧ ((s = [] ∨ ∃ c ∈ s, ¬(0x30 ≤ c.toNat ∧ c.toNat ≤ 0x39)) →
      decStr s = none ∧ decIndex s = .error .invalidAddress)

/-- `ResolveLetterOrDigit` (R143): exactly one letter `A` to `F` gives 10 to 15; any other token is a decimal string. -/
def Obligations.LetterOrDigitTokenResolves : Prop :=
  (∀ c : Byte, 0x41 ≤ c.toNat → c.toNat ≤ 0x46 → resolveLetterOrDigit [c] = .ok (c.toNat - 0x41 + 10))
  ∧ ∀ t : Bytes, (∀ c : Byte, t = [c] → ¬(0x41 ≤ c.toNat ∧ c.toNat ≤ 0x46)) →
    (∀ v, decStr t = some v → resolveLetterOrDigit t = .ok v)
    ∧ (decStr t = none → resolveLetterOrDigit t = .error .invalidAddress)

/-- `ResolveGeneric` (R140, R141): length, then area character, then digits after one optional data-type letter that
never scales the index; `s[0]` is not checked and `isRead` changes nothing. -/
def Obligations.GenericAddressResolves : Prop :=
  ∀ (s : Bytes) (isRead : Bool),
    (s.length < 3 → resolveGeneric s isRead = .error .invalidAddress)
    ∧ (3 ≤ s.length → (∀ a, byteAt s 1 ≠ letter a) → resolveGeneric s isRead = .error .unsupportedArea)
    ∧ ∀ a, 3 ≤ s.length → byteAt s 1 = letter a →
        ∀ rest, rest = (if byteAt s 2 ∈ [chB, chW, chD, chL] then s.drop 3 else s.drop 2) →
          (decStr rest = none → resolveGeneric s isRead = .error .invalidAddress)
          ∧ ∀ v, decStr rest = some v → resolveGeneric s isRead = .ok (a, v)

/-- The source's resolver properties (R149). -/
def Obligations.SourceResolverProperties : Prop :=
  resolveGeneric [0x78, 0x4D, 0x31, 0x30, 0x30] true = .ok (.m, 100)
  ∧ (resolveLetterOrDigit [0x41] = .ok 10 ∧ resolveLetterOrDigit [0x42] = .ok 11 ∧ resolveLetterOrDigit [0x43] = .ok 12
    ∧ resolveLetterOrDigit [0x44] = .ok 13 ∧ resolveLetterOrDigit [0x45] = .ok 14 ∧ resolveLetterOrDigit [0x46] = .ok 15)
  ∧ resolveLetterOrDigit [0x37] = .ok 7
  ∧ resolveLetterOrDigit [0x47] = .error .invalidAddress ∧ resolveLetterOrDigit [] = .error .invalidAddress

/-! ## Memory primitives -/

/-- `MemRead` (R53): bounds first; then `n` bytes from `start` on, in increasing index order. -/
def Obligations.MemReadReturnsTheRange : Prop :=
  ∀ (cap : Nat) (st : Store) (a : Area) (start n : Nat),
    (start + n > cap → memRead cap st a start n = .error .outOfRange)
    ∧ (start + n ≤ cap → ∃ d : Bytes, memRead cap st a start n = .ok d ∧ d.length = n
        ∧ ∀ j < n, byteAt d j = (st.get a).read (start + j))

/-- `MemWrite` (R54): bounds first, and then nothing is written; else byte `start + j` of the area becomes `v[j]` and
every other byte of every area is unchanged. -/
def Obligations.MemWriteStoresExactlyItsBytes : Prop :=
  ∀ (cap : Nat) (st : Store) (a : Area) (start : Nat) (v : Bytes), st.Ok cap →
    (start + v.length > cap → memWrite cap st a start v = .error .outOfRange)
    ∧ (start + v.length ≤ cap → ∃ st', memWrite cap st a start v = .ok st'
        ∧ (∀ j < v.length, (st'.get a).read (start + j) = byteAt v j)
        ∧ ∀ b i, ¬(b = a ∧ start ≤ i ∧ i < start + v.length) → (st'.get b).read i = (st.get b).read i)

/-- `BitRead` (R55) and the bit numbering of R52: bit `i` is bit `i mod 8` of byte `i div 8`, position `j` having the
value `2^j`. -/
def Obligations.BitReadReturnsTheBit : Prop :=
  ∀ (cap : Nat) (st : Store) (a : Area) (i : Nat),
    (i ≥ 8 * cap → bitRead cap st a i = .error .outOfRange)
    ∧ (i < 8 * cap → bitRead cap st a i = .ok (((st.get a).read (i / 8)).toNat / 2 ^ (i % 8) % 2 == 1))

/-- `BitWrite` (R56): bounds first, and then nothing is written; else bit `i` becomes `v`, and every other bit of the
byte, and every other byte of every area, is unchanged. -/
def Obligations.BitWriteChangesOneBit : Prop :=
  ∀ (cap : Nat) (st : Store) (a : Area) (i : Nat) (v : Bool), st.Ok cap →
    (i ≥ 8 * cap → bitWrite cap st a i v = .error .outOfRange)
    ∧ (i < 8 * cap → ∃ st', bitWrite cap st a i v = .ok st' ∧ (st'.get a).bit i = v
        ∧ (∀ j, j ≠ i → (st'.get a).bit j = (st.get a).bit j)
        ∧ ∀ b k, ¬(b = a ∧ k = i / 8) → (st'.get b).read k = (st.get b).read k)

/-- `BitRangeRead` (R57): bounds first; then bit `j` of byte `k` of the result is bit `start + 8k + j`; at a start that
is a multiple of 8 the result is `MemRead`'s, and otherwise byte `k` is put together from two neighbouring bytes. -/
def Obligations.BitRangeReadPacksItsBits : Prop :=
  ∀ (cap : Nat) (st : Store) (a : Area) (start n : Nat),
    (start + 8 * n > 8 * cap → bitRangeRead cap st a start n = .error .outOfRange)
    ∧ (start + 8 * n ≤ 8 * cap → ∃ d : Bytes, bitRangeRead cap st a start n = .ok d ∧ d.length = n
        ∧ (∀ k < n, ∀ j < 8, (byteAt d k).getLsbD j = (st.get a).bit (start + 8 * k + j))
        ∧ (start % 8 = 0 → memRead cap st a (start / 8) n = .ok d)
        ∧ (start % 8 ≠ 0 → ∀ k < n, byteAt d k =
            ((st.get a).read (start / 8 + k) >>> (start % 8)) ||| ((st.get a).read (start / 8 + k + 1) <<< (8 - start % 8))))

/-- The laws of R70: a byte write is read back, a bit write is read back, and leaves every other bit unchanged. -/
def Obligations.WhatIsWrittenIsReadBack : Prop :=
  ∀ (cap : Nat) (st : Store) (a : Area), st.Ok cap →
    (∀ (start : Nat) (b : Bytes), start + b.length ≤ cap → ∃ st', memWrite cap st a start b = .ok st'
      ∧ memRead cap st' a start b.length = .ok b)
    ∧ ∀ (i : Nat) (v : Bool), i < 8 * cap → ∃ st', bitWrite cap st a i v = .ok st' ∧ bitRead cap st' a i = .ok v
      ∧ ∀ j, j ≠ i → bitRead cap st' a j = bitRead cap st a j

/-! ## Binary commands -/

/-- BIN_READ completes with the response of R91 and changes no byte, where the frame holds its fields, the address
resolves and the range is inside the area. -/
def Obligations.BinReadAnswersTheRange : Prop :=
  ∀ (k : Nat) (h : Bytes) (f : BinFields) (s : State) (p : BinPort) (a : Area) (start : Nat),
    s.bin[k]? = some p → h.length = 20 → resolveGeneric f.name true = .ok (a, start) →
    start + f.count.toNat ≤ s.cfg.cap →
    ∃ (t : State) (r : Bytes), exec (.binRead k h (some f)) s = .next t ∧ BinAnswered k p r t ∧ BinFrame k s t ∧ t.store = s.store
      ∧ r.length = 32 + f.count.toNat
      ∧ (∀ i < 20, i ∉ [9, 10, 12, 13, 16, 18] → byteAt r i = byteAt h i)
      ∧ byteAt r 9 = 0x11 ∧ byteAt r 10 = 0x01 ∧ byteAt r 12 = 0xA0 ∧ byteAt r 13 = 0x11 ∧ byteAt r 18 = 0x03
      ∧ (byteAt r 16).toNat = (12 + f.count.toNat) % 256
      ∧ slice r 20 10 = [0x55, 0x00, 0x14, 0x00, 0x08, 0x01, 0x00, 0x00, 0x01, 0x00]
      ∧ (byteAt r 30).toNat = f.count.toNat % 256 ∧ (byteAt r 31).toNat = f.count.toNat / 256
      ∧ ∀ j < f.count.toNat, byteAt r (32 + j) = s.byte a (start + j)

/-- BIN_WRITE completes with the response of R92, stores its `2 * count` payload bytes in order and changes no other
byte. -/
def Obligations.BinWriteStoresItsPayload : Prop :=
  ∀ (k : Nat) (h : Bytes) (f : BinFields) (s : State) (p : BinPort) (a : Area) (start : Nat),
    s.store.Ok s.cfg.cap → s.bin[k]? = some p → h.length = 20 → resolveGeneric f.name false = .ok (a, start) →
    2 * f.count.toNat ≤ f.data.length → start + 2 * f.count.toNat ≤ s.cfg.cap →
    ∃ (t : State) (r : Bytes), exec (.binWrite k h (some f)) s = .next t ∧ BinAnswered k p r t ∧ BinFrame k s t
      ∧ (∀ j < 2 * f.count.toNat, t.byte a (start + j) = byteAt f.data j)
      ∧ SameBytesOutside a start (2 * f.count.toNat) s t
      ∧ r.length = 30
      ∧ (∀ i < 20, i ∉ [9, 10, 12, 13, 16, 18] → byteAt r i = byteAt h i)
      ∧ byteAt r 9 = 0x11 ∧ byteAt r 10 = 0x01 ∧ byteAt r 12 = 0xA0 ∧ byteAt r 13 = 0x11 ∧ byteAt r 18 = 0x03
      ∧ byteAt r 16 = 0x0A
      ∧ slice r 20 10 = [0x59, 0x00, 0x14, 0x00, 0x08, 0x01, 0x00, 0x00, 0x01, 0x00]

/-- Check order of a binary request (R303): its transaction ends with the first failing check of the list, or with
status `OK`. -/
def Obligations.BinaryRequestReportsItsFirstError : Prop :=
  ∀ (k : Nat) (F : Bytes) (s : State) (p : BinPort), s.bin[k]? = some p →
    (∀ e, binFirstError s.cfg.cap F = some e → ∃ t, transact (.bin k F) s = .next t ∧ BinFailed k p e s t)
    ∧ (binFirstError s.cfg.cap F = none → ∃ t r, transact (.bin k F) s = .next t ∧ BinAnswered k p r t ∧ BinFrame k s t)

/-! ## ASCII commands -/

/-- ASC_RD_MB and ASC_RD_PB complete with the response of R96 over `8 * size` packed bits and change no byte. -/
def Obligations.AsciiBitReadsAnswerThePackedBits : Prop :=
  ∀ (i : AscReadOp → Instr) (a : Area), (i = Instr.ascRdMb ∧ a = .m ∨ i = Instr.ascRdPb ∧ a = .p) →
    ∀ (op : AscReadOp) (s : State) (start : Nat), resolveLetterOrDigit op.suffix = .ok start →
      start + 8 * op.size.toNat ≤ 8 * s.cfg.cap →
      ∃ (t : State) (d r : Bytes), exec (i op) s = .next t ∧ SerAnswered r s t ∧ SerFrame s t ∧ t.store = s.store
        ∧ IsReadResponse op.st1 op.st2 d r ∧ d.length = op.size.toNat
        ∧ ∀ k < op.size.toNat, ∀ j < 8, (byteAt d k).getLsbD j = s.bitAt a (start + 8 * k + j)

/-- ASC_RD_DB and ASC_RD_TB complete with the response of R96 over `size` bytes and change no byte; the letter `T`
names area `Q`. -/
def Obligations.AsciiByteReadsAnswerTheBytes : Prop :=
  ∀ (i : AscReadOp → Instr) (a : Area), (i = Instr.ascRdDb ∧ a = .d ∨ i = Instr.ascRdTb ∧ a = .q) →
    ∀ (op : AscReadOp) (s : State) (start : Nat), decStr op.suffix = some start →
      start + op.size.toNat ≤ s.cfg.cap →
      ∃ (t : State) (d r : Bytes), exec (i op) s = .next t ∧ SerAnswered r s t ∧ SerFrame s t ∧ t.store = s.store
        ∧ IsReadResponse op.st1 op.st2 d r ∧ d.length = op.size.toNat
        ∧ ∀ j < op.size.toNat, byteAt d j = s.byte a (start + j)

/-- ASC_WR_MX and ASC_WR_DX complete with the response of R97; the addressed bit becomes 1 for the value text `"01"` and
0 for any other, and every other bit is unchanged. -/
def Obligations.AsciiBitWritesSetOneBit : Prop :=
  ∀ (i : AscWriteOp → Instr) (a : Area), (i = Instr.ascWrMx ∧ a = .m ∨ i = Instr.ascWrDx ∧ a = .d) →
    ∀ (op : AscWriteOp) (s : State) (n : Nat), s.store.Ok s.cfg.cap → resolveLetterOrDigit op.suffix = .ok n →
      2 ≤ op.tail.length → n < 8 * s.cfg.cap →
      ∃ (t : State) (r : Bytes), exec (i op) s = .next t ∧ SerAnswered r s t ∧ SerFrame s t
        ∧ IsWriteResponse op.st1 op.st2 0x77 r
        ∧ t.bitAt a n = decide (byteAt op.tail 0 = 0x30 ∧ byteAt op.tail 1 = 0x31)
        ∧ SameBitsExcept a n s t

/-- ASC_WSS_MX and ASC_WSS_DX: as the `wS` forms, the response carrying `'W'`. -/
def Obligations.ShiftedBitWritesSetOneBit : Prop :=
  ∀ (i : AscWriteOp → Instr) (a : Area), (i = Instr.ascWssMx ∧ a = .m ∨ i = Instr.ascWssDx ∧ a = .d) →
    ∀ (op : AscWriteOp) (s : State) (n : Nat), s.store.Ok s.cfg.cap → resolveLetterOrDigit op.suffix = .ok n →
      2 ≤ op.tail.length → n < 8 * s.cfg.cap →
      ∃ (t : State) (r : Bytes), exec (i op) s = .next t ∧ SerAnswered r s t ∧ SerFrame s t
        ∧ IsWriteResponse op.st1 op.st2 0x57 r
        ∧ t.bitAt a n = decide (byteAt op.tail 0 = 0x30 ∧ byteAt op.tail 1 = 0x31)
        ∧ SameBitsExcept a n s t

/-- ASC_WR_CW, ASC_WR_TW, ASC_WR_MW and ASC_WR_DW complete with the response of R97; the `4 * size` hex characters are
stored as `2 * size` bytes in the order received, with no swap, and no other byte changes. `C` names area `P`, `T` names
area `Q`. -/
def Obligations.AsciiWordWritesStoreTheHexBytes : Prop :=
  ∀ (i : AscWriteOp → Instr) (a : Area),
    (i = Instr.ascWrCw ∧ a = .p ∨ i = Instr.ascWrTw ∧ a = .q ∨ i = Instr.ascWrMw ∧ a = .m ∨ i = Instr.ascWrDw ∧ a = .d) →
    ∀ (op : AscWriteOp) (s : State) (start : Nat), s.store.Ok s.cfg.cap → decStr op.suffix = some start →
      4 * op.size.toNat ≤ op.tail.length → (∀ c ∈ op.tail.take (4 * op.size.toNat), hexVal c ≠ none) →
      start + 2 * op.size.toNat ≤ s.cfg.cap →
      ∃ (t : State) (r : Bytes), exec (i op) s = .next t ∧ SerAnswered r s t ∧ SerFrame s t
        ∧ IsWriteResponse op.st1 op.st2 0x77 r
        ∧ (∀ j < 2 * op.size.toNat, ∃ x y, hexVal (byteAt op.tail (2 * j)) = some x
            ∧ hexVal (byteAt op.tail (2 * j + 1)) = some y ∧ (t.byte a (start + j)).toNat = 16 * x + y)
        ∧ SameBytesOutside a start (2 * op.size.toNat) s t

/-- ASC_WSS_CW, ASC_WSS_TW, ASC_WSS_MW and ASC_WSS_DW: as the `wS` forms, the response carrying `'W'`. -/
def Obligations.ShiftedWordWritesStoreTheHexBytes : Prop :=
  ∀ (i : AscWriteOp → Instr) (a : Area),
    (i = Instr.ascWssCw ∧ a = .p ∨ i = Instr.ascWssTw ∧ a = .q ∨ i = Instr.ascWssMw ∧ a = .m
      ∨ i = Instr.ascWssDw ∧ a = .d) →
    ∀ (op : AscWriteOp) (s : State) (start : Nat), s.store.Ok s.cfg.cap → decStr op.suffix = some start →
      4 * op.size.toNat ≤ op.tail.length → (∀ c ∈ op.tail.take (4 * op.size.toNat), hexVal c ≠ none) →
      start + 2 * op.size.toNat ≤ s.cfg.cap →
      ∃ (t : State) (r : Bytes), exec (i op) s = .next t ∧ SerAnswered r s t ∧ SerFrame s t
        ∧ IsWriteResponse op.st1 op.st2 0x57 r
        ∧ (∀ j < 2 * op.size.toNat, ∃ x y, hexVal (byteAt op.tail (2 * j)) = some x
            ∧ hexVal (byteAt op.tail (2 * j + 1)) = some y ∧ (t.byte a (start + j)).toNat = 16 * x + y)
        ∧ SameBytesOutside a start (2 * op.size.toNat) s t

/-- ASC_WR_DD, ASC_WR_DL, ASC_WSS_DD and ASC_WSS_DL always end with `Unimplemented`, whatever the area character and the
payload: nothing written, nothing emitted (R236, R237, R246, R247). -/
def Obligations.DoubleAndLongWordWritesAreUnimplemented : Prop :=
  ∀ i : Byte → AscWriteOp → Instr,
    (i = Instr.ascWrDd ∨ i = Instr.ascWrDl ∨ i = Instr.ascWssDd ∨ i = Instr.ascWssDl) →
    ∀ (area : Byte) (op : AscWriteOp) (s : State), ∃ t, exec (i area op) s = .next t ∧ SerFailed .unimplemented s t

/-- Check order of an ASCII request (R304): its transaction ends with the first failing check of the list, or with
status `OK`. -/
def Obligations.AsciiRequestReportsItsFirstError : Prop :=
  ∀ (W : Bytes) (s : State),
    (∀ e, ascFirstError s.cfg.cap W = some e → ∃ t, transact (.asc W) s = .next t ∧ SerFailed e s t)
    ∧ (ascFirstError s.cfg.cap W = none → ∃ t r, transact (.asc W) s = .next t ∧ SerAnswered r s t ∧ SerFrame s t)

/-- The source's `MX` property: after a write through the `MX` class, reading the same bit through the host port gives
1 for the value text `"01"` and 0 for any other (95_test_vectors.md L1-4). -/
def Obligations.BitWrittenByMxIsReadByTheHost : Prop :=
  ∀ (op : AscWriteOp) (text : Bytes) (s : State) (n : Nat), s.store.Ok s.cfg.cap →
    resolveLetterOrDigit op.suffix = .ok n → 2 ≤ op.tail.length → n < 8 * s.cfg.cap →
    resolveGeneric text true = .ok (.m, n) →
    ∃ t u, exec (.ascWrMx op) s = .next t ∧ exec (.hostReadbit text) t = .next u
      ∧ HostAnswered (.bit (decide (op.tail.take 2 = [0x30, 0x31]))) t u

/-! ## Framer -/

/-- The transitions of the framer, one clause per row of R200's table. -/
def Obligations.FramerFollowsItsTable : Prop :=
  ∀ (maxFrame : Nat) (buf : Bytes) (c : Byte),
    (framer maxFrame .hunt buf 0x06 = ⟨.body, [0x06], none⟩)
    ∧ (c ≠ 0x06 → framer maxFrame .hunt buf c = ⟨.hunt, buf, none⟩)
    ∧ (framer maxFrame .body buf 0x06 = ⟨.body, [0x06], none⟩)
    ∧ (framer maxFrame .body buf 0x03 = ⟨.ck1, buf ++ [0x03], none⟩)
    ∧ (c ≠ 0x06 → c ≠ 0x03 → buf.length + 1 > maxFrame - 3 → framer maxFrame .body buf c = ⟨.hunt, [], none⟩)
    ∧ (c ≠ 0x06 → c ≠ 0x03 → buf.length + 1 ≤ maxFrame - 3 → framer maxFrame .body buf c = ⟨.body, buf ++ [c], none⟩)
    ∧ (framer maxFrame .ck1 buf c = ⟨.ck2, buf ++ [c], none⟩)
    ∧ (framer maxFrame .ck2 buf c = ⟨.hunt, [], some (buf ++ [c])⟩)

/-- A frame that arrives whole while the framer hunts or holds a partial frame is delivered whole, and the framer hunts
again: no stray byte, abandoned frame or checksum value changes that (R200, R201). -/
def Obligations.FramerDeliversAWholeFrame : Prop :=
  ∀ (maxFrame : Nat) (fs : FramerState) (buf body : Bytes) (c1 c2 : Byte), (fs = .hunt ∨ fs = .body) →
    (0x06 : Byte) ∉ body → (0x03 : Byte) ∉ body → body.length + 4 ≤ maxFrame →
    framerRun maxFrame fs buf (0x06 :: (body ++ [0x03, c1, c2]))
      = (.hunt, [], [0x06 :: (body ++ [0x03, c1, c2])])

/-- In a state that keeps the invariant, a frame the framer delivers has 4 to `MAX_ASCII_FRAME` bytes, starts with `ENQ`
and has `ETX` before its two checksum characters (R201). -/
def Obligations.DeliveredFramesAreDelimitedAndBounded : Prop :=
  ∀ (s t : State) (W : Bytes), s.Inv → fetch .ser s = (t, some (.asc W)) →
    4 ≤ W.length ∧ W.length ≤ s.cfg.maxAsciiFrame ∧ byteAt W 0 = 0x06 ∧ byteAt W (W.length - 3) = 0x03
      ∧ t.ser.fs = .hunt ∧ t.ser.buf = []

/-! ## Host operations -/

/-- HOST_READ completes with the `n` bytes of the range (R271). -/
def Obligations.HostReadReturnsTheRange : Prop :=
  ∀ (text : Bytes) (n : Nat) (s : State) (a : Area) (start : Nat), resolveGeneric text true = .ok (a, start) →
    start + n ≤ s.cfg.cap →
    ∃ (t : State) (d : Bytes), exec (.hostRead text n) s = .next t ∧ HostAnswered (.bytes d) s t ∧ HostFrame s t
      ∧ t.store = s.store ∧ d.length = n ∧ ∀ j < n, byteAt d j = s.byte a (start + j)

/-- HOST_WRITE completes with `ok`, stores its bytes and changes no other byte (R272). -/
def Obligations.HostWriteStoresItsBytes : Prop :=
  ∀ (text d : Bytes) (s : State) (a : Area) (start : Nat), s.store.Ok s.cfg.cap →
    resolveGeneric text false = .ok (a, start) → start + d.length ≤ s.cfg.cap →
    ∃ t, exec (.hostWrite text d) s = .next t ∧ HostAnswered .done s t ∧ HostFrame s t
      ∧ (∀ j < d.length, t.byte a (start + j) = byteAt d j) ∧ SameBytesOutside a start d.length s t

/-- HOST_READBIT completes with the bit (R273). -/
def Obligations.HostReadbitReturnsTheBit : Prop :=
  ∀ (text : Bytes) (s : State) (a : Area) (n : Nat), resolveGeneric text true = .ok (a, n) → n < 8 * s.cfg.cap →
    ∃ t, exec (.hostReadbit text) s = .next t ∧ HostAnswered (.bit (s.bitAt a n)) s t ∧ HostFrame s t ∧ t.store = s.store

/-- HOST_WRITEBIT completes with `ok`, writes the bit and changes no other bit (R274). -/
def Obligations.HostWritebitSetsOneBit : Prop :=
  ∀ (text : Bytes) (v : Bool) (s : State) (a : Area) (n : Nat), s.store.Ok s.cfg.cap →
    resolveGeneric text false = .ok (a, n) → n < 8 * s.cfg.cap →
    ∃ t, exec (.hostWritebit text v) s = .next t ∧ HostAnswered .done s t ∧ HostFrame s t
      ∧ t.bitAt a n = v ∧ SameBitsExcept a n s t

/-- HOST_EXPORT always completes with the image of `4 * CAP` bytes, areas in the order P, Q, M, D, and changes no byte
(R276, R63). -/
def Obligations.HostExportReturnsTheImage : Prop :=
  ∀ s : State, ∃ (t : State) (img : Bytes), exec .hostExport s = .next t ∧ HostAnswered (.bytes img) s t ∧ HostFrame s t
    ∧ t.store = s.store ∧ img.length = 4 * s.cfg.cap
    ∧ ∀ a, ∀ i < s.cfg.cap, byteAt img (place a * s.cfg.cap + i) = s.byte a i

/-- HOST_IMPORT of an image of any other length than `4 * CAP` ends with `MalformedSnapshot` and changes no area; of an
image of that length it replaces all four areas (R277). -/
def Obligations.HostImportReplacesAllAreasOrNone : Prop :=
  ∀ (img : Bytes) (s : State),
    (img.length ≠ 4 * s.cfg.cap → ∃ t, exec (.hostImport img) s = .next t ∧ HostFailed .malformedSnapshot s t)
    ∧ (img.length = 4 * s.cfg.cap → ∃ t, exec (.hostImport img) s = .next t ∧ HostAnswered .done s t ∧ HostFrame s t
        ∧ ∀ a, ∀ i < s.cfg.cap, t.byte a i = byteAt img (place a * s.cfg.cap + i))

/-- Importing the image an export returned leaves the store as it was (R276, R277; 95_test_vectors.md L1-5). -/
def Obligations.ExportThenImportRestoresTheStore : Prop :=
  ∀ s : State, s.store.Ok s.cfg.cap →
    ∃ t img u, exec .hostExport s = .next t ∧ HostAnswered (.bytes img) s t ∧ exec (.hostImport img) t = .next u
      ∧ HostAnswered .done t u ∧ u.store = s.store

/-- Check order of a host operation (R305): resolver checks, then bounds; the length alone for an import; nothing for
an export. -/
def Obligations.HostOperationReportsItsFirstError : Prop :=
  ∀ (op : HostOp) (s : State),
    (∀ e, hostFirstError s.cfg.cap op = some e → ∃ t, transact (.host op) s = .next t ∧ HostFailed e s t)
    ∧ (hostFirstError s.cfg.cap op = none → ∃ t v, transact (.host op) s = .next t ∧ HostAnswered v s t ∧ HostFrame s t)

/-! ## Errors -/

/-- Error entry (R306, R176, R178, R209, R270): on each port nothing is written or emitted, the status is presented,
and only a binary port closes, for `UnsupportedCommand` and `MalformedFrame` alone. -/
def Obligations.ErrorEntryWritesAndEmitsNothing : Prop :=
  ∀ (e : ErrorKind) (s : State),
    (∀ k p, s.bin[k]? = some p → BinFailed k p e s (raiseError (.bin k) e s))
    ∧ SerFailed e s (raiseError .ser e s) ∧ HostFailed e s (raiseError .host e s)

/-- A transaction that ends in an error has written no byte, whatever the request and its port (R64). -/
def Obligations.FailedTransactionsLeaveTheStore : Prop :=
  ∀ (r : Request) (s t : State), transact r s = .next t →
    (∀ k p p' e, r.agent = .bin k → s.bin[k]? = some p → t.bin[k]? = some p' →
      p'.status = p.status ++ [.error e] → t.store = s.store)
    ∧ (∀ e, r.agent = .ser → t.ser.status = s.ser.status ++ [.error e] → t.store = s.store)
    ∧ ∀ e, r.agent = .host → t.host.outQ = s.host.outQ ++ [.error e] → t.store = s.store

/-- Every transaction of a port of the block answers a next state and presents exactly one status there (R28, R300). -/
def Obligations.EveryTransactionPresentsOneStatus : Prop :=
  ∀ (r : Request) (s : State), ∃ t, transact r s = .next t
    ∧ (∀ k p, r.agent = .bin k → s.bin[k]? = some p →
        ∃ p' st, t.bin[k]? = some p' ∧ p'.status = p.status ++ [st])
    ∧ (r.agent = .ser → ∃ st, t.ser.status = s.ser.status ++ [st])
    ∧ (r.agent = .host → ∃ res, t.host.outQ = s.host.outQ ++ [res])

/-! ## Steps -/

/-- Which agents can step (R20, R24, R25, R170, R270), and that a block out of reset serves one of them, or does nothing
when there is none. Which of several it serves is the model's free value (log 2), and the idle step is the model's
(log 5). -/
def Obligations.StepServesOneReadyAgent : Prop :=
  ∀ s : State,
    (∀ k, Agent.bin k ∈ enabled s ↔ ∃ p, s.bin[k]? = some p ∧ p.state = .opened ∧ p.inQ ≠ [])
    ∧ (Agent.ser ∈ enabled s ↔ s.ser.rx ≠ []) ∧ (Agent.host ∈ enabled s ↔ s.host.inQ ≠ [])
    ∧ (s.boot = .ok → enabled s = [] → step s = .next s)
    ∧ (s.boot = .ok → enabled s ≠ [] → ∃ a ∈ enabled s, step s = serve a { s with tick := s.tick + 1 })

/-- An agent's step takes the head of its input and runs the decoded command on the state without it: a frame of an
open binary port, a frame whose second checksum character arrives, a host operation (R24, R170, R200, R270). -/
def Obligations.StepRunsTheDecodedCommand : Prop :=
  ∀ s : State,
    (∀ k p F rest i, s.bin[k]? = some p → p.state = .opened → p.inQ = F :: rest → decode (.bin k F) = .ok i →
      serve (.bin k) s = exec i { s with bin := s.bin.set k { p with inQ := rest } })
    ∧ (∀ c rest i, s.ser.fs = .ck2 → s.ser.rx = c :: rest → decode (.asc (s.ser.buf ++ [c])) = .ok i →
      serve .ser s = exec i { s with ser := { s.ser with rx := rest, fs := .hunt, buf := [] } })
    ∧ ∀ op rest i, s.host.inQ = op :: rest → decode (.host op) = .ok i →
      serve .host s = exec i { s with host := { s.host with inQ := rest } }

/-- A serial byte that is not a frame's second checksum character moves the framer by its table and does nothing else:
no transaction, no status, no response (R200, R201). -/
def Obligations.SerialBytesThatEndNoFrameOnlyMoveTheFramer : Prop :=
  ∀ (s : State) (c : Byte) (rest : Bytes), s.ser.rx = c :: rest → s.ser.fs ≠ .ck2 →
    ∃ t, serve .ser s = .next t ∧ SameFixed s t ∧ t.store = s.store ∧ t.bin = s.bin ∧ t.host = s.host
      ∧ t.ser.tx = s.ser.tx ∧ t.ser.status = s.ser.status ∧ t.ser.rx = rest
      ∧ framer s.cfg.maxAsciiFrame s.ser.fs s.ser.buf c = ⟨t.ser.fs, t.ser.buf, none⟩

/-- A request that selects no command ends its transaction in the error entry, after it was taken from its queue (R101,
R175, R306): a binary frame with another command byte, a malformed one, an ASCII frame of no command. -/
def Obligations.RejectedRequestsTakeTheErrorEntry : Prop :=
  ∀ s : State,
    (∀ k p F rest e, s.bin[k]? = some p → p.state = .opened → p.inQ = F :: rest → decode (.bin k F) = .error e →
      serve (.bin k) s = .next (raiseError (.bin k) e { s with bin := s.bin.set k { p with inQ := rest } }))
    ∧ ∀ c rest e, s.ser.fs = .ck2 → s.ser.rx = c :: rest → decode (.asc (s.ser.buf ++ [c])) = .error e →
      serve .ser s = .next (raiseError .ser e { s with ser := { s.ser with rx := rest, fs := .hunt, buf := [] } })

/-- Every step keeps the invariant, from every state that has it. -/
def Obligations.StepKeepsTheInvariant : Prop :=
  ∀ s t : State, s.Inv → step s = .next t → t.Inv

/-- Reset leaves the invariant, for every legal configuration and in the hardware's own (whose two binary ports are the
model's choice, log 1). -/
def Obligations.ResetHasTheInvariant : Prop :=
  (∀ p : Params, p.Legal → (∀ img, p.initImage = some img → img.length = 4 * p.cap) → (State.resetOf p).Inv)
  ∧ State.reset.Inv

/-- What the outside does between steps keeps the invariant (10_state.md R21, R25; log 4). -/
def Obligations.TheOutsideKeepsTheInvariant : Prop :=
  ∀ s : State, s.Inv →
    (∀ k, (s.openPort k).Inv ∧ (s.closePort k).Inv ∧ (s.drainPort k).Inv ∧ ∀ F, (s.deliverFrame k F).Inv)
    ∧ (∀ bs, (s.receive bs).Inv) ∧ (∀ op, (s.request op).Inv) ∧ s.drainSerial.Inv ∧ s.drainHost.Inv

/-- What reset leaves (R330), for every configuration: zero areas or the image laid out P, Q, M, D; every port closed,
every queue empty, `close` low, the framer hunting. For an image of a wrong size (R331) the clauses on the ports and the
framer are the model's choice (log 18), and nothing is said of the areas. -/
def Obligations.ResetLeavesTheStatedValues : Prop :=
  ∀ p : Params,
    (p.initImage = none → ∀ a i, (State.resetOf p).byte a i = 0)
    ∧ (∀ img, p.initImage = some img → img.length = 4 * p.cap →
        ∀ a, ∀ i < p.cap, (State.resetOf p).byte a i = byteAt img (place a * p.cap + i))
    ∧ (State.resetOf p).bin.length = p.numBinPorts
    ∧ (∀ q ∈ (State.resetOf p).bin, q.state = .closed ∧ q.inQ = [] ∧ q.outQ = [] ∧ q.close = false)
    ∧ (State.resetOf p).ser.fs = .hunt ∧ (State.resetOf p).ser.buf = [] ∧ (State.resetOf p).ser.rx = []
    ∧ (State.resetOf p).ser.tx = [] ∧ (State.resetOf p).host.inQ = [] ∧ (State.resetOf p).host.outQ = []

/-- A boot image of the wrong size: reset fails with `MalformedSnapshot` and no port takes any step, whatever arrives
(R331). -/
def Obligations.WrongSizeImageHoldsTheBlockInReset : Prop :=
  ∀ (p : Params) (img : Bytes), p.initImage = some img → img.length ≠ 4 * p.cap →
    (State.resetOf p).boot = .error .malformedSnapshot
    ∧ ∀ s : State, s.boot = (State.resetOf p).boot → step s = .fault .heldInReset

/-- A block out of reset always completes its step: no request makes it stop (R345 "every transaction ends"). -/
def Obligations.StepsOutOfResetAlwaysComplete : Prop :=
  ∀ s : State, s.boot = .ok → ∃ t, step s = .next t

/-- No step changes the configuration (R5, R29) or how reset ended. -/
def Obligations.ConfigurationIsReadOnly : Prop :=
  ∀ s t : State, step s = .next t → t.cfg = s.cfg ∧ t.boot = s.boot

/-- The block removes nothing from an output queue and adds nothing to an input queue (R21). -/
def Obligations.OutputsOnlyGrowAndInputsOnlyShrink : Prop :=
  ∀ s t : State, step s = .next t →
    (∀ (k : Nat) (p : BinPort), s.bin[k]? = some p → ∃ p' : BinPort, t.bin[k]? = some p' ∧ p.outQ <+: p'.outQ ∧ p.status <+: p'.status
      ∧ p'.inQ <:+ p.inQ)
    ∧ s.ser.tx <+: t.ser.tx ∧ s.ser.status <+: t.ser.status ∧ t.ser.rx <:+ s.ser.rx
    ∧ s.host.outQ <+: t.host.outQ ∧ t.host.inQ <:+ s.host.inQ

/-- A port in `CLOSED` takes no step: nothing of it ever changes by a step of the block (R25, R178). -/
def Obligations.ClosedPortsTakeNoStep : Prop :=
  ∀ (s t : State) (k : Nat) (p : BinPort), step s = .next t → s.bin[k]? = some p → p.state = .closed →
    t.bin[k]? = some p

/-- A step of one agent leaves every other agent's port as it was: they share only the areas (R313, R178). -/
def Obligations.ServingOnePortLeavesTheOthers : Prop :=
  ∀ s t : State,
    (∀ k, serve (.bin k) s = .next t → BinFrame k s t)
    ∧ (serve .ser s = .next t → SameFixed s t ∧ t.bin = s.bin ∧ t.host = s.host)
    ∧ (serve .host s = .next t → SameFixed s t ∧ t.bin = s.bin ∧ t.ser = s.ser)

/-- The status of a transaction is not visible to, and does not affect, any later transaction: the block steps alike
with its past statuses dropped (R28). Statuses held as lists are the model's form (log 3). -/
def Obligations.StatusesNeverAffectAStep : Prop :=
  ∀ s : State,
    (∀ t, step s = .next t → ∃ u, step s.dropStatus = .next u ∧ u.dropStatus = t.dropStatus)
    ∧ ∀ f, step s = .fault f → step s.dropStatus = .fault f
end

