-- ==== Sys2Proof/Laws/Codecs.lean ====
section
/-! SUPPORT. The codecs and the operand forms: what each gives, once. -/

namespace Sys2Proof

/-! ## Frame notation -/

@[simp] theorem byteAt_cons_zero (c : Byte) (F : Bytes) : byteAt (c :: F) 0 = c := rfl

@[simp] theorem byteAt_cons_succ (c : Byte) (F : Bytes) (i : Nat) : byteAt (c :: F) (i + 1) = byteAt F i := rfl

theorem byteAt_append_left {F G : Bytes} {i : Nat} (h : i < F.length) : byteAt (F ++ G) i = byteAt F i := by
  simp [byteAt, List.getD_eq_getElem?_getD, List.getElem?_append_left h]

theorem byteAt_append_right {F G : Bytes} {i : Nat} (h : F.length ≤ i) :
    byteAt (F ++ G) i = byteAt G (i - F.length) := by
  simp [byteAt, List.getD_eq_getElem?_getD, List.getElem?_append_right h]

theorem byteAt_take {F : Bytes} {n i : Nat} (h : i < n) : byteAt (F.take n) i = byteAt F i := by
  simp [byteAt, List.getD_eq_getElem?_getD, h]

theorem byteAt_drop {F : Bytes} {n i : Nat} : byteAt (F.drop n) i = byteAt F (n + i) := by
  simp [byteAt, List.getD_eq_getElem?_getD]

theorem byteAt_slice {F : Bytes} {i n j : Nat} (h : j < n) : byteAt (slice F i n) j = byteAt F (i + j) := by
  rw [slice, byteAt_take h, byteAt_drop]

theorem length_slice (F : Bytes) (i n : Nat) : (slice F i n).length = min n (F.length - i) := by
  simp [slice]

/-! ## Decimal digits -/

theorem isDigit_iff {c : Byte} : isDigit c = true ↔ 0x30 ≤ c.toNat ∧ c.toNat ≤ 0x39 := by
  simp [isDigit]

theorem digit_eq_some {c : Byte} {v : Nat} :
    digit c = some v ↔ 0x30 ≤ c.toNat ∧ c.toNat ≤ 0x39 ∧ v = c.toNat - 0x30 := by
  rw [← and_assoc, ← isDigit_iff, digit]
  split
  · simp only [Option.some.injEq, true_and, *]
    exact eq_comm
  · simp [*]

theorem digit_eq_none {c : Byte} : digit c = none ↔ ¬(0x30 ≤ c.toNat ∧ c.toNat ≤ 0x39) := by
  rw [← isDigit_iff, digit]
  split <;> simp [*]

theorem digit_ofNat {n : Nat} (h : n < 10) : digit (BitVec.ofNat 8 (0x30 + n)) = some n := by
  rw [digit_eq_some, BitVec.toNat_ofNat]
  omega

/-- `Dec2` succeeds exactly on two digits, with their value. -/
theorem dec2_ok {x y : Byte} {n : Nat} :
    dec2 x y = .ok n ↔ isDigit x = true ∧ isDigit y = true ∧ n = 10 * (x.toNat - 0x30) + (y.toNat - 0x30) := by
  unfold dec2 digit
  cases hx : isDigit x <;> cases hy : isDigit y <;> simp [eq_comm]

/-- Every failure of `Dec2` is `MalformedFrame`. -/
theorem dec2_error {x y : Byte} {e : ErrorKind} :
    dec2 x y = .error e ↔ (digit x = none ∨ digit y = none) ∧ e = .malformedFrame := by
  unfold dec2
  cases hx : digit x <;> cases hy : digit y <;> simp [eq_comm]

theorem dec2_lt {x y : Byte} {n : Nat} (h : dec2 x y = .ok n) : n ≤ 99 := by
  obtain ⟨hx, hy, rfl⟩ := dec2_ok.1 h
  have := isDigit_iff.1 hx
  have := isDigit_iff.1 hy
  omega

/-- `Dec2` of the two digits of a value below 100 is the value. -/
theorem dec2_digits {n : Nat} (h : n < 100) :
    dec2 (BitVec.ofNat 8 (0x30 + n / 10)) (BitVec.ofNat 8 (0x30 + n % 10)) = .ok n := by
  rw [dec2, digit_ofNat (by omega), digit_ofNat (by omega)]
  exact congrArg Except.ok (show 10 * (n / 10) + n % 10 = n by omega)

/-! ## Hex-ASCII -/

theorem hexVal_hexChar : ∀ n < 16, hexVal (hexChar n) = some n := by decide

theorem hexVal_lt {c : Byte} {v : Nat} (h : hexVal c = some v) : v < 16 := by
  unfold hexVal at h
  split at h
  · simp at h; omega
  · split at h
    · simp at h; omega
    · split at h
      · simp at h; omega
      · simp at h

theorem hexDec2_ok {x y v : Byte} :
    hexDec2 x y = .ok v ↔ ∃ a b, hexVal x = some a ∧ hexVal y = some b ∧ v = BitVec.ofNat 8 (16 * a + b) := by
  unfold hexDec2
  cases hx : hexVal x <;> cases hy : hexVal y <;> simp [eq_comm]

/-- Every failure of `HexDec2` is `MalformedFrame`. -/
theorem hexDec2_error {x y : Byte} {e : ErrorKind} :
    hexDec2 x y = .error e ↔ (hexVal x = none ∨ hexVal y = none) ∧ e = .malformedFrame := by
  unfold hexDec2
  cases hx : hexVal x <;> cases hy : hexVal y <;> simp [eq_comm]

/-- The two characters of a byte decode to it. -/
theorem hexDec2_hexChars (v : Byte) : hexDec2 (hexChar (v.toNat / 16)) (hexChar (v.toNat % 16)) = .ok v := by
  have hv := v.isLt
  rw [hexDec2, hexVal_hexChar _ (by omega), hexVal_hexChar _ (by omega)]
  refine congrArg Except.ok (BitVec.eq_of_toNat_eq ?_)
  rw [BitVec.toNat_ofNat]
  omega

@[simp] theorem length_hexEnc (v : Byte) : (hexEnc v).length = 2 := rfl

@[simp] theorem length_hexEncAll : ∀ d : Bytes, (hexEncAll d).length = 2 * d.length
  | [] => rfl
  | v :: vs => by
    rw [hexEncAll, List.length_append, length_hexEncAll vs, List.length_cons]
    simp
    omega

/-- Every failure of `HexDec` is `MalformedFrame`. -/
theorem hexDec_error : ∀ {s : Bytes} {e : ErrorKind}, hexDec s = .error e → e = .malformedFrame
  | [], _, h => nomatch h
  | [_], _, h => (Except.error.inj h).symm
  | x :: y :: rest, e, h => by
    unfold hexDec at h
    split at h
    · split at h
      · exact nomatch h
      · next h' => exact Except.error.inj h ▸ hexDec_error h'
    · next h' => exact Except.error.inj h ▸ (hexDec2_error.1 h').2

/-- `HexDec` of an even number of hex characters: half as many bytes, byte `j` from characters `2j` and `2j + 1`. -/
theorem hexDec_of_hex : ∀ {s : Bytes} {n : Nat}, s.length = 2 * n → (∀ c ∈ s, hexVal c ≠ none) →
    ∃ d, hexDec s = .ok d ∧ d.length = n ∧ ∀ j < n, ∃ x y, hexVal (byteAt s (2 * j)) = some x
      ∧ hexVal (byteAt s (2 * j + 1)) = some y ∧ (byteAt d j).toNat = 16 * x + y
  | [], n, hn, _ => by
    have : n = 0 := by simpa using hn.symm
    subst this
    exact ⟨[], rfl, rfl, fun j h => absurd h (Nat.not_lt_zero j)⟩
  | [_], n, hn, _ => by simp at hn; omega
  | x :: y :: rest, 0, hn, _ => by simp at hn
  | x :: y :: rest, n + 1, hn, hs => by
    obtain ⟨d, hd, hlen, hj⟩ := hexDec_of_hex (s := rest) (n := n) (by simp at hn; omega)
      fun c hc => hs c (by simp [hc])
    obtain ⟨a, ha⟩ := Option.ne_none_iff_exists'.1 (hs x (by simp))
    obtain ⟨b, hb⟩ := Option.ne_none_iff_exists'.1 (hs y (by simp))
    refine ⟨BitVec.ofNat 8 (16 * a + b) :: d, ?_, by simp [hlen], fun j h => ?_⟩
    · rw [hexDec, hexDec2_ok.2 ⟨a, b, ha, hb, rfl⟩, hd]
    · cases j with
      | zero =>
        refine ⟨a, b, ha, hb, ?_⟩
        rw [byteAt_cons_zero, BitVec.toNat_ofNat, Nat.mod_eq_of_lt]
        have := hexVal_lt ha
        have := hexVal_lt hb
        omega
      | succ j => exact hj j (by omega)

/-- `HexDec` of an even number of characters one of which is no hex digit fails. -/
theorem hexDec_not_hex : ∀ {s : Bytes}, (∃ c ∈ s, hexVal c = none) → hexDec s = .error .malformedFrame
  | [], h => by simp at h
  | [_], _ => rfl
  | x :: y :: rest, h => by
    cases hx : hexDec (x :: y :: rest) with
    | error e => rw [hexDec_error hx]
    | ok d =>
      unfold hexDec at hx
      split at hx
      · next v hv =>
        obtain ⟨a, b, ha, hb, _⟩ := hexDec2_ok.1 hv
        split at hx
        · next vs hvs =>
          have hr : ∃ c ∈ rest, hexVal c = none := by
            obtain ⟨c, hc, hn⟩ := h
            rcases List.mem_cons.1 hc with rfl | hc
            · simp [ha] at hn
            · rcases List.mem_cons.1 hc with rfl | hc
              · simp [hb] at hn
              · exact ⟨c, hc, hn⟩
          rw [hexDec_not_hex hr] at hvs
          exact nomatch hvs
        · exact nomatch hx
      · exact nomatch hx

/-! ## Sixteen-bit fields -/

theorem toNat_u16le (x y : Byte) : (u16le x y).toNat = x.toNat + 256 * y.toNat := by
  have := x.isLt
  have := y.isLt
  rw [u16le, BitVec.toNat_ofNat]
  omega

theorem u16le_le16 (c : Half) : u16le (BitVec.ofNat 8 (c.toNat % 256)) (BitVec.ofNat 8 (c.toNat / 256)) = c := by
  have := c.isLt
  refine BitVec.eq_of_toNat_eq ?_
  rw [toNat_u16le, BitVec.toNat_ofNat, BitVec.toNat_ofNat]
  omega

namespace Machine

/-! ## Operand forms -/

theorem decIndex_ok {t : Bytes} {i : Nat} : decIndex t = .ok i ↔ decStr t = some i := by
  unfold decIndex
  split <;> simp [*]

theorem decIndex_error {t : Bytes} {e : ErrorKind} :
    decIndex t = .error e ↔ decStr t = none ∧ e = .invalidAddress := by
  unfold decIndex
  split <;> simp [*, eq_comm]

theorem bitValue_ok {tail : Bytes} {v : Bool} :
    bitValue tail = .ok v ↔ 2 ≤ tail.length ∧ v = decide (tail.take 2 = [Config.ch0, Config.ch1]) := by
  unfold bitValue
  split
  · exact ⟨fun h => (nomatch h), fun h => absurd h.1 (by omega)⟩
  · exact ⟨fun h => ⟨by omega, (Except.ok.inj h).symm⟩, fun h => congrArg _ h.2.symm⟩

theorem wordPayload_error {size : Byte} {tail : Bytes} {e : ErrorKind} (h : wordPayload size tail = .error e) :
    e = .malformedFrame := by
  unfold wordPayload at h
  split at h
  · exact (Except.error.inj h).symm
  · exact hexDec_error h

theorem binPayload_ok {f : BinFields} {d : Bytes} :
    binPayload f = .ok d ↔ 2 * f.count.toNat ≤ f.data.length ∧ d = f.data.take (2 * f.count.toNat) := by
  unfold binPayload
  split
  · exact ⟨fun h => (nomatch h), fun h => absurd h.1 (by omega)⟩
  · exact ⟨fun h => ⟨by omega, (Except.ok.inj h).symm⟩, fun h => congrArg _ h.2.symm⟩

end Machine

end Sys2Proof
end

