-- ==== Sys2Proof/Laws/Memory.lean ====
section
/-! SUPPORT. The laws of the memory lists: every operation keeps the canonical form, and what a byte reads as after each. -/

namespace Sys2Proof.Machine

/-! ## The canonical form -/

@[simp] theorem Memory.wfAbove_nil (lo : Nat) : Memory.wfAbove lo [] = true := rfl

theorem Memory.wfAbove_cons {lo a : Nat} {b : Byte} {rest : Memory} :
    Memory.wfAbove lo ((a, b) :: rest) = true ↔ lo ≤ a ∧ b ≠ unlisted ∧ Memory.wfAbove (a + 1) rest = true := by
  simp [Memory.wfAbove, and_assoc]

theorem Memory.wfAbove_mono {lo lo' : Nat} (h : lo' ≤ lo) :
    ∀ {m : Memory}, Memory.wfAbove lo m = true → Memory.wfAbove lo' m = true
  | [], _ => rfl
  | (a, b) :: rest, hm => by
    obtain ⟨h1, h2, h3⟩ := Memory.wfAbove_cons.1 hm
    exact Memory.wfAbove_cons.2 ⟨by omega, h2, h3⟩

theorem Memory.wfAbove_write {i : Nat} {v : Byte} :
    ∀ {m : Memory} {lo : Nat}, Memory.wfAbove lo m = true → lo ≤ i → Memory.wfAbove lo (m.write i v) = true
  | [], lo, _, hi => by
    unfold Memory.write
    split
    · rfl
    · exact Memory.wfAbove_cons.2 ⟨hi, ‹_›, rfl⟩
  | (a, b) :: rest, lo, hm, hi => by
    obtain ⟨h1, h2, h3⟩ := Memory.wfAbove_cons.1 hm
    unfold Memory.write
    split
    · split
      · exact hm
      · exact Memory.wfAbove_cons.2 ⟨hi, ‹_›, Memory.wfAbove_cons.2 ⟨by omega, h2, h3⟩⟩
    · split
      · split
        · exact Memory.wfAbove_mono (by omega) h3
        · next h _ => subst h; exact Memory.wfAbove_cons.2 ⟨hi, ‹_›, h3⟩
      · exact Memory.wfAbove_cons.2 ⟨h1, h2, Memory.wfAbove_write h3 (by omega)⟩

theorem Memory.wf_write {m : Memory} (h : m.wf = true) (i : Nat) (v : Byte) : (m.write i v).wf = true :=
  Memory.wfAbove_write h (Nat.zero_le i)

theorem Memory.wf_writeBytes : ∀ (v : Bytes) {m : Memory} (start : Nat), m.wf = true → (m.writeBytes start v).wf = true
  | [], _, _, h => h
  | b :: bs, _, start, h => Memory.wf_writeBytes bs (start + 1) (Memory.wf_write h start b)

theorem Memory.wfAbove_ofBytes : ∀ (v : Bytes) (start : Nat), Memory.wfAbove start (Memory.ofBytes start v) = true
  | [], _ => rfl
  | b :: bs, start => by
    unfold Memory.ofBytes
    split
    · exact Memory.wfAbove_mono (Nat.le_succ start) (Memory.wfAbove_ofBytes bs (start + 1))
    · exact Memory.wfAbove_cons.2 ⟨Nat.le_refl start, ‹_›, Memory.wfAbove_ofBytes bs (start + 1)⟩

theorem Memory.wf_ofBytes (v : Bytes) : (Memory.ofBytes 0 v).wf = true := Memory.wfAbove_ofBytes v 0

/-! ## No index at or above the capacity -/

theorem Memory.below_cons {cap a : Nat} {b : Byte} {rest : Memory} :
    Memory.below cap ((a, b) :: rest) = true ↔ a < cap ∧ Memory.below cap rest = true := by
  simp [Memory.below]

theorem Memory.below_write {cap i : Nat} (hi : i < cap) (v : Byte) :
    ∀ {m : Memory}, m.below cap = true → (m.write i v).below cap = true
  | [], _ => by
    unfold Memory.write
    split
    · rfl
    · exact Memory.below_cons.2 ⟨hi, rfl⟩
  | (a, b) :: rest, hm => by
    obtain ⟨h1, h2⟩ := Memory.below_cons.1 hm
    unfold Memory.write
    split
    · split
      · exact hm
      · exact Memory.below_cons.2 ⟨hi, hm⟩
    · split
      · split
        · exact h2
        · exact Memory.below_cons.2 ⟨hi, h2⟩
      · exact Memory.below_cons.2 ⟨h1, Memory.below_write hi v h2⟩

theorem Memory.below_writeBytes {cap : Nat} :
    ∀ (v : Bytes) {m : Memory} (start : Nat), start + v.length ≤ cap → m.below cap = true →
      (m.writeBytes start v).below cap = true
  | [], _, _, _, h => h
  | b :: bs, _, start, hb, h => by
    rw [List.length_cons] at hb
    exact Memory.below_writeBytes bs (start + 1) (by omega) (Memory.below_write (by omega) b h)

theorem Memory.below_ofBytes {cap : Nat} :
    ∀ (v : Bytes) (start : Nat), start + v.length ≤ cap → (Memory.ofBytes start v).below cap = true
  | [], _, _ => rfl
  | b :: bs, start, h => by
    rw [List.length_cons] at h
    unfold Memory.ofBytes
    split
    · exact Memory.below_ofBytes bs (start + 1) (by omega)
    · exact Memory.below_cons.2 ⟨by omega, Memory.below_ofBytes bs (start + 1) (by omega)⟩

/-! ## What a byte reads as -/

@[simp] theorem Memory.read_nil (i : Nat) : Memory.read [] i = unlisted := rfl

theorem Memory.read_of_lt {i : Nat} :
    ∀ {m : Memory} {lo : Nat}, Memory.wfAbove lo m = true → i < lo → m.read i = unlisted
  | [], _, _, _ => rfl
  | (a, b) :: rest, lo, hm, hi => by
    obtain ⟨h1, _, h3⟩ := Memory.wfAbove_cons.1 hm
    rw [Memory.read, if_neg (by omega)]
    exact Memory.read_of_lt h3 (by omega)

theorem Memory.read_write_above {i j : Nat} {v : Byte} :
    ∀ {m : Memory} {lo : Nat}, Memory.wfAbove lo m = true →
      (m.write i v).read j = if j = i then v else m.read j
  | [], lo, _ => by
    unfold Memory.write
    by_cases hv : v = unlisted
    · simp [hv]
    · simp [hv, Memory.read]
  | (a, b) :: rest, lo, hm => by
    obtain ⟨_, _, h3⟩ := Memory.wfAbove_cons.1 hm
    have hrest : ∀ {x : Nat}, x ≤ a → Memory.read rest x = unlisted := fun hx => Memory.read_of_lt h3 (by omega)
    unfold Memory.write
    by_cases h1 : i < a
    · rw [if_pos h1]
      by_cases hv : v = unlisted
      · rw [if_pos hv]
        by_cases hj : j = i
        · subst hj
          rw [if_pos rfl, Memory.read, if_neg (by omega), hrest (by omega), hv]
        · rw [if_neg hj]
      · rw [if_neg hv]
        simp [Memory.read]
    · rw [if_neg h1]
      by_cases h2 : i = a
      · subst h2
        rw [if_pos rfl]
        by_cases hv : v = unlisted
        · rw [if_pos hv, Memory.read]
          by_cases hj : j = i
          · subst hj
            rw [if_pos rfl, hrest (by omega), hv]
          · rw [if_neg hj, if_neg hj]
        · rw [if_neg hv, Memory.read, Memory.read]
          by_cases hj : j = i <;> simp [hj]
      · rw [if_neg h2, Memory.read, Memory.read]
        by_cases hj : j = a
        · rw [if_pos hj, if_pos hj, if_neg (by omega)]
        · rw [if_neg hj, if_neg hj, Memory.read_write_above h3]

/-- A byte after the write of one byte: the byte written, or the byte before. -/
theorem Memory.read_write {m : Memory} (h : m.wf = true) (i j : Nat) (v : Byte) :
    (m.write i v).read j = if j = i then v else m.read j :=
  Memory.read_write_above h

/-- A byte after the write of a byte string: inside the range the string's byte, outside the byte before. -/
theorem Memory.read_writeBytes (j : Nat) :
    ∀ (v : Bytes) {m : Memory} (start : Nat), m.wf = true →
      (m.writeBytes start v).read j =
        if start ≤ j ∧ j < start + v.length then v.getD (j - start) 0 else m.read j
  | [], m, start, _ => by
    rw [Memory.writeBytes, if_neg (by simp)]
  | b :: bs, m, start, h => by
    rw [Memory.writeBytes, Memory.read_writeBytes j bs (start + 1) (Memory.wf_write h start b), Memory.read_write h,
      List.length_cons]
    by_cases h1 : j = start
    · subst h1
      rw [if_neg (by omega), if_pos rfl, if_pos (by omega)]
      simp
    · by_cases h2 : start + 1 ≤ j ∧ j < start + 1 + bs.length
      · rw [if_pos h2, if_pos (by omega)]
        obtain ⟨k, hk⟩ : ∃ k, j - start = k + 1 := ⟨j - start - 1, by omega⟩
        rw [hk, List.getD_cons_succ]
        congr 1
        omega
      · rw [if_neg h2, if_neg h1, if_neg (by omega)]

/-- A byte of an area laid out from a byte string. -/
theorem Memory.read_ofBytes (j : Nat) :
    ∀ (v : Bytes) (start : Nat),
      (Memory.ofBytes start v).read j = if start ≤ j then v.getD (j - start) 0 else unlisted
  | [], start => by simp [Memory.ofBytes, unlisted]
  | b :: bs, start => by
    have key : (if b = unlisted then Memory.ofBytes (start + 1) bs
        else (start, b) :: Memory.ofBytes (start + 1) bs).read j
        = if j = start then b else (Memory.ofBytes (start + 1) bs).read j := by
      split
      · next hb =>
        split
        · next hj => rw [Memory.read_of_lt (Memory.wfAbove_ofBytes bs (start + 1)) (by omega), hb]
        · rfl
      · rfl
    rw [Memory.ofBytes, key, Memory.read_ofBytes j bs (start + 1)]
    by_cases h1 : j = start
    · subst h1
      simp
    · rw [if_neg h1]
      by_cases h2 : start ≤ j
      · rw [if_pos h2, if_pos (by omega)]
        obtain ⟨k, hk⟩ : ∃ k, j - start = k + 1 := ⟨j - start - 1, by omega⟩
        rw [hk, List.getD_cons_succ]
        congr 1
        omega
      · rw [if_neg h2, if_neg (by omega)]

/-! ## Byte strings read -/

@[simp] theorem Memory.length_readBytes (m : Memory) : ∀ (n start : Nat), (m.readBytes start n).length = n
  | 0, _ => rfl
  | n + 1, start => by rw [Memory.readBytes, List.length_cons, Memory.length_readBytes m n]

/-- Byte `j` of a byte string read from `start` on. -/
theorem Memory.getD_readBytes (m : Memory) :
    ∀ (n start j : Nat), j < n → (m.readBytes start n).getD j 0 = m.read (start + j)
  | 0, _, _, h => by omega
  | n + 1, start, 0, _ => by simp [Memory.readBytes]
  | n + 1, start, j + 1, h => by
    rw [Memory.readBytes, List.getD_cons_succ, Memory.getD_readBytes m n (start + 1) j (by omega)]
    congr 1
    omega

/-- Two memories that read alike over a range give the same byte string. -/
theorem Memory.readBytes_congr {m m' : Memory} :
    ∀ (n start : Nat), (∀ i, start ≤ i → i < start + n → m.read i = m'.read i) →
      m.readBytes start n = m'.readBytes start n
  | 0, _, _ => rfl
  | n + 1, start, h => by
    rw [Memory.readBytes, Memory.readBytes, h start (Nat.le_refl _) (by omega),
      Memory.readBytes_congr n (start + 1) fun i h1 h2 => h i (by omega) (by omega)]

/-- Two canonical memories that read alike at every index are equal. -/
theorem Memory.ext_above :
    ∀ {m m' : Memory} {lo : Nat}, Memory.wfAbove lo m = true → Memory.wfAbove lo m' = true →
      (∀ i, m.read i = m'.read i) → m = m'
  | [], [], _, _, _, _ => rfl
  | [], (a, b) :: rest, _, _, h', hr => by
    have := hr a
    obtain ⟨_, hb, _⟩ := Memory.wfAbove_cons.1 h'
    simp [Memory.read] at this
    exact absurd this.symm hb
  | (a, b) :: rest, [], _, h, _, hr => by
    have := hr a
    obtain ⟨_, hb, _⟩ := Memory.wfAbove_cons.1 h
    simp [Memory.read] at this
    exact absurd this hb
  | (a, b) :: rest, (a', b') :: rest', _, h, h', hr => by
    obtain ⟨_, hb, hw⟩ := Memory.wfAbove_cons.1 h
    obtain ⟨_, hb', hw'⟩ := Memory.wfAbove_cons.1 h'
    have haa : a = a' := by
      rcases Nat.lt_trichotomy a a' with hlt | heq | hgt
      · have := hr a
        rw [Memory.read, if_pos rfl, Memory.read, if_neg (by omega), Memory.read_of_lt hw' (by omega)] at this
        exact absurd this hb
      · exact heq
      · have := hr a'
        rw [Memory.read, if_neg (by omega), Memory.read_of_lt hw (by omega), Memory.read, if_pos rfl] at this
        exact absurd this.symm hb'
    subst haa
    have hbb : b = b' := by
      have := hr a
      simpa [Memory.read] using this
    subst hbb
    have hrest : rest = rest' := Memory.ext_above hw hw' fun i => by
      by_cases hi : i = a
      · subst hi
        rw [Memory.read_of_lt hw (by omega), Memory.read_of_lt hw' (by omega)]
      · have := hr i
        simpa [Memory.read, hi] using this
    rw [hrest]

theorem Memory.ext {m m' : Memory} (h : m.wf = true) (h' : m'.wf = true) (hr : ∀ i, m.read i = m'.read i) : m = m' :=
  Memory.ext_above h h' hr

/-! ## Stores -/

@[simp] theorem Store.get_set_same (st : Store) (a : Area) (m : Memory) : (st.set a m).get a = m := by
  cases a <;> rfl

theorem Store.get_set (st : Store) (a b : Area) (m : Memory) :
    (st.set a m).get b = if b = a then m else st.get b := by
  cases a <;> cases b <;> rfl

/-- An area of the store an image lays out reads as the image's part (20_memory.md R63). -/
theorem Store.read_ofImage (cap : Nat) (img : Bytes) (a : Area) (i : Nat) (h : i < cap) :
    ((Store.ofImage cap img).get a).read i =
      img.getD ((match a with | .p => 0 | .q => cap | .m => 2 * cap | .d => 3 * cap) + i) 0 := by
  cases a <;>
    simp [Store.ofImage, Store.get, Memory.read_ofBytes, List.getD_eq_getElem?_getD, h]

end Sys2Proof.Machine
end

