-- ==== Sys2Proof/Laws/State.lean ====
section
/-! SUPPORT. One lemma per field per update of the state, so that no proof unfolds a record update. -/

namespace Sys2Proof.Machine

/-! ## The updates of the whole state -/

@[simp] theorem State.onBin_cfg (s : State) (k : Nat) (f : BinPort → BinPort) : (s.onBin k f).cfg = s.cfg := rfl
@[simp] theorem State.onBin_boot (s : State) (k : Nat) (f : BinPort → BinPort) : (s.onBin k f).boot = s.boot := rfl
@[simp] theorem State.onBin_store (s : State) (k : Nat) (f : BinPort → BinPort) : (s.onBin k f).store = s.store := rfl
@[simp] theorem State.onBin_bin (s : State) (k : Nat) (f : BinPort → BinPort) : (s.onBin k f).bin = s.bin.modify k f := rfl
@[simp] theorem State.onBin_ser (s : State) (k : Nat) (f : BinPort → BinPort) : (s.onBin k f).ser = s.ser := rfl
@[simp] theorem State.onBin_host (s : State) (k : Nat) (f : BinPort → BinPort) : (s.onBin k f).host = s.host := rfl
@[simp] theorem State.onBin_tick (s : State) (k : Nat) (f : BinPort → BinPort) : (s.onBin k f).tick = s.tick := rfl
@[simp] theorem emitBin_cfg (k : Nat) (st : Store) (r : Bytes) (s : State) : (emitBin k st r s).cfg = s.cfg := rfl
@[simp] theorem emitBin_boot (k : Nat) (st : Store) (r : Bytes) (s : State) : (emitBin k st r s).boot = s.boot := rfl
@[simp] theorem emitBin_store (k : Nat) (st : Store) (r : Bytes) (s : State) : (emitBin k st r s).store = st := rfl
@[simp] theorem emitBin_bin (k : Nat) (st : Store) (r : Bytes) (s : State) : (emitBin k st r s).bin = s.bin.modify k (BinPort.emit r) := rfl
@[simp] theorem emitBin_ser (k : Nat) (st : Store) (r : Bytes) (s : State) : (emitBin k st r s).ser = s.ser := rfl
@[simp] theorem emitBin_host (k : Nat) (st : Store) (r : Bytes) (s : State) : (emitBin k st r s).host = s.host := rfl
@[simp] theorem emitBin_tick (k : Nat) (st : Store) (r : Bytes) (s : State) : (emitBin k st r s).tick = s.tick := rfl
@[simp] theorem emitSer_cfg (st : Store) (r : Bytes) (s : State) : (emitSer st r s).cfg = s.cfg := rfl
@[simp] theorem emitSer_boot (st : Store) (r : Bytes) (s : State) : (emitSer st r s).boot = s.boot := rfl
@[simp] theorem emitSer_store (st : Store) (r : Bytes) (s : State) : (emitSer st r s).store = st := rfl
@[simp] theorem emitSer_bin (st : Store) (r : Bytes) (s : State) : (emitSer st r s).bin = s.bin := rfl
@[simp] theorem emitSer_ser (st : Store) (r : Bytes) (s : State) : (emitSer st r s).ser = { s.ser with tx := s.ser.tx ++ r, status := s.ser.status ++ [.ok] } := rfl
@[simp] theorem emitSer_host (st : Store) (r : Bytes) (s : State) : (emitSer st r s).host = s.host := rfl
@[simp] theorem emitSer_tick (st : Store) (r : Bytes) (s : State) : (emitSer st r s).tick = s.tick := rfl
@[simp] theorem emitHost_cfg (st : Store) (v : HostValue) (s : State) : (emitHost st v s).cfg = s.cfg := rfl
@[simp] theorem emitHost_boot (st : Store) (v : HostValue) (s : State) : (emitHost st v s).boot = s.boot := rfl
@[simp] theorem emitHost_store (st : Store) (v : HostValue) (s : State) : (emitHost st v s).store = st := rfl
@[simp] theorem emitHost_bin (st : Store) (v : HostValue) (s : State) : (emitHost st v s).bin = s.bin := rfl
@[simp] theorem emitHost_ser (st : Store) (v : HostValue) (s : State) : (emitHost st v s).ser = s.ser := rfl
@[simp] theorem emitHost_host (st : Store) (v : HostValue) (s : State) : (emitHost st v s).host = { s.host with outQ := s.host.outQ ++ [.ok v] } := rfl
@[simp] theorem emitHost_tick (st : Store) (v : HostValue) (s : State) : (emitHost st v s).tick = s.tick := rfl
@[simp] theorem raiseError_bin_cfg (k : Nat) (e : ErrorKind) (s : State) : (raiseError (.bin k) e s).cfg = s.cfg := rfl
@[simp] theorem raiseError_bin_boot (k : Nat) (e : ErrorKind) (s : State) : (raiseError (.bin k) e s).boot = s.boot := rfl
@[simp] theorem raiseError_bin_store (k : Nat) (e : ErrorKind) (s : State) : (raiseError (.bin k) e s).store = s.store := rfl
@[simp] theorem raiseError_bin_bin (k : Nat) (e : ErrorKind) (s : State) : (raiseError (.bin k) e s).bin = s.bin.modify k (BinPort.fail e) := rfl
@[simp] theorem raiseError_bin_ser (k : Nat) (e : ErrorKind) (s : State) : (raiseError (.bin k) e s).ser = s.ser := rfl
@[simp] theorem raiseError_bin_host (k : Nat) (e : ErrorKind) (s : State) : (raiseError (.bin k) e s).host = s.host := rfl
@[simp] theorem raiseError_bin_tick (k : Nat) (e : ErrorKind) (s : State) : (raiseError (.bin k) e s).tick = s.tick := rfl
@[simp] theorem raiseError_ser_cfg (e : ErrorKind) (s : State) : (raiseError .ser e s).cfg = s.cfg := rfl
@[simp] theorem raiseError_ser_boot (e : ErrorKind) (s : State) : (raiseError .ser e s).boot = s.boot := rfl
@[simp] theorem raiseError_ser_store (e : ErrorKind) (s : State) : (raiseError .ser e s).store = s.store := rfl
@[simp] theorem raiseError_ser_bin (e : ErrorKind) (s : State) : (raiseError .ser e s).bin = s.bin := rfl
@[simp] theorem raiseError_ser_ser (e : ErrorKind) (s : State) : (raiseError .ser e s).ser = { s.ser with status := s.ser.status ++ [.error e] } := rfl
@[simp] theorem raiseError_ser_host (e : ErrorKind) (s : State) : (raiseError .ser e s).host = s.host := rfl
@[simp] theorem raiseError_ser_tick (e : ErrorKind) (s : State) : (raiseError .ser e s).tick = s.tick := rfl
@[simp] theorem raiseError_host_cfg (e : ErrorKind) (s : State) : (raiseError .host e s).cfg = s.cfg := rfl
@[simp] theorem raiseError_host_boot (e : ErrorKind) (s : State) : (raiseError .host e s).boot = s.boot := rfl
@[simp] theorem raiseError_host_store (e : ErrorKind) (s : State) : (raiseError .host e s).store = s.store := rfl
@[simp] theorem raiseError_host_bin (e : ErrorKind) (s : State) : (raiseError .host e s).bin = s.bin := rfl
@[simp] theorem raiseError_host_ser (e : ErrorKind) (s : State) : (raiseError .host e s).ser = s.ser := rfl
@[simp] theorem raiseError_host_host (e : ErrorKind) (s : State) : (raiseError .host e s).host = { s.host with outQ := s.host.outQ ++ [.error e] } := rfl
@[simp] theorem raiseError_host_tick (e : ErrorKind) (s : State) : (raiseError .host e s).tick = s.tick := rfl

/-! ## The updates of a binary port -/

@[simp] theorem BinPort.emit_state (r : Bytes) (p : BinPort) : (p.emit r).state = p.state := rfl
@[simp] theorem BinPort.emit_inQ (r : Bytes) (p : BinPort) : (p.emit r).inQ = p.inQ := rfl
@[simp] theorem BinPort.emit_outQ (r : Bytes) (p : BinPort) : (p.emit r).outQ = p.outQ ++ [r] := rfl
@[simp] theorem BinPort.emit_close (r : Bytes) (p : BinPort) : (p.emit r).close = p.close := rfl
@[simp] theorem BinPort.emit_status (r : Bytes) (p : BinPort) : (p.emit r).status = p.status ++ [.ok] := rfl
@[simp] theorem BinPort.fail_state (e : ErrorKind) (p : BinPort) : (p.fail e).state = if closesPort e then .closed else p.state := rfl
@[simp] theorem BinPort.fail_inQ (e : ErrorKind) (p : BinPort) : (p.fail e).inQ = p.inQ := rfl
@[simp] theorem BinPort.fail_outQ (e : ErrorKind) (p : BinPort) : (p.fail e).outQ = p.outQ := rfl
@[simp] theorem BinPort.fail_close (e : ErrorKind) (p : BinPort) : (p.fail e).close = (p.close || closesPort e) := rfl
@[simp] theorem BinPort.fail_status (e : ErrorKind) (p : BinPort) : (p.fail e).status = p.status ++ [.error e] := rfl

/-! ## The state after reset -/

@[simp] theorem State.resetOf_cfg (p : Params) : (State.resetOf p).cfg = p := rfl
@[simp] theorem State.resetOf_boot (p : Params) : (State.resetOf p).boot = Params.bootStatus p := rfl
@[simp] theorem State.resetOf_store (p : Params) : (State.resetOf p).store = Params.resetStore p := rfl
@[simp] theorem State.resetOf_bin (p : Params) : (State.resetOf p).bin = List.replicate p.numBinPorts BinPort.reset := rfl
@[simp] theorem State.resetOf_ser (p : Params) : (State.resetOf p).ser = SerPort.reset := rfl
@[simp] theorem State.resetOf_host (p : Params) : (State.resetOf p).host = HostPort.reset := rfl
@[simp] theorem State.resetOf_tick (p : Params) : (State.resetOf p).tick = 0 := rfl

@[simp] theorem Store.get_zero (a : Area) : Store.zero.get a = [] := by cases a <;> rfl

/-- The reset store of every configuration is canonical, as an image's parts are (70_reset_and_hazards.md R330). -/
theorem Params.resetStore_wf (p : Params) (a : Area) : ((Params.resetStore p).get a).wf = true := by
  unfold Params.resetStore
  split
  · rw [Store.get_zero]
    rfl
  · cases a <;> exact Memory.wf_ofBytes _

/-- The memory of the state after reset has the canonical form. -/
theorem State.reset_store_wf (a : Area) : ((State.reset.store).get a).wf = true :=
  Params.resetStore_wf Params.default a

end Sys2Proof.Machine
end

