-- ==== Sys2Proof/Laws/Ops.lean ====
section
/-! SUPPORT. One lemma per shared operation: everything it can do. Proofs cite these instead of unfolding it. -/

namespace Sys2Proof.Machine

/-! ## Primitives: each is a bounds check in front of one access -/

theorem check_ok {α : Type} {c : Prop} [Decidable c] {e : ErrorKind} {x y : α} :
    (if c then Except.error e else Except.ok x) = Except.ok y ↔ ¬c ∧ y = x := by
  split <;> simp [*, eq_comm]

theorem check_error {α : Type} {c : Prop} [Decidable c] {e e' : ErrorKind} {x : α} :
    (if c then Except.error e else Except.ok x) = Except.error e' ↔ c ∧ e' = e := by
  split <;> simp [*, eq_comm]

/-- A successful `MemRead` was inside its area and returned the range. -/
theorem memRead_ok {cap : Nat} {st : Store} {a : Area} {start n : Nat} {d : Bytes} :
    memRead cap st a start n = .ok d ↔ start + n ≤ cap ∧ d = (st.get a).readBytes start n := by
  rw [memRead, check_ok, Nat.not_lt]

theorem memRead_error {cap : Nat} {st : Store} {a : Area} {start n : Nat} {e : ErrorKind} :
    memRead cap st a start n = .error e ↔ start + n > cap ∧ e = .outOfRange := by
  rw [memRead, check_error]

/-- A successful `MemWrite` was inside its area and wrote the range of that area alone. -/
theorem memWrite_ok {cap : Nat} {st st' : Store} {a : Area} {start : Nat} {v : Bytes} :
    memWrite cap st a start v = .ok st' ↔
      start + v.length ≤ cap ∧ st' = st.set a ((st.get a).writeBytes start v) := by
  rw [memWrite, check_ok, Nat.not_lt]

theorem memWrite_error {cap : Nat} {st : Store} {a : Area} {start : Nat} {v : Bytes} {e : ErrorKind} :
    memWrite cap st a start v = .error e ↔ start + v.length > cap ∧ e = .outOfRange := by
  rw [memWrite, check_error]

/-- A successful `BitRead` was inside its area and returned the bit. -/
theorem bitRead_ok {cap : Nat} {st : Store} {a : Area} {i : Nat} {v : Bool} :
    bitRead cap st a i = .ok v ↔ i < 8 * cap ∧ v = (st.get a).bit i := by
  rw [bitRead, check_ok, Nat.not_le]

theorem bitRead_error {cap : Nat} {st : Store} {a : Area} {i : Nat} {e : ErrorKind} :
    bitRead cap st a i = .error e ↔ i ≥ 8 * cap ∧ e = .outOfRange := by
  rw [bitRead, check_error]

/-- A successful `BitWrite` was inside its area and wrote one byte of that area, with one bit replaced. -/
theorem bitWrite_ok {cap : Nat} {st st' : Store} {a : Area} {i : Nat} {v : Bool} :
    bitWrite cap st a i v = .ok st' ↔ i < 8 * cap ∧
      st' = st.set a ((st.get a).write (i / 8) (setBit ((st.get a).read (i / 8)) (i % 8) v)) := by
  rw [bitWrite, check_ok, Nat.not_le]

theorem bitWrite_error {cap : Nat} {st : Store} {a : Area} {i : Nat} {v : Bool} {e : ErrorKind} :
    bitWrite cap st a i v = .error e ↔ i ≥ 8 * cap ∧ e = .outOfRange := by
  rw [bitWrite, check_error]

/-- A successful `BitRangeRead` was inside its area and returned the packed bits. -/
theorem bitRangeRead_ok {cap : Nat} {st : Store} {a : Area} {start n : Nat} {d : Bytes} :
    bitRangeRead cap st a start n = .ok d ↔ start + 8 * n ≤ 8 * cap ∧ d = (st.get a).packBytes start n := by
  rw [bitRangeRead, check_ok, Nat.not_lt]

theorem bitRangeRead_error {cap : Nat} {st : Store} {a : Area} {start n : Nat} {e : ErrorKind} :
    bitRangeRead cap st a start n = .error e ↔ start + 8 * n > 8 * cap ∧ e = .outOfRange := by
  rw [bitRangeRead, check_error]

/-- A successful import had an image of the right length and laid it out. -/
theorem importImage_ok {cap : Nat} {img : Bytes} {st : Store} :
    importImage cap img = .ok st ↔ img.length = 4 * cap ∧ st = Store.ofImage cap img := by
  unfold importImage
  split
  · simp only [Except.ok.injEq, true_and, *]
    exact eq_comm
  · simp [*]

theorem importImage_error {cap : Nat} {img : Bytes} {e : ErrorKind} :
    importImage cap img = .error e ↔ img.length ≠ 4 * cap ∧ e = .malformedSnapshot := by
  unfold importImage
  split
  · simp [*]
  · simp only [Except.error.injEq, ne_eq, not_false_eq_true, true_and, *]
    exact eq_comm

/-! ## Bits of a byte -/

/-- The bits of a byte with one bit replaced. -/
theorem getLsbD_setBit (b : Byte) (j i : Nat) (v : Bool) (hj : j < 8) (hi : i < 8) :
    (setBit b j v).getLsbD i = if i = j then v else b.getLsbD i := by
  have hone : ∀ n : Nat, (1 : Byte).getLsbD n = decide (n = 0) := fun n => by
    rw [show (1 : Byte) = 1#8 from rfl, BitVec.getLsbD_one]
    simp
  have hv : ∀ n : Nat, (BitVec.ofNat 8 v.toNat).getLsbD n = (v && decide (n = 0)) := fun n => by
    cases v
    · simp
    · exact (hone n).trans (Bool.true_and _).symm
  unfold setBit
  simp only [BitVec.getLsbD_or, BitVec.getLsbD_and, BitVec.getLsbD_not, BitVec.getLsbD_shiftLeft, hone, hv]
  by_cases h : i = j
  · subst h
    simp [hi]
  · rcases Nat.lt_or_gt_of_ne h with hlt | hgt
    · simp [hi, hlt, h]
    · have h1 : ¬ i < j := by omega
      have h2 : i - j ≠ 0 := by omega
      simp [hi, h, h1, h2]

theorem sum_two_pow_testBit (f : Nat → Bool) :
    ∀ n : Nat, ((List.range n).map fun j => (f j).toNat <<< j).sum < 2 ^ n
      ∧ ∀ i < n, ((List.range n).map fun j => (f j).toNat <<< j).sum.testBit i = f i
  | 0 => ⟨by simp, fun i h => by omega⟩
  | n + 1 => by
    obtain ⟨hlt, hbit⟩ := sum_two_pow_testBit f n
    have hs : ((List.range (n + 1)).map fun j => (f j).toNat <<< j).sum
        = 2 ^ n * (f n).toNat + ((List.range n).map fun j => (f j).toNat <<< j).sum := by
      rw [List.range_succ, List.map_append, List.sum_append]
      simp [Nat.shiftLeft_eq, Nat.mul_comm, Nat.add_comm]
    have hf : (f n).toNat ≤ 1 := by cases f n <;> simp
    refine ⟨?_, fun i hi => ?_⟩
    · rw [hs, Nat.pow_succ]
      have : 2 ^ n * (f n).toNat ≤ 2 ^ n * 1 := Nat.mul_le_mul_left _ hf
      omega
    · rw [hs, Nat.testBit_two_pow_mul_add _ hlt]
      split
      · exact hbit i ‹_›
      · have : i = n := by omega
        subst this
        cases f i <;> simp

/-- Bit `j` of a packed byte is bit `i + j` of the area. -/
theorem Memory.getLsbD_packByte (m : Memory) (i j : Nat) (hj : j < 8) : (m.packByte i).getLsbD j = m.bit (i + j) := by
  unfold Memory.packByte
  rw [BitVec.getLsbD_ofNat, (sum_two_pow_testBit (fun j => m.bit (i + j)) 8).2 j hj]
  simp [hj]

@[simp] theorem Memory.length_packBytes (m : Memory) : ∀ (n i : Nat), (m.packBytes i n).length = n
  | 0, _ => rfl
  | n + 1, i => by rw [Memory.packBytes, List.length_cons, Memory.length_packBytes m n]

theorem Memory.getD_packBytes (m : Memory) :
    ∀ (n i k : Nat), k < n → (m.packBytes i n).getD k 0 = m.packByte (i + 8 * k)
  | 0, _, _, h => by omega
  | n + 1, i, 0, _ => by simp [Memory.packBytes]
  | n + 1, i, k + 1, h => by
    rw [Memory.packBytes, List.getD_cons_succ, Memory.getD_packBytes m n (i + 8) k (by omega)]
    congr 1
    omega

/-! ## The end of a transaction -/

/-- A transaction of `BIN[k]` ends with its response and store, or in the error entry. -/
theorem finishBin_cases (k : Nat) (r : Except ErrorKind (Store × Bytes)) (s : State) :
    (∃ st bytes, r = .ok (st, bytes) ∧ finishBin k r s = emitBin k st bytes s)
    ∨ ∃ e, r = .error e ∧ finishBin k r s = raiseError (.bin k) e s := by
  rcases r with e | ⟨st, bytes⟩
  · exact .inr ⟨e, rfl, rfl⟩
  · exact .inl ⟨st, bytes, rfl, rfl⟩

theorem finishSer_cases (r : Except ErrorKind (Store × Bytes)) (s : State) :
    (∃ st bytes, r = .ok (st, bytes) ∧ finishSer r s = emitSer st bytes s)
    ∨ ∃ e, r = .error e ∧ finishSer r s = raiseError .ser e s := by
  rcases r with e | ⟨st, bytes⟩
  · exact .inr ⟨e, rfl, rfl⟩
  · exact .inl ⟨st, bytes, rfl, rfl⟩

theorem finishHost_cases (r : Except ErrorKind (Store × HostValue)) (s : State) :
    (∃ st v, r = .ok (st, v) ∧ finishHost r s = emitHost st v s)
    ∨ ∃ e, r = .error e ∧ finishHost r s = raiseError .host e s := by
  rcases r with e | ⟨st, v⟩
  · exact .inr ⟨e, rfl, rfl⟩
  · exact .inl ⟨st, v, rfl, rfl⟩

end Sys2Proof.Machine
end

