-- ==== Sys2Proof/Laws/PerInstr.lean ====
section
/-! SUPPORT. The statements made per instruction, one lemma per constructor of `Instr`. -/

namespace Sys2Proof.Laws

open Sys2Proof.Config

/-- The request holds the selector of the command's row in opcode_table.json (30_encoding.md R99): the command byte, or
`ENQ`, the token and the class characters, or the host operation. -/
def Selects : Instr → Request → Prop
  | .binRead k _ _, .bin k' F => k' = k ∧ byteAt F 20 = 0x54
  | .binWrite k _ _, .bin k' F => k' = k ∧ byteAt F 20 = 0x58
  | .ascRdMb _, .asc W => byteAt W 0 = ENQ ∧ slice W 3 2 = [chr, chS] ∧ slice W 9 2 = [chM, chB]
  | .ascRdPb _, .asc W => byteAt W 0 = ENQ ∧ slice W 3 2 = [chr, chS] ∧ slice W 9 2 = [chP, chB]
  | .ascRdDb _, .asc W => byteAt W 0 = ENQ ∧ slice W 3 2 = [chr, chS] ∧ slice W 9 2 = [chD, chB]
  | .ascRdTb _, .asc W => byteAt W 0 = ENQ ∧ slice W 3 2 = [chr, chS] ∧ slice W 9 2 = [chT, chB]
  | .ascWrMx _, .asc W => byteAt W 0 = ENQ ∧ slice W 3 2 = [chw, chS] ∧ slice W 9 2 = [chM, chX]
  | .ascWrDx _, .asc W => byteAt W 0 = ENQ ∧ slice W 3 2 = [chw, chS] ∧ slice W 9 2 = [chD, chX]
  | .ascWrCw _, .asc W => byteAt W 0 = ENQ ∧ slice W 3 2 = [chw, chS] ∧ slice W 9 2 = [chC, chW]
  | .ascWrTw _, .asc W => byteAt W 0 = ENQ ∧ slice W 3 2 = [chw, chS] ∧ slice W 9 2 = [chT, chW]
  | .ascWrMw _, .asc W => byteAt W 0 = ENQ ∧ slice W 3 2 = [chw, chS] ∧ slice W 9 2 = [chM, chW]
  | .ascWrDw _, .asc W => byteAt W 0 = ENQ ∧ slice W 3 2 = [chw, chS] ∧ slice W 9 2 = [chD, chW]
  | .ascWrDd _ _, .asc W => byteAt W 0 = ENQ ∧ slice W 3 2 = [chw, chS] ∧ byteAt W 10 = chD
  | .ascWrDl _ _, .asc W => byteAt W 0 = ENQ ∧ slice W 3 2 = [chw, chS] ∧ byteAt W 10 = chL
  | .ascWssMx _, .asc W => byteAt W 0 = ENQ ∧ slice W 3 3 = [chW, chS, chS] ∧ slice W 10 2 = [chM, chX]
  | .ascWssDx _, .asc W => byteAt W 0 = ENQ ∧ slice W 3 3 = [chW, chS, chS] ∧ slice W 10 2 = [chD, chX]
  | .ascWssCw _, .asc W => byteAt W 0 = ENQ ∧ slice W 3 3 = [chW, chS, chS] ∧ slice W 10 2 = [chC, chW]
  | .ascWssTw _, .asc W => byteAt W 0 = ENQ ∧ slice W 3 3 = [chW, chS, chS] ∧ slice W 10 2 = [chT, chW]
  | .ascWssMw _, .asc W => byteAt W 0 = ENQ ∧ slice W 3 3 = [chW, chS, chS] ∧ slice W 10 2 = [chM, chW]
  | .ascWssDw _, .asc W => byteAt W 0 = ENQ ∧ slice W 3 3 = [chW, chS, chS] ∧ slice W 10 2 = [chD, chW]
  | .ascWssDd _ _, .asc W => byteAt W 0 = ENQ ∧ slice W 3 3 = [chW, chS, chS] ∧ byteAt W 11 = chD
  | .ascWssDl _ _, .asc W => byteAt W 0 = ENQ ∧ slice W 3 3 = [chW, chS, chS] ∧ byteAt W 11 = chL
  | .hostRead t n, .host (.read t' n') => t' = t ∧ n' = n
  | .hostWrite t d, .host (.write t' d') => t' = t ∧ d' = d
  | .hostReadbit t, .host (.readbit t') => t' = t
  | .hostWritebit t v, .host (.writebit t' v') => t' = t ∧ v' = v
  | .hostExport, .host .exportSnapshot => True
  | .hostImport img, .host (.importSnapshot img') => img' = img
  | _, _ => False

/-- A well-formed command's request holds the selector of its row. -/
def SelectorBytes.Statement (i : Instr) : Prop := i.wf = true → Selects i (encode i)

theorem wfBin_header {h : Bytes} {f : Option BinFields} (hw : wfBin h f = true) : h.length = 20 := by
  simp only [wfBin, Bool.and_eq_true, beq_iff_eq] at hw
  exact hw.1

theorem binSelector {k : Nat} {h : Bytes} {f : Option BinFields} (cmd : Byte) (hw : h.length = 20) :
    k = k ∧ byteAt (encodeBin cmd h f) 20 = cmd := by
  refine ⟨rfl, ?_⟩
  unfold encodeBin
  rw [List.append_assoc, byteAt_append_right (by omega), hw]
  rfl

theorem SelectorBytes.binRead (k : Nat) (h : Bytes) (f : Option BinFields) : SelectorBytes.Statement (.binRead k h f) :=
  fun hw => binSelector _ (wfBin_header hw)

theorem SelectorBytes.binWrite (k : Nat) (h : Bytes) (f : Option BinFields) : SelectorBytes.Statement (.binWrite k h f) :=
  fun hw => binSelector _ (wfBin_header hw)

theorem SelectorBytes.ascRdMb (op : AscReadOp) : SelectorBytes.Statement (.ascRdMb op) :=
  fun _ => ⟨rfl, rfl, rfl⟩

theorem SelectorBytes.ascRdPb (op : AscReadOp) : SelectorBytes.Statement (.ascRdPb op) :=
  fun _ => ⟨rfl, rfl, rfl⟩

theorem SelectorBytes.ascRdDb (op : AscReadOp) : SelectorBytes.Statement (.ascRdDb op) :=
  fun _ => ⟨rfl, rfl, rfl⟩

theorem SelectorBytes.ascRdTb (op : AscReadOp) : SelectorBytes.Statement (.ascRdTb op) :=
  fun _ => ⟨rfl, rfl, rfl⟩

theorem SelectorBytes.ascWrMx (op : AscWriteOp) : SelectorBytes.Statement (.ascWrMx op) :=
  fun _ => ⟨rfl, rfl, rfl⟩

theorem SelectorBytes.ascWrDx (op : AscWriteOp) : SelectorBytes.Statement (.ascWrDx op) :=
  fun _ => ⟨rfl, rfl, rfl⟩

theorem SelectorBytes.ascWrCw (op : AscWriteOp) : SelectorBytes.Statement (.ascWrCw op) :=
  fun _ => ⟨rfl, rfl, rfl⟩

theorem SelectorBytes.ascWrTw (op : AscWriteOp) : SelectorBytes.Statement (.ascWrTw op) :=
  fun _ => ⟨rfl, rfl, rfl⟩

theorem SelectorBytes.ascWrMw (op : AscWriteOp) : SelectorBytes.Statement (.ascWrMw op) :=
  fun _ => ⟨rfl, rfl, rfl⟩

theorem SelectorBytes.ascWrDw (op : AscWriteOp) : SelectorBytes.Statement (.ascWrDw op) :=
  fun _ => ⟨rfl, rfl, rfl⟩

theorem SelectorBytes.ascWrDd (area : Byte) (op : AscWriteOp) : SelectorBytes.Statement (.ascWrDd area op) :=
  fun _ => ⟨rfl, rfl, rfl⟩

theorem SelectorBytes.ascWrDl (area : Byte) (op : AscWriteOp) : SelectorBytes.Statement (.ascWrDl area op) :=
  fun _ => ⟨rfl, rfl, rfl⟩

theorem SelectorBytes.ascWssMx (op : AscWriteOp) : SelectorBytes.Statement (.ascWssMx op) :=
  fun _ => ⟨rfl, rfl, rfl⟩

theorem SelectorBytes.ascWssDx (op : AscWriteOp) : SelectorBytes.Statement (.ascWssDx op) :=
  fun _ => ⟨rfl, rfl, rfl⟩

theorem SelectorBytes.ascWssCw (op : AscWriteOp) : SelectorBytes.Statement (.ascWssCw op) :=
  fun _ => ⟨rfl, rfl, rfl⟩

theorem SelectorBytes.ascWssTw (op : AscWriteOp) : SelectorBytes.Statement (.ascWssTw op) :=
  fun _ => ⟨rfl, rfl, rfl⟩

theorem SelectorBytes.ascWssMw (op : AscWriteOp) : SelectorBytes.Statement (.ascWssMw op) :=
  fun _ => ⟨rfl, rfl, rfl⟩

theorem SelectorBytes.ascWssDw (op : AscWriteOp) : SelectorBytes.Statement (.ascWssDw op) :=
  fun _ => ⟨rfl, rfl, rfl⟩

theorem SelectorBytes.ascWssDd (area : Byte) (op : AscWriteOp) : SelectorBytes.Statement (.ascWssDd area op) :=
  fun _ => ⟨rfl, rfl, rfl⟩

theorem SelectorBytes.ascWssDl (area : Byte) (op : AscWriteOp) : SelectorBytes.Statement (.ascWssDl area op) :=
  fun _ => ⟨rfl, rfl, rfl⟩

theorem SelectorBytes.hostRead (t : Bytes) (n : Nat) : SelectorBytes.Statement (.hostRead t n) :=
  fun _ => ⟨rfl, rfl⟩

theorem SelectorBytes.hostWrite (t d : Bytes) : SelectorBytes.Statement (.hostWrite t d) :=
  fun _ => ⟨rfl, rfl⟩

theorem SelectorBytes.hostReadbit (t : Bytes) : SelectorBytes.Statement (.hostReadbit t) :=
  fun _ => rfl

theorem SelectorBytes.hostWritebit (t : Bytes) (v : Bool) : SelectorBytes.Statement (.hostWritebit t v) :=
  fun _ => ⟨rfl, rfl⟩

theorem SelectorBytes.hostExport : SelectorBytes.Statement .hostExport :=
  fun _ => trivial

theorem SelectorBytes.hostImport (img : Bytes) : SelectorBytes.Statement (.hostImport img) :=
  fun _ => rfl

end Sys2Proof.Laws
end

