-- ==== Sys2Proof/Laws/Step.lean ====
section
/-! SUPPORT. What a command, a transaction and a step can do, said once: every later proof cites these cases. -/

namespace Sys2Proof.Machine

/-- The stores one transaction can leave: the store it found, or the result of its one primitive that writes. -/
def Reached (cap : Nat) (st st' : Store) : Prop :=
  st' = st ∨ (∃ a start v, memWrite cap st a start v = .ok st') ∨ (∃ a i v, bitWrite cap st a i v = .ok st')
    ∨ ∃ img, importImage cap img = .ok st'

/-- How a transaction of an agent can end: with an answer on its port, or in the error entry. -/
def Ends (a : Agent) (s t : State) : Prop :=
  (∃ e, t = raiseError a e s) ∨
  match a with
  | .bin k => ∃ st r, Reached s.cfg.cap s.store st ∧ t = emitBin k st r s
  | .ser => ∃ st r, Reached s.cfg.cap s.store st ∧ t = emitSer st r s
  | .host => ∃ st v, Reached s.cfg.cap s.store st ∧ t = emitHost st v s

theorem bind_ok {ε α β : Type} {x : Except ε α} {f : α → Except ε β} {b : β} :
    (x >>= f) = .ok b ↔ ∃ a, x = .ok a ∧ f a = .ok b := by
  cases x with
  | error e => exact ⟨fun h => (nomatch h), fun ⟨_, h, _⟩ => (nomatch h)⟩
  | ok a => exact ⟨fun h => ⟨a, rfl, h⟩, fun ⟨_, h, h'⟩ => Except.ok.inj h ▸ h'⟩

theorem bind_error {ε α β : Type} {x : Except ε α} {f : α → Except ε β} {e : ε} :
    (x >>= f) = .error e ↔ x = .error e ∨ ∃ a, x = .ok a ∧ f a = .error e := by
  cases x <;> simp [bind, Except.bind]

theorem ends_finishBin {k : Nat} {r : Except ErrorKind (Store × Bytes)} {s : State}
    (h : ∀ st b, r = .ok (st, b) → Reached s.cfg.cap s.store st) : Ends (.bin k) s (finishBin k r s) := by
  rcases finishBin_cases k r s with ⟨st, b, hr, ht⟩ | ⟨e, _, ht⟩
  · exact .inr ⟨st, b, h st b hr, ht⟩
  · exact .inl ⟨e, ht⟩

theorem ends_finishSer {r : Except ErrorKind (Store × Bytes)} {s : State}
    (h : ∀ st b, r = .ok (st, b) → Reached s.cfg.cap s.store st) : Ends .ser s (finishSer r s) := by
  rcases finishSer_cases r s with ⟨st, b, hr, ht⟩ | ⟨e, _, ht⟩
  · exact .inr ⟨st, b, h st b hr, ht⟩
  · exact .inl ⟨e, ht⟩

theorem ends_finishHost {r : Except ErrorKind (Store × HostValue)} {s : State}
    (h : ∀ st v, r = .ok (st, v) → Reached s.cfg.cap s.store st) : Ends .host s (finishHost r s) := by
  rcases finishHost_cases r s with ⟨st, v, hr, ht⟩ | ⟨e, _, ht⟩
  · exact .inr ⟨st, v, h st v hr, ht⟩
  · exact .inl ⟨e, ht⟩

/-! ## The store each body leaves -/

theorem binReadBody_reached {cap : Nat} {st st' : Store} {h : Bytes} {f : Option BinFields} {b : Bytes}
    (hb : binReadBody cap st h f = .ok (st', b)) : Reached cap st st' := by
  simp only [binReadBody, bind_ok] at hb
  obtain ⟨_, _, _, _, _, _, h⟩ := hb
  exact .inl (Prod.mk.inj (Except.ok.inj h)).1.symm

theorem binWriteBody_reached {cap : Nat} {st st' : Store} {h : Bytes} {f : Option BinFields} {b : Bytes}
    (hb : binWriteBody cap st h f = .ok (st', b)) : Reached cap st st' := by
  simp only [binWriteBody, bind_ok] at hb
  obtain ⟨_, _, d, _, ⟨a, start⟩, _, _, hw, h⟩ := hb
  exact .inr (.inl ⟨a, start, d, (Prod.mk.inj (Except.ok.inj h)).1 ▸ hw⟩)

theorem ascBitRead_reached {cap : Nat} {st st' : Store} {a : Area} {op : AscReadOp} {b : Bytes}
    (hb : ascBitRead a cap st op = .ok (st', b)) : Reached cap st st' := by
  simp only [ascBitRead, bind_ok] at hb
  obtain ⟨_, _, _, _, h⟩ := hb
  exact .inl (Prod.mk.inj (Except.ok.inj h)).1.symm

theorem ascByteRead_reached {cap : Nat} {st st' : Store} {a : Area} {op : AscReadOp} {b : Bytes}
    (hb : ascByteRead a cap st op = .ok (st', b)) : Reached cap st st' := by
  simp only [ascByteRead, bind_ok] at hb
  obtain ⟨_, _, _, _, h⟩ := hb
  exact .inl (Prod.mk.inj (Except.ok.inj h)).1.symm

theorem ascBitWrite_reached {cls : Byte} {cap : Nat} {st st' : Store} {a : Area} {op : AscWriteOp} {b : Bytes}
    (hb : ascBitWrite cls a cap st op = .ok (st', b)) : Reached cap st st' := by
  simp only [ascBitWrite, bind_ok] at hb
  obtain ⟨i, _, v, _, _, hw, h⟩ := hb
  exact .inr (.inr (.inl ⟨a, i, v, (Prod.mk.inj (Except.ok.inj h)).1 ▸ hw⟩))

theorem ascWordWrite_reached {cls : Byte} {cap : Nat} {st st' : Store} {a : Area} {op : AscWriteOp} {b : Bytes}
    (hb : ascWordWrite cls a cap st op = .ok (st', b)) : Reached cap st st' := by
  simp only [ascWordWrite, bind_ok] at hb
  obtain ⟨i, _, v, _, _, hw, h⟩ := hb
  exact .inr (.inl ⟨a, i, v, (Prod.mk.inj (Except.ok.inj h)).1 ▸ hw⟩)

theorem hostReadBody_reached {cap : Nat} {st st' : Store} {t : Bytes} {n : Nat} {v : HostValue}
    (hb : hostReadBody cap st t n = .ok (st', v)) : Reached cap st st' := by
  simp only [hostReadBody, bind_ok] at hb
  obtain ⟨_, _, _, _, h⟩ := hb
  exact .inl (Prod.mk.inj (Except.ok.inj h)).1.symm

theorem hostWriteBody_reached {cap : Nat} {st st' : Store} {t d : Bytes} {v : HostValue}
    (hb : hostWriteBody cap st t d = .ok (st', v)) : Reached cap st st' := by
  simp only [hostWriteBody, bind_ok] at hb
  obtain ⟨⟨a, start⟩, _, _, hw, h⟩ := hb
  exact .inr (.inl ⟨a, start, d, (Prod.mk.inj (Except.ok.inj h)).1 ▸ hw⟩)

theorem hostReadbitBody_reached {cap : Nat} {st st' : Store} {t : Bytes} {v : HostValue}
    (hb : hostReadbitBody cap st t = .ok (st', v)) : Reached cap st st' := by
  simp only [hostReadbitBody, bind_ok] at hb
  obtain ⟨_, _, _, _, h⟩ := hb
  exact .inl (Prod.mk.inj (Except.ok.inj h)).1.symm

theorem hostWritebitBody_reached {cap : Nat} {st st' : Store} {t : Bytes} {x : Bool} {v : HostValue}
    (hb : hostWritebitBody cap st t x = .ok (st', v)) : Reached cap st st' := by
  simp only [hostWritebitBody, bind_ok] at hb
  obtain ⟨⟨a, i⟩, _, _, hw, h⟩ := hb
  exact .inr (.inr (.inl ⟨a, i, x, (Prod.mk.inj (Except.ok.inj h)).1 ▸ hw⟩))

theorem hostImportBody_reached {cap : Nat} {st st' : Store} {img : Bytes} {v : HostValue}
    (hb : hostImportBody cap img = .ok (st', v)) : Reached cap st st' := by
  simp only [hostImportBody, bind_ok] at hb
  obtain ⟨_, hw, h⟩ := hb
  exact .inr (.inr (.inr ⟨img, (Prod.mk.inj (Except.ok.inj h)).1 ▸ hw⟩))

/-! ## Commands, transactions, steps -/

/-- Every command answers a next state, in which its port's transaction has ended. -/
theorem exec_ends (i : Instr) (s : State) : ∃ t, exec i s = .next t ∧ Ends i.agent s t := by
  cases i with
  | binRead k h f => exact ⟨_, rfl, ends_finishBin fun _ _ => binReadBody_reached⟩
  | binWrite k h f => exact ⟨_, rfl, ends_finishBin fun _ _ => binWriteBody_reached⟩
  | ascRdMb op => exact ⟨_, rfl, ends_finishSer fun _ _ => ascBitRead_reached⟩
  | ascRdPb op => exact ⟨_, rfl, ends_finishSer fun _ _ => ascBitRead_reached⟩
  | ascRdDb op => exact ⟨_, rfl, ends_finishSer fun _ _ => ascByteRead_reached⟩
  | ascRdTb op => exact ⟨_, rfl, ends_finishSer fun _ _ => ascByteRead_reached⟩
  | ascWrMx op => exact ⟨_, rfl, ends_finishSer fun _ _ => ascBitWrite_reached⟩
  | ascWrDx op => exact ⟨_, rfl, ends_finishSer fun _ _ => ascBitWrite_reached⟩
  | ascWrCw op => exact ⟨_, rfl, ends_finishSer fun _ _ => ascWordWrite_reached⟩
  | ascWrTw op => exact ⟨_, rfl, ends_finishSer fun _ _ => ascWordWrite_reached⟩
  | ascWrMw op => exact ⟨_, rfl, ends_finishSer fun _ _ => ascWordWrite_reached⟩
  | ascWrDw op => exact ⟨_, rfl, ends_finishSer fun _ _ => ascWordWrite_reached⟩
  | ascWrDd area op => exact ⟨_, rfl, .inl ⟨_, rfl⟩⟩
  | ascWrDl area op => exact ⟨_, rfl, .inl ⟨_, rfl⟩⟩
  | ascWssMx op => exact ⟨_, rfl, ends_finishSer fun _ _ => ascBitWrite_reached⟩
  | ascWssDx op => exact ⟨_, rfl, ends_finishSer fun _ _ => ascBitWrite_reached⟩
  | ascWssCw op => exact ⟨_, rfl, ends_finishSer fun _ _ => ascWordWrite_reached⟩
  | ascWssTw op => exact ⟨_, rfl, ends_finishSer fun _ _ => ascWordWrite_reached⟩
  | ascWssMw op => exact ⟨_, rfl, ends_finishSer fun _ _ => ascWordWrite_reached⟩
  | ascWssDw op => exact ⟨_, rfl, ends_finishSer fun _ _ => ascWordWrite_reached⟩
  | ascWssDd area op => exact ⟨_, rfl, .inl ⟨_, rfl⟩⟩
  | ascWssDl area op => exact ⟨_, rfl, .inl ⟨_, rfl⟩⟩
  | hostRead t n => exact ⟨_, rfl, ends_finishHost fun _ _ => hostReadBody_reached⟩
  | hostWrite t d => exact ⟨_, rfl, ends_finishHost fun _ _ => hostWriteBody_reached⟩
  | hostReadbit t => exact ⟨_, rfl, ends_finishHost fun _ _ => hostReadbitBody_reached⟩
  | hostWritebit t v => exact ⟨_, rfl, ends_finishHost fun _ _ => hostWritebitBody_reached⟩
  | hostExport => exact ⟨_, rfl, .inr ⟨_, _, .inl rfl, rfl⟩⟩
  | hostImport img => exact ⟨_, rfl, ends_finishHost fun _ _ => hostImportBody_reached⟩

theorem ascReadClass_agent {area cls : Byte} {op : AscReadOp} {i : Instr} (h : ascReadClass area cls op = .ok i) :
    i.agent = .ser := by
  unfold ascReadClass at h
  repeat' split at h
  all_goals cases h
  all_goals rfl

theorem ascWriteClass_agent {area cls : Byte} {op : AscWriteOp} {i : Instr} (h : ascWriteClass area cls op = .ok i) :
    i.agent = .ser := by
  unfold ascWriteClass at h
  repeat' split at h
  all_goals cases h
  all_goals rfl

theorem ascWssClass_agent {area cls : Byte} {op : AscWriteOp} {i : Instr} (h : ascWssClass area cls op = .ok i) :
    i.agent = .ser := by
  unfold ascWssClass at h
  repeat' split at h
  all_goals cases h
  all_goals rfl

theorem decodeAsc_agent {W : Bytes} {i : Instr} (h : decodeAsc W = .ok i) : i.agent = .ser := by
  simp only [decodeAsc, routeAsc, decodeAscRead, decodeAscWrite, decodeAscWss] at h
  repeat' split at h
  all_goals first
    | exact ascReadClass_agent h
    | exact ascWriteClass_agent h
    | exact ascWssClass_agent h
    | cases h

/-- A request's command is performed by the agent whose request it is (R310). -/
theorem decode_agent {r : Request} {i : Instr} (h : decode r = .ok i) : i.agent = r.agent := by
  cases r with
  | bin k F =>
    simp only [decode, decodeBin] at h
    repeat' split at h
    all_goals cases h
    all_goals rfl
  | asc W => exact decodeAsc_agent h
  | host op => cases h; cases op <;> rfl

/-- Every transaction answers a next state, in which it has ended on its own port. -/
theorem transact_ends (r : Request) (s : State) : ∃ t, transact r s = .next t ∧ Ends r.agent s t := by
  unfold transact
  split
  · next i hi =>
    obtain ⟨t, ht, he⟩ := exec_ends i s
    exact ⟨t, ht, decode_agent hi ▸ he⟩
  · exact ⟨_, rfl, .inl ⟨_, rfl⟩⟩

/-- A request an agent takes is its own. -/
theorem fetch_agent {a : Agent} {s t : State} {r : Request} (h : fetch a s = (t, some r)) : r.agent = a := by
  cases a with
  | bin k =>
    simp only [fetch] at h
    repeat' split at h
    all_goals cases h
    rfl
  | ser =>
    simp only [fetch] at h
    split at h
    · cases h
    · obtain ⟨_, hr⟩ := Prod.mk.inj h
      obtain ⟨W, _, rfl⟩ := Option.map_eq_some_iff.1 hr
      rfl
  | host =>
    simp only [fetch] at h
    split at h
    · cases h
    · cases h; rfl

/-- A step of one agent takes its input, and either that is all or its transaction ends on the state without it. -/
theorem serve_cases (a : Agent) (s : State) :
    ∃ t, serve a s = .next t ∧
      (((fetch a s).2 = none ∧ t = (fetch a s).1) ∨ ∃ r, (fetch a s).2 = some r ∧ r.agent = a ∧ Ends a (fetch a s).1 t) := by
  unfold serve
  split
  · next s' r hf =>
    obtain ⟨t, ht, he⟩ := transact_ends r s'
    refine ⟨t, ht, .inr ⟨r, by rw [hf], fetch_agent hf, ?_⟩⟩
    rw [hf]
    exact fetch_agent hf ▸ he
  · next s' hf => exact ⟨s', rfl, .inl ⟨by rw [hf], by rw [hf]⟩⟩

/-- The choice among the agents that can step is one of them. -/
theorem choose_mem {n : Nat} {l : List Agent} {a : Agent} (h : choose n l = some a) : a ∈ l := by
  unfold choose at h
  split at h
  · exact nomatch h
  · simp_all
  · exact List.mem_of_getElem? h

theorem choose_eq_none {n : Nat} {l : List Agent} : choose n l = none ↔ l = [] := by
  unfold choose
  split
  · simp
  · simp
  · next a b rest =>
    simp only [reduceCtorEq, iff_false]
    have hlt : Config.arbiter n % (rest.length + 2) < (a :: b :: rest).length := Nat.mod_lt _ (Nat.succ_pos _)
    rw [List.getElem?_eq_getElem hlt]
    simp

/-- A step is the fault of a block held in reset, or nothing when no agent can step, or the step of one that can. -/
theorem step_cases (s : State) :
    (∃ e, s.boot = .error e ∧ step s = .fault .heldInReset)
    ∨ (s.boot = .ok ∧ enabled s = [] ∧ step s = .next s)
    ∨ ∃ a ∈ enabled s, s.boot = .ok ∧ step s = serve a { s with tick := s.tick + 1 } := by
  unfold step
  split
  · next e he => exact .inl ⟨e, he, rfl⟩
  · next hb =>
    split
    · next hc => exact .inr (.inl ⟨hb, choose_eq_none.1 hc, rfl⟩)
    · next a hc => exact .inr (.inr ⟨a, choose_mem hc, hb, rfl⟩)

end Sys2Proof.Machine
end

