-- ==== Sys2Proof/Tests/Slice0.lean ====
section
/-! SUPPORT. The model's own tests. Every expected result is the spec's: the vectors of 95_test_vectors.md, named on each
test's line, or the rule named there. Then, for each statement of Obligations.lean that has hypotheses, a theorem
`witness_<Name>` that meets them, each clause at a boundary of its range. -/

namespace Sys2Proof.Tests

open Machine Config

/-! ## WellFormed refuses -/

def sampleRead : AscReadOp := { st1 := ch0, st2 := ch1, pre := 0x25, suffix := [ch0], size := 1 }

def sampleWrite : AscWriteOp := { st1 := ch0, st2 := ch1, pre := 0x25, suffix := [ch0], size := 1, tail := [ch0, ch1, ETX] }

theorem test_wf_accepts_reads_and_writes :
    (Instr.ascRdMb sampleRead).wf = true ∧ (Instr.ascWssDw sampleWrite).wf = true := by decide

/-- A header of 19 bytes (R89). -/
theorem test_wf_refuses_short_header : (Instr.binRead 0 (List.replicate 19 0) none).wf = false := by decide

/-- A name of 255 bytes would need `N = 256`, and `N` is 8 bits (R89). -/
theorem test_wf_refuses_long_name :
    (Instr.binWrite 0 (List.replicate 20 0) (some { name := List.replicate 255 ch0, count := 0, data := [] })).wf = false := by
  simp only [Instr.wf, wfBin, BinFields.wf, List.length_replicate]
  decide

/-- A station that is not two digits (R210), at either character. -/
theorem test_wf_refuses_first_station_character : (Instr.ascRdDb { sampleRead with st1 := chA }).wf = false := by decide

theorem test_wf_refuses_second_station_character : (Instr.ascWrMx { sampleWrite with st2 := 0x3A }).wf = false := by decide

/-- An address of 100 bytes does not fit two decimal digits (R94). -/
theorem test_wf_refuses_long_suffix : (Instr.ascRdTb { sampleRead with suffix := List.replicate 97 ch0 }).wf = false := by
  decide

/-! ## Decoding: every constructor, from the bytes of a frame

ASCII operands stand in the order `st1`, `st2`, `pre`, `suffix`, `size`, `tail`. -/

/-- Vector L1-2. -/
theorem test_decode_binRead :
    decode (.bin 0 [0x80, 0x81, 0x82, 0x83, 0x84, 0x85, 0x86, 0x87, 0x88, 0x89, 0x8A, 0x8B, 0x8C, 0x8D, 0x8E, 0x8F,
      0x90, 0x91, 0x92, 0x93, 0x54, 0x00, 0x00, 0x00, 0x00, 0x00, 0x00, 0x00, 0x05, 0x00, 0x00, 0x25, 0x4D, 0x57,
      0x30, 0x04, 0x00])
    = .ok (.binRead 0 [0x80, 0x81, 0x82, 0x83, 0x84, 0x85, 0x86, 0x87, 0x88, 0x89, 0x8A, 0x8B, 0x8C, 0x8D, 0x8E,
      0x8F, 0x90, 0x91, 0x92, 0x93] (some { name := [0x25, 0x4D, 0x57, 0x30], count := 4, data := [] })) := by
  rfl

/-- Vector B-W1. -/
theorem test_decode_binWrite :
    decode (.bin 0 [0x80, 0x81, 0x82, 0x83, 0x84, 0x85, 0x86, 0x87, 0x88, 0x89, 0x8A, 0x8B, 0x8C, 0x8D, 0x8E, 0x8F,
      0x90, 0x91, 0x92, 0x93, 0x58, 0x00, 0x00, 0x00, 0x00, 0x00, 0x00, 0x00, 0x06, 0x00, 0x00, 0x25, 0x44, 0x57,
      0x31, 0x30, 0x01, 0x00, 0x34, 0x12])
    = .ok (.binWrite 0 [0x80, 0x81, 0x82, 0x83, 0x84, 0x85, 0x86, 0x87, 0x88, 0x89, 0x8A, 0x8B, 0x8C, 0x8D, 0x8E,
      0x8F, 0x90, 0x91, 0x92, 0x93] (some { name := [0x25, 0x44, 0x57, 0x31, 0x30], count := 1, data := [0x34, 0x12]
      })) := by
  rfl

/-- Vector A-R2. -/
theorem test_decode_ascRdMb :
    decode (.asc [0x06, 0x30, 0x31, 0x72, 0x53, 0x42, 0x30, 0x35, 0x25, 0x4D, 0x42, 0x31, 0x30, 0x30, 0x31, 0x03,
      0x34, 0x43])
    = .ok (.ascRdMb ⟨0x30, 0x31, 0x25, [0x31, 0x30], 1⟩) := by
  rfl

/-- Vector A-R3. -/
theorem test_decode_ascRdPb :
    decode (.asc [0x06, 0x30, 0x35, 0x72, 0x53, 0x42, 0x30, 0x34, 0x25, 0x50, 0x42, 0x41, 0x30, 0x32, 0x03, 0x33,
      0x33])
    = .ok (.ascRdPb ⟨0x30, 0x35, 0x25, [0x41], 2⟩) := by
  rfl

/-- Vector A-R1. -/
theorem test_decode_ascRdDb :
    decode (.asc [0x06, 0x30, 0x31, 0x72, 0x53, 0x42, 0x30, 0x36, 0x25, 0x44, 0x42, 0x31, 0x30, 0x30, 0x30, 0x32,
      0x03, 0x37, 0x35])
    = .ok (.ascRdDb ⟨0x30, 0x31, 0x25, [0x31, 0x30, 0x30], 2⟩) := by
  rfl

/-- Vector A-R4. -/
theorem test_decode_ascRdTb :
    decode (.asc [0x06, 0x30, 0x31, 0x72, 0x53, 0x42, 0x30, 0x34, 0x25, 0x54, 0x42, 0x30, 0x30, 0x31, 0x03, 0x32,
      0x31])
    = .ok (.ascRdTb ⟨0x30, 0x31, 0x25, [0x30], 1⟩) := by
  rfl

/-- Vector A-W1. -/
theorem test_decode_ascWrMx :
    decode (.asc [0x06, 0x30, 0x31, 0x77, 0x53, 0x42, 0x30, 0x34, 0x25, 0x4D, 0x58, 0x46, 0x30, 0x31, 0x30, 0x31,
      0x03, 0x41, 0x43])
    = .ok (.ascWrMx ⟨0x30, 0x31, 0x25, [0x46], 1, [0x30, 0x31, 0x03]⟩) := by
  rfl

/-- Vector A-W3. -/
theorem test_decode_ascWrDx :
    decode (.asc [0x06, 0x30, 0x31, 0x77, 0x53, 0x42, 0x30, 0x34, 0x25, 0x44, 0x58, 0x41, 0x30, 0x31, 0x30, 0x31,
      0x03, 0x39, 0x45])
    = .ok (.ascWrDx ⟨0x30, 0x31, 0x25, [0x41], 1, [0x30, 0x31, 0x03]⟩) := by
  rfl

/-- Vector A-W5. -/
theorem test_decode_ascWrCw :
    decode (.asc [0x06, 0x30, 0x31, 0x77, 0x53, 0x42, 0x30, 0x34, 0x25, 0x43, 0x57, 0x34, 0x30, 0x31, 0x42, 0x45,
      0x45, 0x46, 0x03, 0x34, 0x30])
    = .ok (.ascWrCw ⟨0x30, 0x31, 0x25, [0x34], 1, [0x42, 0x45, 0x45, 0x46, 0x03]⟩) := by
  rfl

/-- Vector A-W6. -/
theorem test_decode_ascWrTw :
    decode (.asc [0x06, 0x30, 0x31, 0x77, 0x53, 0x42, 0x30, 0x34, 0x25, 0x54, 0x57, 0x30, 0x30, 0x32, 0x30, 0x31,
      0x30, 0x32, 0x30, 0x33, 0x30, 0x34, 0x03, 0x43, 0x36])
    = .ok (.ascWrTw ⟨0x30, 0x31, 0x25, [0x30], 2, [0x30, 0x31, 0x30, 0x32, 0x30, 0x33, 0x30, 0x34, 0x03]⟩) := by
  rfl

/-- Vector A-W7. -/
theorem test_decode_ascWrMw :
    decode (.asc [0x06, 0x30, 0x31, 0x77, 0x53, 0x42, 0x30, 0x38, 0x25, 0x4D, 0x57, 0x36, 0x35, 0x35, 0x33, 0x34,
      0x30, 0x31, 0x41, 0x41, 0x35, 0x35, 0x03, 0x46, 0x42])
    = .ok (.ascWrMw ⟨0x30, 0x31, 0x25, [0x36, 0x35, 0x35, 0x33, 0x34], 1, [0x41, 0x41, 0x35, 0x35, 0x03]⟩) := by
  rfl

/-- Vector A-W9. -/
theorem test_decode_ascWrDw :
    decode (.asc [0x06, 0x30, 0x31, 0x77, 0x53, 0x42, 0x30, 0x36, 0x25, 0x44, 0x57, 0x31, 0x30, 0x30, 0x30, 0x31,
      0x31, 0x32, 0x61, 0x62, 0x03, 0x42, 0x34])
    = .ok (.ascWrDw ⟨0x30, 0x31, 0x25, [0x31, 0x30, 0x30], 1, [0x31, 0x32, 0x61, 0x62, 0x03]⟩) := by
  rfl

/-- Vector A-W14. -/
theorem test_decode_ascWrDd :
    decode (.asc [0x06, 0x30, 0x31, 0x77, 0x53, 0x42, 0x30, 0x34, 0x25, 0x4D, 0x44, 0x30, 0x30, 0x31, 0x30, 0x30,
      0x30, 0x30, 0x30, 0x30, 0x30, 0x30, 0x03, 0x41, 0x31])
    = .ok (.ascWrDd 0x4D ⟨0x30, 0x31, 0x25, [0x30], 1, [0x30, 0x30, 0x30, 0x30, 0x30, 0x30, 0x30, 0x30, 0x03]⟩) := by
  rfl

/-- Vector A-W15. -/
theorem test_decode_ascWrDl :
    decode (.asc [0x06, 0x30, 0x31, 0x77, 0x53, 0x42, 0x30, 0x34, 0x25, 0x44, 0x4C, 0x30, 0x30, 0x31, 0x30, 0x30,
      0x30, 0x30, 0x30, 0x30, 0x30, 0x30, 0x30, 0x30, 0x30, 0x30, 0x30, 0x30, 0x30, 0x30, 0x03, 0x32, 0x30])
    = .ok (.ascWrDl 0x44 ⟨0x30, 0x31, 0x25, [0x30], 1, [0x30, 0x30, 0x30, 0x30, 0x30, 0x30, 0x30, 0x30, 0x30, 0x30,
      0x30, 0x30, 0x30, 0x30, 0x30, 0x30, 0x03]⟩) := by
  rfl

/-- Vector A-W32. -/
theorem test_decode_ascWssMx :
    decode (.asc [0x06, 0x30, 0x31, 0x57, 0x53, 0x53, 0x30, 0x30, 0x34, 0x25, 0x4D, 0x58, 0x30, 0x30, 0x31, 0x30,
      0x31, 0x03, 0x42, 0x37])
    = .ok (.ascWssMx ⟨0x30, 0x31, 0x25, [0x30], 1, [0x30, 0x31, 0x03]⟩) := by
  rfl

/-- Vector A-W26. -/
theorem test_decode_ascWssDx :
    decode (.asc [0x06, 0x30, 0x31, 0x57, 0x53, 0x53, 0x30, 0x30, 0x34, 0x25, 0x44, 0x58, 0x38, 0x30, 0x31, 0x30,
      0x31, 0x03, 0x42, 0x36])
    = .ok (.ascWssDx ⟨0x30, 0x31, 0x25, [0x38], 1, [0x30, 0x31, 0x03]⟩) := by
  rfl

/-- Vector A-W27. -/
theorem test_decode_ascWssCw :
    decode (.asc [0x06, 0x30, 0x31, 0x57, 0x53, 0x53, 0x5A, 0x30, 0x34, 0x25, 0x43, 0x57, 0x30, 0x30, 0x31, 0x30,
      0x31, 0x30, 0x32, 0x03, 0x33, 0x38])
    = .ok (.ascWssCw ⟨0x30, 0x31, 0x25, [0x30], 1, [0x30, 0x31, 0x30, 0x32, 0x03]⟩) := by
  rfl

/-- Vector A-W31. -/
theorem test_decode_ascWssTw :
    decode (.asc [0x06, 0x30, 0x31, 0x57, 0x53, 0x53, 0x30, 0x30, 0x34, 0x25, 0x54, 0x57, 0x32, 0x30, 0x31, 0x46,
      0x46, 0x46, 0x46, 0x03, 0x37, 0x36])
    = .ok (.ascWssTw ⟨0x30, 0x31, 0x25, [0x32], 1, [0x46, 0x46, 0x46, 0x46, 0x03]⟩) := by
  rfl

/-- Vector A-W25. -/
theorem test_decode_ascWssMw :
    decode (.asc [0x06, 0x30, 0x31, 0x57, 0x53, 0x53, 0x30, 0x30, 0x35, 0x25, 0x4D, 0x57, 0x31, 0x30, 0x30, 0x31,
      0x43, 0x41, 0x46, 0x45, 0x03, 0x39, 0x36])
    = .ok (.ascWssMw ⟨0x30, 0x31, 0x25, [0x31, 0x30], 1, [0x43, 0x41, 0x46, 0x45, 0x03]⟩) := by
  rfl

/-- Vector A-W33. -/
theorem test_decode_ascWssDw :
    decode (.asc [0x06, 0x30, 0x31, 0x57, 0x53, 0x53, 0x30, 0x30, 0x34, 0x25, 0x44, 0x57, 0x30, 0x30, 0x31, 0x30,
      0x30, 0x30, 0x31, 0x03, 0x30, 0x44])
    = .ok (.ascWssDw ⟨0x30, 0x31, 0x25, [0x30], 1, [0x30, 0x30, 0x30, 0x31, 0x03]⟩) := by
  rfl

/-- Vector A-W28. -/
theorem test_decode_ascWssDd :
    decode (.asc [0x06, 0x30, 0x31, 0x57, 0x53, 0x53, 0x30, 0x30, 0x34, 0x25, 0x44, 0x44, 0x30, 0x30, 0x31, 0x30,
      0x30, 0x30, 0x30, 0x30, 0x30, 0x30, 0x30, 0x03, 0x42, 0x39])
    = .ok (.ascWssDd 0x44 ⟨0x30, 0x31, 0x25, [0x30], 1, [0x30, 0x30, 0x30, 0x30, 0x30, 0x30, 0x30, 0x30, 0x03]⟩) := by
  rfl

/-- Vector A-W29. -/
theorem test_decode_ascWssDl :
    decode (.asc [0x06, 0x30, 0x31, 0x57, 0x53, 0x53, 0x30, 0x30, 0x34, 0x25, 0x4D, 0x4C, 0x30, 0x30, 0x31, 0x30,
      0x30, 0x03, 0x41, 0x41])
    = .ok (.ascWssDl 0x4D ⟨0x30, 0x31, 0x25, [0x30], 1, [0x30, 0x30, 0x03]⟩) := by
  rfl

/-- Host operations carry no bytes (R99, R270): the operation names its command. -/
theorem test_decode_host (t d : Bytes) (n : Nat) (v : Bool) :
    decode (.host (.read t n)) = .ok (.hostRead t n) ∧ decode (.host (.write t d)) = .ok (.hostWrite t d)
    ∧ decode (.host (.readbit t)) = .ok (.hostReadbit t) ∧ decode (.host (.writebit t v)) = .ok (.hostWritebit t v)
    ∧ decode (.host .exportSnapshot) = .ok .hostExport ∧ decode (.host (.importSnapshot d)) = .ok (.hostImport d) :=
  ⟨rfl, rfl, rfl, rfl, rfl, rfl⟩

/-! ## Encoding -/

/-- The frame of vector B-W1, which fills the uninterpreted bytes as the encoder does. -/
theorem test_encode_binWrite :
    (decode (.bin 0 [0x80, 0x81, 0x82, 0x83, 0x84, 0x85, 0x86, 0x87, 0x88, 0x89, 0x8A, 0x8B, 0x8C, 0x8D, 0x8E, 0x8F,
      0x90, 0x91, 0x92, 0x93, 0x58, 0x00, 0x00, 0x00, 0x00, 0x00, 0x00, 0x00, 0x06, 0x00, 0x00, 0x25, 0x44, 0x57,
      0x31, 0x30, 0x01, 0x00, 0x34, 0x12])).map encode
    = .ok (.bin 0 [0x80, 0x81, 0x82, 0x83, 0x84, 0x85, 0x86, 0x87, 0x88, 0x89, 0x8A, 0x8B, 0x8C, 0x8D, 0x8E, 0x8F,
      0x90, 0x91, 0x92, 0x93, 0x58, 0x00, 0x00, 0x00, 0x00, 0x00, 0x00, 0x00, 0x06, 0x00, 0x00, 0x25, 0x44, 0x57,
      0x31, 0x30, 0x01, 0x00, 0x34, 0x12]) := by
  rfl

/-- The frame of vector A-R3, which fills the uninterpreted bytes as the encoder does. -/
theorem test_encode_ascRdPb :
    (decode (.asc [0x06, 0x30, 0x35, 0x72, 0x53, 0x42, 0x30, 0x34, 0x25, 0x50, 0x42, 0x41, 0x30, 0x32, 0x03, 0x33,
      0x33])).map encode
    = .ok (.asc [0x06, 0x30, 0x35, 0x72, 0x53, 0x42, 0x30, 0x34, 0x25, 0x50, 0x42, 0x41, 0x30, 0x32, 0x03, 0x33,
      0x33]) := by
  rfl

/-- The frame of vector A-W1, which fills the uninterpreted bytes as the encoder does. -/
theorem test_encode_ascWrMx :
    (decode (.asc [0x06, 0x30, 0x31, 0x77, 0x53, 0x42, 0x30, 0x34, 0x25, 0x4D, 0x58, 0x46, 0x30, 0x31, 0x30, 0x31,
      0x03, 0x41, 0x43])).map encode
    = .ok (.asc [0x06, 0x30, 0x31, 0x77, 0x53, 0x42, 0x30, 0x34, 0x25, 0x4D, 0x58, 0x46, 0x30, 0x31, 0x30, 0x31,
      0x03, 0x41, 0x43]) := by
  rfl

/-- The frame of vector A-W25, which fills the uninterpreted bytes as the encoder does. -/
theorem test_encode_ascWssMw :
    (decode (.asc [0x06, 0x30, 0x31, 0x57, 0x53, 0x53, 0x30, 0x30, 0x35, 0x25, 0x4D, 0x57, 0x31, 0x30, 0x30, 0x31,
      0x43, 0x41, 0x46, 0x45, 0x03, 0x39, 0x36])).map encode
    = .ok (.asc [0x06, 0x30, 0x31, 0x57, 0x53, 0x53, 0x30, 0x30, 0x35, 0x25, 0x4D, 0x57, 0x31, 0x30, 0x30, 0x31,
      0x43, 0x41, 0x46, 0x45, 0x03, 0x39, 0x36]) := by
  rfl

/-! ## Requests that select no command -/

/-- Vector B-U1. -/
theorem test_reject_response_command_byte :
    decode (.bin 0 [0x80, 0x81, 0x82, 0x83, 0x84, 0x85, 0x86, 0x87, 0x88, 0x89, 0x8A, 0x8B, 0x8C, 0x8D, 0x8E, 0x8F,
      0x90, 0x91, 0x92, 0x93, 0x55, 0x00, 0x00, 0x00, 0x00, 0x00, 0x00, 0x00, 0x05, 0x00, 0x00, 0x25, 0x4D, 0x57,
      0x30, 0x01, 0x00])
    = .error .unsupportedCommand := by
  rfl

/-- Vector B-M1. -/
theorem test_reject_short_binary_frame :
    decode (.bin 0 [0x80, 0x81, 0x82, 0x83, 0x84, 0x85, 0x86, 0x87, 0x88, 0x89, 0x8A, 0x8B, 0x8C, 0x8D, 0x8E, 0x8F,
      0x90, 0x91, 0x92, 0x93])
    = .error .malformedFrame := by
  rfl

/-- Vector A-W24. -/
theorem test_reject_wsb_token :
    decode (.asc [0x06, 0x30, 0x31, 0x57, 0x53, 0x42, 0x30, 0x34, 0x25, 0x4D, 0x57, 0x30, 0x30, 0x31, 0x30, 0x31,
      0x30, 0x32, 0x03, 0x44, 0x37])
    = .error .unsupportedCommand := by
  rfl

/-- Vector A-R7. -/
theorem test_reject_qb_pair :
    decode (.asc [0x06, 0x30, 0x31, 0x72, 0x53, 0x42, 0x30, 0x34, 0x25, 0x51, 0x42, 0x30, 0x30, 0x31, 0x03, 0x31,
      0x45])
    = .error .unsupportedArea := by
  rfl

/-- Vector A-W30. -/
theorem test_reject_shifted_header :
    decode (.asc [0x06, 0x30, 0x31, 0x57, 0x53, 0x53, 0x30, 0x34, 0x25, 0x4D, 0x57, 0x30, 0x30, 0x31, 0x30, 0x31,
      0x30, 0x32, 0x03, 0x30, 0x30])
    = .error .malformedFrame := by
  rfl

/-- Vector A-R15. -/
theorem test_reject_short_address :
    decode (.asc [0x06, 0x30, 0x31, 0x72, 0x53, 0x42, 0x30, 0x32, 0x25, 0x4D, 0x30, 0x31, 0x03, 0x41, 0x36])
    = .error .invalidAddress := by
  rfl

/-! ## The opcode table's words -/

theorem test_table_word_read :
    decodeTableWord 8 0x54 = some (.binRead 0 (List.replicate 20 0) none) := by rfl

theorem test_table_word_write :
    decodeTableWord 8 0x58 = some (.binWrite 0 (List.replicate 20 0) none) := by rfl

/-- The first step after reset runs it: a frame of zeros has `N = 0`, so the port reports `MalformedFrame` (R171). -/
theorem test_table_word_runs :
    (match step (State.reset.withFetchWord 8 0x54) with
      | .next t => (t.bin.map BinPort.status, t.bin.map BinPort.close)
      | _ => ([], [])) = ([[.error .malformedFrame], []], [true, false]) := by decide

/-! ## One step of each port

`binStep` steps a block in which port 0 holds one frame, `serStep` one whose framer waits for the last byte of a frame,
`hostStep` one with one operation requested: what the step leaves in the store and puts out. -/

def binStep (st : Store) (F : Bytes) : Option (Store × List Bytes × List Status × Bool) :=
  let s := (State.reset.openPort 0).deliverFrame 0 F
  match step { s with store := st } with
  | .next t => (t.bin[0]?).map fun p => (t.store, p.outQ, p.status, p.close)
  | _ => none

def serStep (st : Store) (W : Bytes) : Option (Store × Bytes × List Status) :=
  let n := W.length - 1
  match step { State.reset with store := st, ser := { SerPort.reset with fs := .ck2, buf := W.take n, rx := W.drop n } } with
  | .next t => some (t.store, t.ser.tx, t.ser.status)
  | _ => none

def hostStep (cap : Nat) (st : Store) (op : HostOp) : Option (Store × List HostResult) :=
  match step { (State.resetOf { Params.default with cap := cap }).request op with store := st } with
  | .next t => some (t.store, t.host.outQ)
  | _ => none

/-- Vector L1-2. -/
theorem test_bin_read :
    binStep ({ Store.zero with m := [(0, 0x11), (1, 0x22), (2, 0x33), (3, 0x44)] }) [0x80, 0x81, 0x82, 0x83, 0x84,
      0x85, 0x86, 0x87, 0x88, 0x89, 0x8A, 0x8B, 0x8C, 0x8D, 0x8E, 0x8F, 0x90, 0x91, 0x92, 0x93, 0x54, 0x00, 0x00,
      0x00, 0x00, 0x00, 0x00, 0x00, 0x05, 0x00, 0x00, 0x25, 0x4D, 0x57, 0x30, 0x04, 0x00]
    = some ({ Store.zero with m := [(0, 0x11), (1, 0x22), (2, 0x33), (3, 0x44)] }, [[0x80, 0x81, 0x82, 0x83, 0x84,
      0x85, 0x86, 0x87, 0x88, 0x11, 0x01, 0x8B, 0xA0, 0x11, 0x8E, 0x8F, 0x10, 0x91, 0x03, 0x93, 0x55, 0x00, 0x14,
      0x00, 0x08, 0x01, 0x00, 0x00, 0x01, 0x00, 0x04, 0x00, 0x11, 0x22, 0x33, 0x44]], [.ok], false) := by
  decide

/-- Vector B-R7. -/
theorem test_bin_read_any_unnamed_bytes :
    binStep ({ Store.zero with m := [(0, 0x42)] }) [0x00, 0x00, 0x00, 0x00, 0x00, 0x00, 0x00, 0x00, 0x00, 0x00, 0x00,
      0x00, 0x00, 0x00, 0x00, 0x00, 0x00, 0x00, 0x00, 0x00, 0x54, 0xAA, 0xAA, 0xAA, 0xAA, 0xAA, 0xAA, 0xAA, 0x05,
      0xBB, 0xBB, 0x25, 0x4D, 0x57, 0x30, 0x01, 0x00]
    = some ({ Store.zero with m := [(0, 0x42)] }, [[0x00, 0x00, 0x00, 0x00, 0x00, 0x00, 0x00, 0x00, 0x00, 0x11, 0x01,
      0x00, 0xA0, 0x11, 0x00, 0x00, 0x0D, 0x00, 0x03, 0x00, 0x55, 0x00, 0x14, 0x00, 0x08, 0x01, 0x00, 0x00, 0x01,
      0x00, 0x01, 0x00, 0x42]], [.ok], false) := by
  decide

/-- Vector B-W1. -/
theorem test_bin_write :
    binStep Store.zero [0x80, 0x81, 0x82, 0x83, 0x84, 0x85, 0x86, 0x87, 0x88, 0x89, 0x8A, 0x8B, 0x8C, 0x8D, 0x8E,
      0x8F, 0x90, 0x91, 0x92, 0x93, 0x58, 0x00, 0x00, 0x00, 0x00, 0x00, 0x00, 0x00, 0x06, 0x00, 0x00, 0x25, 0x44,
      0x57, 0x31, 0x30, 0x01, 0x00, 0x34, 0x12]
    = some ({ Store.zero with d := [(10, 0x34), (11, 0x12)] }, [[0x80, 0x81, 0x82, 0x83, 0x84, 0x85, 0x86, 0x87,
      0x88, 0x11, 0x01, 0x8B, 0xA0, 0x11, 0x8E, 0x8F, 0x0A, 0x91, 0x03, 0x93, 0x59, 0x00, 0x14, 0x00, 0x08, 0x01,
      0x00, 0x00, 0x01, 0x00]], [.ok], false) := by
  decide

/-- Vector B-W4. -/
theorem test_bin_write_short_payload_closes :
    binStep Store.zero [0x80, 0x81, 0x82, 0x83, 0x84, 0x85, 0x86, 0x87, 0x88, 0x89, 0x8A, 0x8B, 0x8C, 0x8D, 0x8E,
      0x8F, 0x90, 0x91, 0x92, 0x93, 0x58, 0x00, 0x00, 0x00, 0x00, 0x00, 0x00, 0x00, 0x05, 0x00, 0x00, 0x25, 0x4D,
      0x57, 0x30, 0x02, 0x00, 0xAA, 0xBB, 0xCC]
    = some (Store.zero, [], [.error .malformedFrame], true) := by
  decide

/-- Vector A-R2. -/
theorem test_rd_mb_unaligned :
    serStep ({ Store.zero with m := [(1, 0xFF), (2, 0x03)] }) [0x06, 0x30, 0x31, 0x72, 0x53, 0x42, 0x30, 0x35, 0x25,
      0x4D, 0x42, 0x31, 0x30, 0x30, 0x31, 0x03, 0x34, 0x43]
    = some ({ Store.zero with m := [(1, 0xFF), (2, 0x03)] }, [0x06, 0x30, 0x31, 0x72, 0x53, 0x42, 0x30, 0x31, 0x30,
      0x31, 0x46, 0x46, 0x03, 0x42, 0x46], [.ok]) := by
  decide

/-- Vector A-R19. -/
theorem test_rd_mb_last_bits :
    serStep ({ Store.zero with m := [(65535, 0x81)] }) [0x06, 0x30, 0x31, 0x72, 0x53, 0x42, 0x30, 0x39, 0x25, 0x4D,
      0x42, 0x35, 0x32, 0x34, 0x32, 0x38, 0x30, 0x30, 0x31, 0x03, 0x32, 0x34]
    = some ({ Store.zero with m := [(65535, 0x81)] }, [0x06, 0x30, 0x31, 0x72, 0x53, 0x42, 0x30, 0x31, 0x30, 0x31,
      0x38, 0x31, 0x03, 0x39, 0x43], [.ok]) := by
  decide

/-- Vector A-R3. -/
theorem test_rd_pb :
    serStep ({ Store.zero with p := [(1, 0xFC), (2, 0xFF), (3, 0x03)] }) [0x06, 0x30, 0x35, 0x72, 0x53, 0x42, 0x30,
      0x34, 0x25, 0x50, 0x42, 0x41, 0x30, 0x32, 0x03, 0x33, 0x33]
    = some ({ Store.zero with p := [(1, 0xFC), (2, 0xFF), (3, 0x03)] }, [0x06, 0x30, 0x35, 0x72, 0x53, 0x42, 0x30,
      0x31, 0x30, 0x32, 0x46, 0x46, 0x46, 0x46, 0x03, 0x35, 0x30], [.ok]) := by
  decide

/-- Vector A-R1. -/
theorem test_rd_db :
    serStep ({ Store.zero with d := [(100, 0x12), (101, 0xAB)] }) [0x06, 0x30, 0x31, 0x72, 0x53, 0x42, 0x30, 0x36,
      0x25, 0x44, 0x42, 0x31, 0x30, 0x30, 0x30, 0x32, 0x03, 0x37, 0x35]
    = some ({ Store.zero with d := [(100, 0x12), (101, 0xAB)] }, [0x06, 0x30, 0x31, 0x72, 0x53, 0x42, 0x30, 0x31,
      0x30, 0x32, 0x31, 0x32, 0x41, 0x42, 0x03, 0x31, 0x41], [.ok]) := by
  decide

/-- Vector A-R8. -/
theorem test_rd_db_letter_index :
    serStep Store.zero [0x06, 0x30, 0x31, 0x72, 0x53, 0x42, 0x30, 0x34, 0x25, 0x44, 0x42, 0x41, 0x30, 0x31, 0x03,
      0x32, 0x32]
    = some (Store.zero, [], [.error .invalidAddress]) := by
  decide

/-- Vector A-R4. -/
theorem test_rd_tb :
    serStep ({ Store.zero with q := [(0, 0x5A)] }) [0x06, 0x30, 0x31, 0x72, 0x53, 0x42, 0x30, 0x34, 0x25, 0x54, 0x42,
      0x30, 0x30, 0x31, 0x03, 0x32, 0x31]
    = some ({ Store.zero with q := [(0, 0x5A)] }, [0x06, 0x30, 0x31, 0x72, 0x53, 0x42, 0x30, 0x31, 0x30, 0x31, 0x35,
      0x41, 0x03, 0x41, 0x39], [.ok]) := by
  decide

/-- Vector A-W1. -/
theorem test_wr_mx :
    serStep Store.zero [0x06, 0x30, 0x31, 0x77, 0x53, 0x42, 0x30, 0x34, 0x25, 0x4D, 0x58, 0x46, 0x30, 0x31, 0x30,
      0x31, 0x03, 0x41, 0x43]
    = some ({ Store.zero with m := [(1, 0x80)] }, [0x06, 0x30, 0x31, 0x77, 0x53, 0x42, 0x03, 0x37, 0x36], [.ok]) := by
  decide

/-- Vector A-W2. -/
theorem test_wr_mx_other_text_clears :
    serStep ({ Store.zero with m := [(0, 0xFF)] }) [0x06, 0x30, 0x31, 0x77, 0x53, 0x42, 0x30, 0x34, 0x25, 0x4D, 0x58,
      0x30, 0x30, 0x31, 0x31, 0x31, 0x03, 0x39, 0x37]
    = some ({ Store.zero with m := [(0, 0xFE)] }, [0x06, 0x30, 0x31, 0x77, 0x53, 0x42, 0x03, 0x37, 0x36], [.ok]) := by
  decide

/-- Vector A-W3. -/
theorem test_wr_dx :
    serStep Store.zero [0x06, 0x30, 0x31, 0x77, 0x53, 0x42, 0x30, 0x34, 0x25, 0x44, 0x58, 0x41, 0x30, 0x31, 0x30,
      0x31, 0x03, 0x39, 0x45]
    = some ({ Store.zero with d := [(1, 0x04)] }, [0x06, 0x30, 0x31, 0x77, 0x53, 0x42, 0x03, 0x37, 0x36], [.ok]) := by
  decide

/-- Vector A-W34. -/
theorem test_wr_dx_past_the_end :
    serStep Store.zero [0x06, 0x30, 0x31, 0x77, 0x53, 0x42, 0x30, 0x39, 0x25, 0x44, 0x58, 0x35, 0x32, 0x34, 0x32,
      0x38, 0x38, 0x30, 0x31, 0x30, 0x31, 0x03, 0x39, 0x46]
    = some (Store.zero, [], [.error .outOfRange]) := by
  decide

/-- Vector A-W5. -/
theorem test_wr_cw :
    serStep Store.zero [0x06, 0x30, 0x31, 0x77, 0x53, 0x42, 0x30, 0x34, 0x25, 0x43, 0x57, 0x34, 0x30, 0x31, 0x42,
      0x45, 0x45, 0x46, 0x03, 0x34, 0x30]
    = some ({ Store.zero with p := [(4, 0xBE), (5, 0xEF)] }, [0x06, 0x30, 0x31, 0x77, 0x53, 0x42, 0x03, 0x37, 0x36],
      [.ok]) := by
  decide

/-- Vector A-W35. -/
theorem test_wr_cw_letter_index :
    serStep Store.zero [0x06, 0x30, 0x31, 0x77, 0x53, 0x42, 0x30, 0x34, 0x25, 0x43, 0x57, 0x41, 0x30, 0x31, 0x30,
      0x31, 0x30, 0x32, 0x03, 0x46, 0x45]
    = some (Store.zero, [], [.error .invalidAddress]) := by
  decide

/-- Vector A-W6. -/
theorem test_wr_tw :
    serStep Store.zero [0x06, 0x30, 0x31, 0x77, 0x53, 0x42, 0x30, 0x34, 0x25, 0x54, 0x57, 0x30, 0x30, 0x32, 0x30,
      0x31, 0x30, 0x32, 0x30, 0x33, 0x30, 0x34, 0x03, 0x43, 0x36]
    = some ({ Store.zero with q := [(0, 0x01), (1, 0x02), (2, 0x03), (3, 0x04)] }, [0x06, 0x30, 0x31, 0x77, 0x53,
      0x42, 0x03, 0x37, 0x36], [.ok]) := by
  decide

/-- Vector A-W7. -/
theorem test_wr_mw_last_word :
    serStep Store.zero [0x06, 0x30, 0x31, 0x77, 0x53, 0x42, 0x30, 0x38, 0x25, 0x4D, 0x57, 0x36, 0x35, 0x35, 0x33,
      0x34, 0x30, 0x31, 0x41, 0x41, 0x35, 0x35, 0x03, 0x46, 0x42]
    = some ({ Store.zero with m := [(65534, 0xAA), (65535, 0x55)] }, [0x06, 0x30, 0x31, 0x77, 0x53, 0x42, 0x03, 0x37,
      0x36], [.ok]) := by
  decide

/-- Vector A-W8. -/
theorem test_wr_mw_past_the_end :
    serStep Store.zero [0x06, 0x30, 0x31, 0x77, 0x53, 0x42, 0x30, 0x38, 0x25, 0x4D, 0x57, 0x36, 0x35, 0x35, 0x33,
      0x35, 0x30, 0x31, 0x41, 0x41, 0x35, 0x35, 0x03, 0x46, 0x43]
    = some (Store.zero, [], [.error .outOfRange]) := by
  decide

/-- Vector A-W9. -/
theorem test_wr_dw_lower_case :
    serStep Store.zero [0x06, 0x30, 0x31, 0x77, 0x53, 0x42, 0x30, 0x36, 0x25, 0x44, 0x57, 0x31, 0x30, 0x30, 0x30,
      0x31, 0x31, 0x32, 0x61, 0x62, 0x03, 0x42, 0x34]
    = some ({ Store.zero with d := [(100, 0x12), (101, 0xAB)] }, [0x06, 0x30, 0x31, 0x77, 0x53, 0x42, 0x03, 0x37,
      0x36], [.ok]) := by
  decide

/-- Vector A-W12. -/
theorem test_wr_dw_short_payload :
    serStep Store.zero [0x06, 0x30, 0x31, 0x77, 0x53, 0x42, 0x30, 0x34, 0x25, 0x44, 0x57, 0x30, 0x30, 0x32, 0x30,
      0x31, 0x30, 0x32, 0x03, 0x45, 0x46]
    = some (Store.zero, [], [.error .malformedFrame]) := by
  decide

/-- Vector A-W14. -/
theorem test_wr_dd :
    serStep Store.zero [0x06, 0x30, 0x31, 0x77, 0x53, 0x42, 0x30, 0x34, 0x25, 0x4D, 0x44, 0x30, 0x30, 0x31, 0x30,
      0x30, 0x30, 0x30, 0x30, 0x30, 0x30, 0x30, 0x03, 0x41, 0x31]
    = some (Store.zero, [], [.error .unimplemented]) := by
  decide

/-- Vector A-W16. -/
theorem test_wr_dd_any_area :
    serStep Store.zero [0x06, 0x30, 0x31, 0x77, 0x53, 0x42, 0x30, 0x34, 0x25, 0x5A, 0x44, 0x30, 0x30, 0x31, 0x7A,
      0x7A, 0x03, 0x32, 0x32]
    = some (Store.zero, [], [.error .unimplemented]) := by
  decide

/-- Vector A-W15. -/
theorem test_wr_dl :
    serStep Store.zero [0x06, 0x30, 0x31, 0x77, 0x53, 0x42, 0x30, 0x34, 0x25, 0x44, 0x4C, 0x30, 0x30, 0x31, 0x30,
      0x30, 0x30, 0x30, 0x30, 0x30, 0x30, 0x30, 0x30, 0x30, 0x30, 0x30, 0x30, 0x30, 0x30, 0x30, 0x03, 0x32, 0x30]
    = some (Store.zero, [], [.error .unimplemented]) := by
  decide

/-- Vector A-W32. -/
theorem test_wss_mx :
    serStep Store.zero [0x06, 0x30, 0x31, 0x57, 0x53, 0x53, 0x30, 0x30, 0x34, 0x25, 0x4D, 0x58, 0x30, 0x30, 0x31,
      0x30, 0x31, 0x03, 0x42, 0x37]
    = some ({ Store.zero with m := [(0, 0x01)] }, [0x06, 0x30, 0x31, 0x57, 0x53, 0x42, 0x03, 0x35, 0x36], [.ok]) := by
  decide

/-- Vector A-W26. -/
theorem test_wss_dx :
    serStep Store.zero [0x06, 0x30, 0x31, 0x57, 0x53, 0x53, 0x30, 0x30, 0x34, 0x25, 0x44, 0x58, 0x38, 0x30, 0x31,
      0x30, 0x31, 0x03, 0x42, 0x36]
    = some ({ Store.zero with d := [(1, 0x01)] }, [0x06, 0x30, 0x31, 0x57, 0x53, 0x42, 0x03, 0x35, 0x36], [.ok]) := by
  decide

/-- Vector A-W27. -/
theorem test_wss_cw :
    serStep Store.zero [0x06, 0x30, 0x31, 0x57, 0x53, 0x53, 0x5A, 0x30, 0x34, 0x25, 0x43, 0x57, 0x30, 0x30, 0x31,
      0x30, 0x31, 0x30, 0x32, 0x03, 0x33, 0x38]
    = some ({ Store.zero with p := [(0, 0x01), (1, 0x02)] }, [0x06, 0x30, 0x31, 0x57, 0x53, 0x42, 0x03, 0x35, 0x36],
      [.ok]) := by
  decide

/-- Vector A-W31. -/
theorem test_wss_tw :
    serStep Store.zero [0x06, 0x30, 0x31, 0x57, 0x53, 0x53, 0x30, 0x30, 0x34, 0x25, 0x54, 0x57, 0x32, 0x30, 0x31,
      0x46, 0x46, 0x46, 0x46, 0x03, 0x37, 0x36]
    = some ({ Store.zero with q := [(2, 0xFF), (3, 0xFF)] }, [0x06, 0x30, 0x31, 0x57, 0x53, 0x42, 0x03, 0x35, 0x36],
      [.ok]) := by
  decide

/-- Vector A-W25. -/
theorem test_wss_mw :
    serStep Store.zero [0x06, 0x30, 0x31, 0x57, 0x53, 0x53, 0x30, 0x30, 0x35, 0x25, 0x4D, 0x57, 0x31, 0x30, 0x30,
      0x31, 0x43, 0x41, 0x46, 0x45, 0x03, 0x39, 0x36]
    = some ({ Store.zero with m := [(10, 0xCA), (11, 0xFE)] }, [0x06, 0x30, 0x31, 0x57, 0x53, 0x42, 0x03, 0x35,
      0x36], [.ok]) := by
  decide

/-- Vector A-W33. -/
theorem test_wss_dw :
    serStep Store.zero [0x06, 0x30, 0x31, 0x57, 0x53, 0x53, 0x30, 0x30, 0x34, 0x25, 0x44, 0x57, 0x30, 0x30, 0x31,
      0x30, 0x30, 0x30, 0x31, 0x03, 0x30, 0x44]
    = some ({ Store.zero with d := [(1, 0x01)] }, [0x06, 0x30, 0x31, 0x57, 0x53, 0x42, 0x03, 0x35, 0x36], [.ok]) := by
  decide

/-- Vector A-W28. -/
theorem test_wss_dd :
    serStep Store.zero [0x06, 0x30, 0x31, 0x57, 0x53, 0x53, 0x30, 0x30, 0x34, 0x25, 0x44, 0x44, 0x30, 0x30, 0x31,
      0x30, 0x30, 0x30, 0x30, 0x30, 0x30, 0x30, 0x30, 0x03, 0x42, 0x39]
    = some (Store.zero, [], [.error .unimplemented]) := by
  decide

/-- Vector A-W29. -/
theorem test_wss_dl :
    serStep Store.zero [0x06, 0x30, 0x31, 0x57, 0x53, 0x53, 0x30, 0x30, 0x34, 0x25, 0x4D, 0x4C, 0x30, 0x30, 0x31,
      0x30, 0x30, 0x03, 0x41, 0x41]
    = some (Store.zero, [], [.error .unimplemented]) := by
  decide

/-! The host vectors of 95_test_vectors.md section 2.8. -/

theorem test_host_read :
    hostStep 65536 ({ Store.zero with m := [(100, 0x07)] }) (.read [0x78, 0x4D, 0x31, 0x30, 0x30] 1)
    = some ({ Store.zero with m := [(100, 0x07)] }, [.ok (.bytes [0x07])]) := by
  decide

theorem test_host_read_past_the_end :
    hostStep 65536 Store.zero (.read [0x78, 0x4D, 0x36, 0x35, 0x35, 0x33, 0x35] 2)
    = some (Store.zero, [.error .outOfRange]) := by
  decide

theorem test_host_write :
    hostStep 65536 Store.zero (.write [0x25, 0x51, 0x42, 0x32] [0x01, 0x02])
    = some ({ Store.zero with q := [(2, 0x01), (3, 0x02)] }, [.ok .done]) := by
  decide

theorem test_host_write_past_the_end :
    hostStep 65536 Store.zero (.write [0x78, 0x51, 0x36, 0x35, 0x35, 0x33, 0x36] [0x01])
    = some (Store.zero, [.error .outOfRange]) := by
  decide

theorem test_host_readbit_last :
    hostStep 65536 ({ Store.zero with m := [(65535, 0x80)] }) (.readbit [0x78, 0x4D, 0x35, 0x32, 0x34, 0x32, 0x38,
      0x37])
    = some ({ Store.zero with m := [(65535, 0x80)] }, [.ok (.bit true)]) := by
  decide

theorem test_host_writebit_clears :
    hostStep 65536 ({ Store.zero with d := [(0, 0xFF)] }) (.writebit [0x78, 0x44, 0x30] false)
    = some ({ Store.zero with d := [(0, 0xFE)] }, [.ok .done]) := by
  decide

theorem test_host_writebit_sets :
    hostStep 65536 Store.zero (.writebit [0x78, 0x44, 0x57, 0x39] true)
    = some ({ Store.zero with d := [(1, 0x02)] }, [.ok .done]) := by
  decide

/-- R276's example, with areas of 2 bytes: `Q[0]` is image byte `CAP`. -/
theorem test_host_export :
    hostStep 2 { Store.zero with q := [(0, 0x01)] } .exportSnapshot
      = some ({ Store.zero with q := [(0, 0x01)] }, [.ok (.bytes [0, 0, 1, 0, 0, 0, 0, 0])]) := by
  decide

/-- R277: an image of `4 * CAP` bytes, its first `CAP` bytes in area `P` and its last in area `D`. -/
theorem test_host_import :
    hostStep 2 Store.zero (.importSnapshot [1, 2, 0, 0, 0, 0, 0, 9])
      = some ({ Store.zero with p := [(0, 1), (1, 2)], d := [(1, 9)] }, [.ok .done]) := by
  decide

/-- R277: one byte less. -/
theorem test_host_import_wrong_size :
    hostStep 2 Store.zero (.importSnapshot [1, 2, 0, 0, 0, 0, 0]) = some (Store.zero, [.error .malformedSnapshot]) := by
  decide

/-! ## Framer (vectors F-4, F-5 and F-3 of 95_test_vectors.md section 2.5, on the bytes that matter) -/

/-- Both checksum positions take any byte, `ETX` and `ENQ` among them (F-4). -/
theorem test_framer_checksum_takes_any_byte :
    framerRun 2048 .hunt [] [0x41, 0x06, 0x30, 0x03, 0x03, 0x06, 0x31] = (.hunt, [], [[0x06, 0x30, 0x03, 0x03, 0x06]]) := by
  decide

/-- The shortest frame (F-5). -/
theorem test_framer_shortest_frame :
    framerRun 2048 .hunt [] [0x06, 0x03, 0x30, 0x30] = (.hunt, [], [[0x06, 0x03, 0x30, 0x30]]) := by decide

/-- Past `MAX_ASCII_FRAME - 3` bytes of `ENQ` and body the partial frame is dropped; at that length it is not (F-3, R201). -/
theorem test_framer_overflow :
    framerRun 6 .hunt [] [0x06, 0x78, 0x78] = (.body, [0x06, 0x78, 0x78], [])
    ∧ framerRun 6 .hunt [] [0x06, 0x78, 0x78, 0x78] = (.hunt, [], []) := by decide
/-! ## Witnesses

Each theorem meets the hypotheses of the statement it names, together; where a statement has several clauses, each
clause at a boundary of its range. `area4` is a block with areas of 4 bytes. -/

/-- A block out of reset with areas of 4 bytes. -/
def area4 : State := State.resetOf { Params.default with cap := 4 }

/-- `area4` with port 0 open and holding `F`. -/
def area4Holding (F : Bytes) : State := (area4.openPort 0).deliverFrame 0 F

theorem store_ok_zero (cap : Nat) : Store.zero.Ok cap := fun a => by cases a <;> exact ⟨rfl, rfl⟩

theorem area4_ok : area4.store.Ok area4.cfg.cap := store_ok_zero 4

theorem reset_inv : State.reset.Inv where
  legal := by decide
  booted := rfl
  ports := rfl
  store := store_ok_zero _
  closed := fun p hp => by rw [List.eq_of_mem_replicate hp]; exact fun h => nomatch h
  framer := rfl

/-- A binary frame of 37 bytes for `addr` of 4 bytes and `count` below 256. -/
def frame37 (cmd : Byte) (addr : Bytes) (count : Byte) : Bytes :=
  List.replicate 20 0 ++ [cmd, 0, 0, 0, 0, 0, 0, 0, 5, 0, 0] ++ addr ++ [count, 0]

/-- `%MW0` -/
def mw0 : Bytes := [0x25, chM, chW, ch0]

theorem witness_DecodeOfEncodeIsIdentity :
    (Instr.binRead 0 (List.replicate 20 0) none).wf = true
    ∧ (Instr.ascWssDl 0x5A { sampleWrite with suffix := List.replicate 96 ch0 }).wf = true
    ∧ (Instr.hostImport []).wf = true := by decide

theorem witness_DecodedCommandsAreWellFormed :
    decode (.bin 1 (frame37 0x54 mw0 1)) = .ok (.binRead 1 (List.replicate 20 0) (some ⟨mw0, 1, []⟩)) := by rfl

theorem byteAt_set_ne (F : Bytes) (x : Byte) (j i : Nat) (h : i ≠ j) : byteAt F i = byteAt (F.set j x) i := by
  simp [byteAt, List.getD_eq_getElem?_getD, Ne.symm h]

/-- Bytes 21, 27, 29 and 30 differ. -/
theorem witness_UninterpretedBinaryBytesNeverMatter :
    ∃ F G : Bytes, F ≠ G ∧ F.length = G.length
      ∧ ∀ i, ¬(21 ≤ i ∧ i ≤ 27) → i ≠ 29 → i ≠ 30 → byteAt F i = byteAt G i := by
  refine ⟨frame37 0x54 mw0 1, ((((frame37 0x54 mw0 1).set 21 1).set 27 2).set 29 3).set 30 4, by decide, by decide,
    fun i h h29 h30 => ?_⟩
  rw [byteAt_set_ne _ 1 21 i (by omega), byteAt_set_ne _ 2 27 i (by omega), byteAt_set_ne _ 3 29 i h29,
    byteAt_set_ne _ 4 30 i h30]

/-- A read of exactly `32 + N` bytes, and a write of exactly `32 + N + 2 * count`. -/
theorem witness_TrailingBinaryBytesNeverMatter :
    (5 = (byteAt (frame37 0x54 mw0 1) 28).toNat ∧ byteAt (frame37 0x54 mw0 1) 20 = 0x54
      ∧ 32 + 5 ≤ (frame37 0x54 mw0 1).length)
    ∧ (5 = (byteAt (frame37 0x58 mw0 1 ++ [7, 8]) 28).toNat
      ∧ 1 = (byteAt (frame37 0x58 mw0 1 ++ [7, 8]) 35).toNat + 256 * (byteAt (frame37 0x58 mw0 1 ++ [7, 8]) 36).toNat
      ∧ byteAt (frame37 0x58 mw0 1 ++ [7, 8]) 20 = 0x58 ∧ 32 + 5 + 2 * 1 ≤ (frame37 0x58 mw0 1 ++ [7, 8]).length) := by
  decide

theorem witness_UninterpretedTokenBytesNeverMatter :
    slice [ENQ, ch0, ch1, chr, chS, chB] 3 2 = [chr, chS] ∧ slice [ENQ, ch0, ch1, chw, chS, chB] 3 2 = [chw, chS]
    ∧ slice [ENQ, ch0, ch1, chW, chS, chS, ch0] 3 3 = [chW, chS, chS] := by decide

theorem witness_ChecksumDetectsAnyOneByteChange :
    1 < ([0x01, 0xFF] : Bytes).length ∧ (0x00 : Byte) ≠ byteAt [0x01, 0xFF] 1 := by decide

/-- The digits `'0'` and `'9'`, the empty string, and the characters next to the digits. -/
theorem witness_DecimalStringHasItsPositionalValue :
    (([ch0, ch9] : Bytes) ≠ [] ∧ ∀ c ∈ ([ch0, ch9] : Bytes), 0x30 ≤ c.toNat ∧ c.toNat ≤ 0x39)
    ∧ (∃ c ∈ ([ch0, 0x2F] : Bytes), ¬(0x30 ≤ c.toNat ∧ c.toNat ≤ 0x39))
    ∧ ∃ c ∈ ([0x3A] : Bytes), ¬(0x30 ≤ c.toNat ∧ c.toNat ≤ 0x39) := by decide

/-- `"A"` and `"F"`; then `"9"` with a value, and `"G"` and `"AB"` without. -/
theorem witness_LetterOrDigitTokenResolves :
    (0x41 ≤ chA.toNat ∧ chA.toNat ≤ 0x46) ∧ (0x41 ≤ chF.toNat ∧ chF.toNat ≤ 0x46)
    ∧ ((∀ c : Byte, [ch9] = [c] → ¬(0x41 ≤ c.toNat ∧ c.toNat ≤ 0x46)) ∧ decStr [ch9] = some 9)
    ∧ ((∀ c : Byte, [(0x47 : Byte)] = [c] → ¬(0x41 ≤ c.toNat ∧ c.toNat ≤ 0x46)) ∧ decStr [0x47] = none)
    ∧ (∀ c : Byte, [chA, chB] = [c] → ¬(0x41 ≤ c.toNat ∧ c.toNat ≤ 0x46)) ∧ decStr [chA, chB] = none := by
  refine ⟨by decide, by decide, ⟨?_, rfl⟩, ⟨?_, rfl⟩, ?_, rfl⟩
  · rintro c ⟨⟩; decide
  · rintro c ⟨⟩; decide
  · rintro c ⟨⟩

/-- `"xM"`; `"xZ0"`; `"xM0"`, `"%MW0"`, `"xMW"` and `"xM-"`. -/
theorem witness_GenericAddressResolves :
    ([0x78, chM] : Bytes).length < 3
    ∧ (3 ≤ ([0x78, 0x5A, ch0] : Bytes).length ∧ ∀ a, byteAt [0x78, 0x5A, ch0] 1 ≠ letter a)
    ∧ (byteAt [0x78, chM, ch0] 1 = letter .m ∧ byteAt [0x78, chM, ch0] 2 ∉ [chB, chW, chD, chL] ∧ decStr [ch0] = some 0)
    ∧ (byteAt mw0 1 = letter .m ∧ byteAt mw0 2 ∈ [chB, chW, chD, chL] ∧ decStr (mw0.drop 3) = some 0)
    ∧ decStr (([0x78, chM, chW] : Bytes).drop 3) = none ∧ decStr (([0x78, chM, 0x2D] : Bytes).drop 2) = none := by
  refine ⟨by decide, ⟨by decide, fun a => by cases a <;> decide⟩, by decide, by decide, rfl, rfl⟩

theorem witness_MemReadReturnsTheRange : (3 + 2 : Nat) > 4 ∧ 3 + 1 ≤ 4 := by decide

theorem witness_MemWriteStoresExactlyItsBytes :
    Store.zero.Ok 4 ∧ 3 + ([1, 2] : Bytes).length > 4 ∧ 3 + ([1] : Bytes).length ≤ 4 :=
  ⟨store_ok_zero 4, by decide, by decide⟩

theorem witness_BitReadReturnsTheBit : (32 : Nat) ≥ 8 * 4 ∧ 31 < 8 * 4 := by decide

theorem witness_BitWriteChangesOneBit : Store.zero.Ok 4 ∧ (32 : Nat) ≥ 8 * 4 ∧ 31 < 8 * 4 :=
  ⟨store_ok_zero 4, by decide, by decide⟩

/-- Starts 25 (too far), 24 (a multiple of 8) and 23. -/
theorem witness_BitRangeReadPacksItsBits :
    (25 + 8 * 1 : Nat) > 8 * 4 ∧ (24 + 8 * 1 ≤ 8 * 4 ∧ 24 % 8 = 0) ∧ 23 + 8 * 1 ≤ 8 * 4 ∧ 23 % 8 ≠ 0 := by decide

theorem witness_WhatIsWrittenIsReadBack : Store.zero.Ok 4 ∧ 3 + ([1] : Bytes).length ≤ 4 ∧ 31 < 8 * 4 :=
  ⟨store_ok_zero 4, by decide, by decide⟩

/-- The whole area, from index 0; nothing, from index `CAP` on. -/
theorem witness_BinReadAnswersTheRange :
    area4.bin[0]? = some BinPort.reset ∧ (List.replicate 20 (0 : Byte)).length = 20
    ∧ (resolveGeneric mw0 true = .ok (.m, 0) ∧ 0 + (4 : Half).toNat ≤ area4.cfg.cap)
    ∧ resolveGeneric [0x78, chD, 0x34] true = .ok (.d, 4) ∧ 4 + (0 : Half).toNat ≤ area4.cfg.cap :=
  ⟨rfl, rfl, ⟨rfl, by decide⟩, rfl, by decide⟩

theorem witness_BinWriteStoresItsPayload :
    area4.store.Ok area4.cfg.cap ∧ area4.bin[1]? = some BinPort.reset ∧ (List.replicate 20 (0 : Byte)).length = 20
    ∧ resolveGeneric mw0 false = .ok (.m, 0) ∧ 2 * (2 : Half).toNat ≤ ([1, 2, 3, 4] : Bytes).length
    ∧ 0 + 2 * (2 : Half).toNat ≤ area4.cfg.cap :=
  ⟨area4_ok, rfl, rfl, rfl, by decide, by decide⟩

/-- Each check of R303 is the first to fail on some frame, and on some frame none fails. -/
theorem witness_BinaryRequestReportsItsFirstError :
    area4.bin[0]? = some BinPort.reset
    ∧ binFirstError 4 (List.replicate 20 0) = some .malformedFrame
    ∧ binFirstError 4 (List.replicate 21 0) = some .unsupportedCommand
    ∧ binFirstError 4 (frame37 0x54 mw0 1).dropLast = some .malformedFrame
    ∧ binFirstError 4 (frame37 0x58 [0x25, 0x5A, chW, ch0] 1) = some .malformedFrame
    ∧ binFirstError 4 (frame37 0x54 [0x25, 0x5A, chW, ch0] 5) = some .unsupportedArea
    ∧ binFirstError 4 (frame37 0x54 [0x25, chM, chW, chX] 5) = some .invalidAddress
    ∧ binFirstError 4 (frame37 0x54 mw0 5) = some .outOfRange
    ∧ binFirstError 4 (frame37 0x54 mw0 4) = none := by
  refine ⟨rfl, ?_, ?_, ?_, ?_, ?_, ?_, ?_, ?_⟩ <;> rfl

/-- The last byte's bits, and none at index `8 * CAP`. -/
theorem witness_AsciiBitReadsAnswerThePackedBits :
    (resolveLetterOrDigit [0x32, 0x34] = .ok 24 ∧ 24 + 8 * (1 : Byte).toNat ≤ 8 * area4.cfg.cap)
    ∧ resolveLetterOrDigit [0x33, 0x32] = .ok 32 ∧ 32 + 8 * (0 : Byte).toNat ≤ 8 * area4.cfg.cap :=
  ⟨⟨rfl, by decide⟩, rfl, by decide⟩

theorem witness_AsciiByteReadsAnswerTheBytes :
    (decStr [ch0] = some 0 ∧ 0 + (4 : Byte).toNat ≤ area4.cfg.cap)
    ∧ decStr [0x34] = some 4 ∧ 4 + (0 : Byte).toNat ≤ area4.cfg.cap := ⟨⟨rfl, by decide⟩, rfl, by decide⟩

theorem witness_AsciiBitWritesSetOneBit :
    area4.store.Ok area4.cfg.cap ∧ resolveLetterOrDigit [0x33, 0x31] = .ok 31 ∧ 2 ≤ ([ch0, ch1] : Bytes).length
    ∧ 31 < 8 * area4.cfg.cap := ⟨area4_ok, rfl, by decide, by decide⟩

theorem witness_ShiftedBitWritesSetOneBit :
    area4.store.Ok area4.cfg.cap ∧ resolveLetterOrDigit [chF] = .ok 15 ∧ 2 ≤ ([ch1, ETX] : Bytes).length
    ∧ 15 < 8 * area4.cfg.cap := ⟨area4_ok, rfl, by decide, by decide⟩

/-- One word in the last two bytes; no word at index `CAP`. -/
theorem witness_AsciiWordWritesStoreTheHexBytes :
    area4.store.Ok area4.cfg.cap
    ∧ (decStr [0x32] = some 2 ∧ 4 * (1 : Byte).toNat ≤ ([ch1, chA, 0x61, chF] : Bytes).length
      ∧ (∀ c ∈ ([ch1, chA, 0x61, chF] : Bytes).take (4 * (1 : Byte).toNat), hexVal c ≠ none)
      ∧ 2 + 2 * (1 : Byte).toNat ≤ area4.cfg.cap)
    ∧ decStr [0x34] = some 4 ∧ 4 * (0 : Byte).toNat ≤ ([] : Bytes).length ∧ 4 + 2 * (0 : Byte).toNat ≤ area4.cfg.cap :=
  ⟨area4_ok, ⟨rfl, by decide, by decide, by decide⟩, rfl, by decide, by decide⟩

theorem witness_ShiftedWordWritesStoreTheHexBytes :
    area4.store.Ok area4.cfg.cap ∧ decStr [ch0] = some 0 ∧ 4 * (2 : Byte).toNat ≤ (List.replicate 8 ch0).length
    ∧ (∀ c ∈ (List.replicate 8 ch0).take (4 * (2 : Byte).toNat), hexVal c ≠ none)
    ∧ 0 + 2 * (2 : Byte).toNat ≤ area4.cfg.cap :=
  ⟨area4_ok, rfl, by decide, by decide, by decide⟩

theorem witness_DoubleAndLongWordWritesAreUnimplemented :
    Instr.ascWrDd = Instr.ascWrDd ∨ Instr.ascWrDd = Instr.ascWrDl ∨ Instr.ascWrDd = Instr.ascWssDd
      ∨ Instr.ascWrDd = Instr.ascWssDl := .inl rfl

/-- An ASCII request's bytes before its checksum, the checksum filled with two zeros. -/
def wire (token rest : Bytes) : Bytes := [ENQ, ch0, ch1] ++ token ++ rest ++ [ETX, ch0, ch0]

/-- Each check of R304 is the first to fail on some frame, and on some frame none fails. -/
theorem witness_AsciiRequestReportsItsFirstError :
    ascFirstError 4 [ENQ, ETX, ch0, ch0] = some .malformedFrame
    ∧ ascFirstError 4 (wire [chr, chr, chB] []) = some .unsupportedCommand
    ∧ ascFirstError 4 (wire [chr, chS, chB] [ch0]) = some .malformedFrame
    ∧ ascFirstError 4 (wire [chr, chS, chB] [ch0, 0x32, 0x25, chM, ch0, ch1]) = some .invalidAddress
    ∧ ascFirstError 4 (wire [chw, chS, chB] [ch0, 0x33, 0x25, chM, chL, ch0, ch1]) = some .unimplemented
    ∧ ascFirstError 4 (wire [chW, chS, chS, ch0] [ch0, 0x33, 0x25, chP, chX, ch0, ch1]) = some .unsupportedArea
    ∧ ascFirstError 4 (wire [chr, chS, chB] [ch0, 0x34, 0x25, chD, chB, chA, ch0, ch1]) = some .invalidAddress
    ∧ ascFirstError 4 (wire [chw, chS, chB] [ch0, 0x34, 0x25, chD, chW, 0x34, ch0, ch1]) = some .malformedFrame
    ∧ ascFirstError 4 (wire [chr, chS, chB] [ch0, 0x34, 0x25, chD, chB, 0x34, ch0, ch1]) = some .outOfRange
    ∧ ascFirstError 4 (wire [chr, chS, chB] [ch0, 0x34, 0x25, chD, chB, 0x33, ch0, ch1]) = none := by
  refine ⟨?_, ?_, ?_, ?_, ?_, ?_, ?_, ?_, ?_, ?_⟩ <;> decide

theorem witness_BitWrittenByMxIsReadByTheHost :
    area4.store.Ok area4.cfg.cap ∧ resolveLetterOrDigit [0x33, 0x31] = .ok 31 ∧ 2 ≤ ([ch0, ch1] : Bytes).length
    ∧ 31 < 8 * area4.cfg.cap ∧ resolveGeneric [0x78, chM, 0x33, 0x31] true = .ok (.m, 31) :=
  ⟨area4_ok, rfl, by decide, by decide, rfl⟩

/-- A byte other than both delimiters, with a buffer one byte past the limit and at it. -/
theorem witness_FramerFollowsItsTable :
    ch0 ≠ 0x06 ∧ ch0 ≠ 0x03 ∧ ([ENQ, ch0] : Bytes).length + 1 > 5 - 3 ∧ ([ENQ] : Bytes).length + 1 ≤ 5 - 3 := by decide

theorem witness_FramerDeliversAWholeFrame :
    (FramerState.body = .hunt ∨ FramerState.body = .body) ∧ (0x06 : Byte) ∉ ([ch0] : Bytes) ∧ (0x03 : Byte) ∉ ([ch0] : Bytes)
    ∧ ([ch0] : Bytes).length + 4 ≤ 5 := by decide

/-- The shortest frame. -/
theorem witness_DeliveredFramesAreDelimitedAndBounded :
    ∃ s t : State, s.Inv ∧ fetch .ser s = (t, some (.asc [ENQ, ETX, ch0, ch0])) :=
  ⟨{ State.reset with ser := { SerPort.reset with fs := .ck2, buf := [ENQ, ETX, ch0], rx := [ch0] } }, _,
    { reset_inv with framer := ⟨[], ch0, by decide, by decide, rfl, by decide⟩ }, rfl⟩

theorem witness_HostReadReturnsTheRange :
    resolveGeneric [0x78, chM, 0x34] true = .ok (.m, 4) ∧ 4 + 0 ≤ area4.cfg.cap
    ∧ resolveGeneric [0x78, chQ, ch0] true = .ok (.q, 0) ∧ 0 + 4 ≤ area4.cfg.cap := ⟨rfl, by decide, rfl, by decide⟩

theorem witness_HostWriteStoresItsBytes :
    area4.store.Ok area4.cfg.cap ∧ resolveGeneric [0x78, chP, 0x33] false = .ok (.p, 3)
    ∧ 3 + ([0xFF] : Bytes).length ≤ area4.cfg.cap := ⟨area4_ok, rfl, by decide⟩

theorem witness_HostReadbitReturnsTheBit :
    resolveGeneric [0x78, chD, 0x33, 0x31] true = .ok (.d, 31) ∧ 31 < 8 * area4.cfg.cap := ⟨rfl, by decide⟩

theorem witness_HostWritebitSetsOneBit :
    area4.store.Ok area4.cfg.cap ∧ resolveGeneric [0x78, chD, 0x33, 0x31] false = .ok (.d, 31) ∧ 31 < 8 * area4.cfg.cap :=
  ⟨area4_ok, rfl, by decide⟩

theorem witness_HostImportReplacesAllAreasOrNone :
    (List.replicate 15 (0 : Byte)).length ≠ 4 * area4.cfg.cap ∧ (List.replicate 16 (0 : Byte)).length = 4 * area4.cfg.cap := by
  decide

theorem witness_ExportThenImportRestoresTheStore : area4.store.Ok area4.cfg.cap := area4_ok

theorem witness_HostOperationReportsItsFirstError :
    hostFirstError 4 (.read [0x78, chM] 9) = some .invalidAddress
    ∧ hostFirstError 4 (.write [0x78, 0x5A, chX] []) = some .unsupportedArea
    ∧ hostFirstError 4 (.readbit [0x78, chM, 0x33, 0x32]) = some .outOfRange
    ∧ hostFirstError 4 (.writebit [0x78, chM, 0x33, 0x31] true) = none
    ∧ hostFirstError 4 (.importSnapshot []) = some .malformedSnapshot ∧ hostFirstError 4 .exportSnapshot = none := by
  decide

theorem witness_ErrorEntryWritesAndEmitsNothing : area4.bin[1]? = some BinPort.reset := rfl

/-- A failed transaction of each port, in the terms of each clause. -/
theorem witness_FailedTransactionsLeaveTheStore :
    (∃ t p', transact (.bin 0 []) area4 = .next t ∧ (Request.bin 0 []).agent = .bin 0
      ∧ area4.bin[0]? = some BinPort.reset ∧ t.bin[0]? = some p' ∧ p'.status = BinPort.reset.status ++ [.error .malformedFrame])
    ∧ (∃ t, transact (.asc []) area4 = .next t ∧ t.ser.status = area4.ser.status ++ [.error .malformedFrame])
    ∧ ∃ t, transact (.host (.importSnapshot [])) area4 = .next t
      ∧ t.host.outQ = area4.host.outQ ++ [.error .malformedSnapshot] :=
  ⟨⟨_, _, rfl, rfl, rfl, rfl, rfl⟩, ⟨_, rfl, rfl⟩, _, rfl, rfl⟩

theorem witness_EveryTransactionPresentsOneStatus :
    (Request.bin 1 []).agent = .bin 1 ∧ area4.bin[1]? = some BinPort.reset ∧ (Request.asc []).agent = .ser
    ∧ (Request.host .exportSnapshot).agent = .host := ⟨rfl, rfl, rfl, rfl⟩

theorem witness_StepServesOneReadyAgent :
    (area4.boot = .ok ∧ enabled area4 = [])
    ∧ (area4Holding []).boot = .ok ∧ enabled ((area4Holding []).receive [ch0]) = [.bin 0, .ser] := by decide

theorem witness_StepRunsTheDecodedCommand :
    (∃ p, (area4Holding (frame37 0x54 mw0 1)).bin[0]? = some p ∧ p.state = .opened ∧ p.inQ = [frame37 0x54 mw0 1])
    ∧ decode (.bin 0 (frame37 0x54 mw0 1)) = .ok (.binRead 0 (List.replicate 20 0) (some ⟨mw0, 1, []⟩))
    ∧ decode (.asc ((wire [chr, chS, chB] [ch0, 0x34, 0x25, chD, chB, ch0, ch0, ch1]).dropLast ++ [ch0]))
      = .ok (.ascRdDb ⟨ch0, ch1, 0x25, [ch0], 1⟩)
    ∧ (area4.request .exportSnapshot).host.inQ = [.exportSnapshot] ∧ decode (.host .exportSnapshot) = .ok .hostExport :=
  ⟨⟨_, rfl, rfl, rfl⟩, rfl, rfl, rfl, rfl⟩

theorem witness_SerialBytesThatEndNoFrameOnlyMoveTheFramer :
    (area4.receive [ENQ]).ser.rx = [ENQ] ∧ (area4.receive [ENQ]).ser.fs ≠ .ck2 := by decide

theorem witness_RejectedRequestsTakeTheErrorEntry :
    (∃ p, (area4Holding (List.replicate 21 0)).bin[0]? = some p ∧ p.state = .opened ∧ p.inQ = [List.replicate 21 0])
    ∧ decode (.bin 0 (List.replicate 21 0)) = .error .unsupportedCommand
    ∧ decode (.asc ([ENQ, ETX, ch0] ++ [ch0])) = .error .malformedFrame := ⟨⟨_, rfl, rfl, rfl⟩, rfl, rfl⟩

/-- A state that has the invariant and takes a step. -/
theorem witness_StepKeepsTheInvariant : ∃ s t : State, s.Inv ∧ step s = .next t ∧ t ≠ s :=
  ⟨State.reset.receive [ENQ], _, { reset_inv with }, rfl, by decide⟩

theorem witness_ResetHasTheInvariant :
    Params.Legal { Params.default with cap := 1, maxAsciiFrame := 5, initImage := some [1, 2, 3, 4] }
    ∧ ([1, 2, 3, 4] : Bytes).length = 4 * 1 := by decide

theorem witness_TheOutsideKeepsTheInvariant : State.reset.Inv := reset_inv

theorem witness_ResetLeavesTheStatedValues :
    Params.default.initImage = none
    ∧ ({ Params.default with cap := 1, initImage := some [1, 2, 3, 4] } : Params).initImage = some [1, 2, 3, 4]
    ∧ ([1, 2, 3, 4] : Bytes).length = 4 * 1 ∧ BinPort.reset ∈ State.reset.bin := by decide

theorem witness_WrongSizeImageHoldsTheBlockInReset :
    ({ Params.default with cap := 1, initImage := some [1, 2, 3] } : Params).initImage = some [1, 2, 3]
    ∧ ([1, 2, 3] : Bytes).length ≠ 4 * 1
    ∧ (State.resetOf { Params.default with cap := 1, initImage := some [1, 2, 3] }).boot = .error .malformedSnapshot := by
  decide

theorem witness_StepsOutOfResetAlwaysComplete : State.reset.boot = .ok := rfl

theorem witness_ConfigurationIsReadOnly : ∃ t, step (area4Holding []) = .next t ∧ t ≠ area4Holding [] :=
  ⟨_, rfl, by decide⟩

theorem witness_OutputsOnlyGrowAndInputsOnlyShrink :
    ∃ t p, step (area4Holding []) = .next t ∧ (area4Holding []).bin[0]? = some p := ⟨_, _, rfl, rfl⟩

/-- Port 1 is closed and holds a frame while port 0 steps. -/
theorem witness_ClosedPortsTakeNoStep :
    ∃ t p, step ((area4Holding []).deliverFrame 1 []) = .next t ∧ ((area4Holding []).deliverFrame 1 []).bin[1]? = some p
      ∧ p.state = .closed ∧ p.inQ = [[]] := ⟨_, _, rfl, rfl, rfl, rfl⟩

theorem witness_ServingOnePortLeavesTheOthers :
    (∃ t, serve (.bin 0) (area4Holding []) = .next t) ∧ (∃ t, serve .ser (area4.receive [ENQ]) = .next t)
    ∧ ∃ t, serve .host (area4.request .exportSnapshot) = .next t := ⟨⟨_, rfl⟩, ⟨_, rfl⟩, _, rfl⟩

/-- A step out of reset, and the fault of a block held in reset. -/
theorem witness_StatusesNeverAffectAStep :
    (∃ t, step (area4Holding []) = .next t) ∧ step { area4 with boot := .error .malformedSnapshot } = .fault .heldInReset :=
  ⟨⟨_, rfl⟩, rfl⟩

end Sys2Proof.Tests
end

section
/-! PROOFS. The scope's statements: the configuration and how reset ended are fixed (00_scope.md R5, 10_state.md R29),
and the spec's frames decode to their commands (95_test_vectors.md). -/

namespace Sys2Proof.Machine

/-! ## What a step never changes -/

theorem SameFixed.refl (s : State) : SameFixed s s := ⟨rfl, rfl, rfl⟩

theorem SameFixed.trans {s t u : State} (hst : SameFixed s t) (htu : SameFixed t u) : SameFixed s u := by
  obtain ⟨hcfg, hboot, htick⟩ := hst
  obtain ⟨hcfg', hboot', htick'⟩ := htu
  exact ⟨hcfg'.trans hcfg, hboot'.trans hboot, htick'.trans htick⟩

/-- Taking an agent's input touches that agent's port alone (R24). -/
theorem fetch_sameFixed (a : Agent) (s : State) : SameFixed s (fetch a s).1 := by
  cases a with
  | bin k =>
    simp only [fetch]
    repeat' split
    all_goals exact ⟨rfl, rfl, rfl⟩
  | ser =>
    simp only [fetch]
    split <;> exact ⟨rfl, rfl, rfl⟩
  | host =>
    simp only [fetch]
    split <;> exact ⟨rfl, rfl, rfl⟩

theorem raiseError_sameFixed (a : Agent) (e : ErrorKind) (s : State) : SameFixed s (raiseError a e s) := by
  cases a <;> exact ⟨rfl, rfl, rfl⟩

/-- A transaction changes the store and its own port, whether it answers or ends in the error entry (R306). -/
theorem Ends.sameFixed {a : Agent} {s t : State} (h : Ends a s t) : SameFixed s t := by
  rcases h with ⟨e, rfl⟩ | hanswer
  · exact raiseError_sameFixed a e s
  · cases a with
    | bin k => obtain ⟨st, r, _, rfl⟩ := hanswer; exact ⟨rfl, rfl, rfl⟩
    | ser => obtain ⟨st, r, _, rfl⟩ := hanswer; exact ⟨rfl, rfl, rfl⟩
    | host => obtain ⟨st, v, _, rfl⟩ := hanswer; exact ⟨rfl, rfl, rfl⟩

theorem serve_sameFixed {a : Agent} {s t : State} (h : serve a s = .next t) : SameFixed s t := by
  obtain ⟨u, hserve, hcases⟩ := serve_cases a s
  obtain rfl : u = t := Host.Outcome.next.inj (hserve.symm.trans h)
  have hfetch := fetch_sameFixed a s
  rcases hcases with ⟨_, rfl⟩ | ⟨_, _, _, hends⟩
  · exact hfetch
  · exact hfetch.trans hends.sameFixed

/-- Settles O56: a step is nothing at all or the step of one agent after the model's counter moved, and neither touches
the configuration or how reset ended. -/
theorem configurationIsReadOnly : Obligations.ConfigurationIsReadOnly := by
  intro s t hstep
  rcases step_cases s with ⟨_, _, hfault⟩ | ⟨_, _, hidle⟩ | ⟨a, _, _, hserve⟩
  · exact nomatch hfault.symm.trans hstep
  · obtain rfl : s = t := Host.Outcome.next.inj (hidle.symm.trans hstep)
    exact ⟨rfl, rfl⟩
  · obtain ⟨hcfg, hboot, _⟩ := serve_sameFixed (hserve.symm.trans hstep)
    exact ⟨hcfg, hboot⟩

/-! ## The frames of the test vectors -/

/-- Settles O3: the decoder evaluates on each frame, in the order L1-2, A-R3, A-W1, A-W25, B-U1. -/
theorem specFramesDecodeToTheirCommands : Obligations.SpecFramesDecodeToTheirCommands :=
  ⟨rfl, rfl, rfl, rfl, rfl⟩

end Sys2Proof.Machine
end

section
/-! PROOFS. The statements of 10_state.md: the invariant, the outputs and inputs of a step, the status of a transaction,
and which agent a step serves. -/

namespace Sys2Proof.Machine

/-! ## The binary ports of a state -/

theorem State.getElem?_onBin_same (s : State) (k : Nat) (f : BinPort → BinPort) :
    (s.onBin k f).bin[k]? = (s.bin[k]?).map f := by
  simp

theorem State.getElem?_onBin_ne (s : State) {j k : Nat} (f : BinPort → BinPort) (h : j ≠ k) :
    (s.onBin j f).bin[k]? = s.bin[k]? := by
  simp [h]

/-- Changing a port that is there is replacing it. -/
theorem State.onBin_eq_set {s : State} {k : Nat} {p : BinPort} (f : BinPort → BinPort) (hp : s.bin[k]? = some p) :
    s.onBin k f = { s with bin := s.bin.set k (f p) } := by
  simp [State.onBin, List.modify_eq_set_getElem?, hp]

/-! ## What an agent takes -/

theorem fetch_bin {s : State} {k : Nat} {p : BinPort} {F : Bytes} {rest : List Bytes} (hp : s.bin[k]? = some p)
    (hopen : p.state = .opened) (hq : p.inQ = F :: rest) :
    fetch (.bin k) s = (s.onBin k fun p => { p with inQ := rest }, some (.bin k F)) := by
  simp only [fetch, hp, hopen, hq]

theorem fetch_bin_idle {s : State} {k : Nat} (h : ∀ p, s.bin[k]? = some p → p.state = .closed ∨ p.inQ = []) :
    fetch (.bin k) s = (s, none) := by
  cases hp : s.bin[k]? with
  | none => simp only [fetch, hp]
  | some p =>
    rcases h p hp with hclosed | hempty
    · simp only [fetch, hp, hclosed]
    · cases hst : p.state <;> simp only [fetch, hp, hst, hempty]

/-- A binary port that is not there, `CLOSED` or without a frame takes nothing; any other takes the head of its queue
(R24, R170). -/
theorem fetch_bin_cases (k : Nat) (s : State) :
    ((∀ p, s.bin[k]? = some p → p.state = .closed ∨ p.inQ = []) ∧ fetch (.bin k) s = (s, none))
    ∨ ∃ p F rest, s.bin[k]? = some p ∧ p.state = .opened ∧ p.inQ = F :: rest
      ∧ fetch (.bin k) s = (s.onBin k fun p => { p with inQ := rest }, some (.bin k F)) := by
  by_cases hidle : ∀ p, s.bin[k]? = some p → p.state = .closed ∨ p.inQ = []
  · exact .inl ⟨hidle, fetch_bin_idle hidle⟩
  · push Not at hidle
    obtain ⟨p, hp, hclosed, hq⟩ := hidle
    have hopen : p.state = .opened := by
      cases hst : p.state with
      | closed => exact absurd hst hclosed
      | opened => rfl
    obtain ⟨F, rest, hq⟩ := List.exists_cons_of_ne_nil hq
    exact .inr ⟨p, F, rest, hp, hopen, hq, fetch_bin hp hopen hq⟩

theorem fetch_ser_nil {s : State} (hrx : s.ser.rx = []) : fetch .ser s = (s, none) := by
  simp only [fetch, hrx]

/-- The serial port takes one byte and its framer moves (R24, R200). -/
theorem fetch_ser_cons {s : State} {c : Byte} {rest : Bytes} (hrx : s.ser.rx = c :: rest) :
    fetch .ser s =
      ({ s with ser := { s.ser with
          rx := rest
          fs := (framer s.cfg.maxAsciiFrame s.ser.fs s.ser.buf c).fs
          buf := (framer s.cfg.maxAsciiFrame s.ser.fs s.ser.buf c).buf } },
        (framer s.cfg.maxAsciiFrame s.ser.fs s.ser.buf c).frame.map Request.asc) := by
  simp only [fetch, hrx]

theorem fetch_host_nil {s : State} (hq : s.host.inQ = []) : fetch .host s = (s, none) := by
  simp only [fetch, hq]

theorem fetch_host_cons {s : State} {op : HostOp} {rest : List HostOp} (hq : s.host.inQ = op :: rest) :
    fetch .host s = ({ s with host := { s.host with inQ := rest } }, some (.host op)) := by
  simp only [fetch, hq]

/-! ## How a transaction ends, port by port -/

/-- The two ways a transaction ends on a binary port: its response (R170), or the error entry (R306). -/
def PortEnd (f : BinPort → BinPort) : Prop := (∃ e, f = BinPort.fail e) ∨ ∃ r, f = BinPort.emit r

theorem PortEnd.status {f : BinPort → BinPort} (hf : PortEnd f) (p : BinPort) :
    ∃ x, (f p).status = p.status ++ [x] := by
  rcases hf with ⟨e, rfl⟩ | ⟨r, rfl⟩
  · exact ⟨_, p.fail_status e⟩
  · exact ⟨_, p.emit_status r⟩

theorem Ends.bin_cases {k : Nat} {s t : State} (h : Ends (.bin k) s t) :
    ∃ st f, Reached s.cfg.cap s.store st ∧ PortEnd f ∧ t = { s with store := st }.onBin k f := by
  rcases h with ⟨e, rfl⟩ | ⟨st, r, hst, rfl⟩
  · exact ⟨s.store, _, .inl rfl, .inl ⟨e, rfl⟩, rfl⟩
  · exact ⟨st, _, hst, .inr ⟨r, rfl⟩, rfl⟩

/-- An error on the serial port is the case with no byte appended to `serTx` (R209). -/
theorem Ends.ser_cases {s t : State} (h : Ends .ser s t) :
    ∃ st r x, Reached s.cfg.cap s.store st
      ∧ t = { s with store := st, ser := { s.ser with tx := s.ser.tx ++ r, status := s.ser.status ++ [x] } } := by
  rcases h with ⟨e, rfl⟩ | ⟨st, r, hst, rfl⟩
  · exact ⟨s.store, [], .error e, .inl rfl, by simp [raiseError]⟩
  · exact ⟨st, r, .ok, hst, rfl⟩

theorem Ends.host_cases {s t : State} (h : Ends .host s t) :
    ∃ st res, Reached s.cfg.cap s.store st
      ∧ t = { s with store := st, host := { s.host with outQ := s.host.outQ ++ [res] } } := by
  rcases h with ⟨e, rfl⟩ | ⟨st, v, hst, rfl⟩
  · exact ⟨s.store, .error e, .inl rfl, rfl⟩
  · exact ⟨st, .ok v, hst, rfl⟩

/-- Settles O45: `transact_ends` gives the next state, and each way of ending appends one status or result. -/
theorem everyTransactionPresentsOneStatus : Obligations.EveryTransactionPresentsOneStatus := by
  intro r s
  obtain ⟨t, ht, hends⟩ := transact_ends r s
  refine ⟨t, ht, fun k p hr hp => ?_, fun hr => ?_, fun hr => ?_⟩ <;> rw [hr] at hends
  · obtain ⟨st, f, _, hf, rfl⟩ := hends.bin_cases
    obtain ⟨x, hx⟩ := hf.status p
    exact ⟨f p, x, by rw [State.getElem?_onBin_same, hp, Option.map_some], hx⟩
  · obtain ⟨_, _, x, _, rfl⟩ := hends.ser_cases
    exact ⟨x, rfl⟩
  · obtain ⟨_, res, _, rfl⟩ := hends.host_cases
    exact ⟨res, rfl⟩

/-! ## What every step keeps -/

/-- The state after a served agent's step is the one `fetch` left, or that agent's transaction ended on it. -/
theorem serve_next {a : Agent} {s t : State} (h : serve a s = .next t) :
    t = (fetch a s).1 ∨ Ends a (fetch a s).1 t := by
  obtain ⟨u, hserve, hcases⟩ := serve_cases a s
  obtain rfl : u = t := Host.Outcome.next.inj (hserve.symm.trans h)
  rcases hcases with ⟨_, rfl⟩ | ⟨_, _, _, hends⟩
  · exact .inl rfl
  · exact .inr hends

theorem step_next {s t : State} (h : step s = .next t) :
    t = s ∨ ∃ a ∈ enabled s, serve a { s with tick := s.tick + 1 } = .next t := by
  rcases step_cases s with ⟨_, _, hfault⟩ | ⟨_, _, hidle⟩ | ⟨a, ha, _, hserve⟩
  · exact nomatch hfault.symm.trans h
  · exact .inl (Host.Outcome.next.inj (h.symm.trans hidle))
  · exact .inr ⟨a, ha, hserve.symm.trans h⟩

/-- A property that the counter does not see, that taking input keeps and that ending a transaction keeps, every step
keeps. -/
theorem step_preserves {P : State → Prop} (htick : ∀ s n, P s → P { s with tick := n })
    (hfetch : ∀ a s, P s → P (fetch a s).1) (hends : ∀ a s t, P s → Ends a s t → P t)
    {s t : State} (hs : P s) (hstep : step s = .next t) : P t := by
  rcases step_next hstep with rfl | ⟨a, _, hserve⟩
  · exact hs
  · have hfetched := hfetch a _ (htick s (s.tick + 1) hs)
    rcases serve_next hserve with rfl | hend
    · exact hfetched
    · exact hends a _ t hfetched hend

/-! ## The invariant -/

theorem Store.Ok.set {cap : Nat} {st : Store} (h : st.Ok cap) (a : Area) {m : Memory} (hwf : m.wf = true)
    (hbelow : m.below cap = true) : (st.set a m).Ok cap := by
  intro b
  rw [Store.get_set]
  split
  · exact ⟨hwf, hbelow⟩
  · exact h b

theorem Store.ok_ofImage (cap : Nat) (img : Bytes) : (Store.ofImage cap img).Ok cap := by
  intro a
  cases a <;> exact ⟨Memory.wf_ofBytes _, Memory.below_ofBytes _ 0 (by simp)⟩

/-- Each primitive that writes checks its bounds and keeps the canonical form (R54, R56, R277). -/
theorem Reached.ok {cap : Nat} {st st' : Store} (h : Reached cap st st') (hst : st.Ok cap) : st'.Ok cap := by
  rcases h with rfl | ⟨a, start, v, hw⟩ | ⟨a, i, v, hw⟩ | ⟨img, hw⟩
  · exact hst
  · obtain ⟨hbound, rfl⟩ := memWrite_ok.1 hw
    obtain ⟨hwf, hbelow⟩ := hst a
    exact hst.set a (Memory.wf_writeBytes v start hwf) (Memory.below_writeBytes v start hbound hbelow)
  · obtain ⟨hbound, rfl⟩ := bitWrite_ok.1 hw
    obtain ⟨hwf, hbelow⟩ := hst a
    exact hst.set a (Memory.wf_write hwf _ _) (Memory.below_write (by omega) _ hbelow)
  · obtain ⟨_, rfl⟩ := importImage_ok.1 hw
    exact Store.ok_ofImage cap img

/-- An error that raises `close[k]` closes the port with it (R178). -/
theorem BinPort.Ok.fail {p : BinPort} (hp : p.Ok) (e : ErrorKind) : (p.fail e).Ok := by
  intro hclose
  rw [BinPort.fail_close, Bool.or_eq_true] at hclose
  rw [BinPort.fail_state]
  split
  · rfl
  · exact hp (hclose.resolve_right ‹_›)

theorem PortEnd.ok {f : BinPort → BinPort} (hf : PortEnd f) {p : BinPort} (hp : p.Ok) : (f p).Ok := by
  rcases hf with ⟨e, rfl⟩ | ⟨r, rfl⟩
  · exact hp.fail e
  · exact hp

/-- Every row of the framer's table keeps the buffer what its new state says (R200, R201). The least legal limit leaves
room for `ENQ` alone. -/
theorem SerPort.Ok.afterByte {maxFrame : Nat} (hlegal : 5 ≤ maxFrame) {p : SerPort} (hp : p.Ok maxFrame) (c : Byte)
    (rest : Bytes) :
    SerPort.Ok maxFrame { p with
      rx := rest
      fs := (framer maxFrame p.fs p.buf c).fs
      buf := (framer maxFrame p.fs p.buf c).buf } := by
  obtain ⟨fs, buf, rx, tx, status⟩ := p
  have hstart : ∃ body : Bytes, Config.ENQ ∉ body ∧ Config.ETX ∉ body ∧ [Config.ENQ] = Config.ENQ :: body
      ∧ [Config.ENQ].length ≤ maxFrame - 3 :=
    ⟨[], List.not_mem_nil, List.not_mem_nil, rfl, by rw [List.length_singleton]; omega⟩
  cases fs with
  | hunt =>
    by_cases henq : c = Config.ENQ
    · simpa [SerPort.Ok, framer, henq] using hstart
    · simpa [SerPort.Ok, framer, henq] using hp
  | body =>
    obtain ⟨body, hno, hno', hbuf, hlen⟩ := hp
    dsimp only at hbuf hlen
    by_cases henq : c = Config.ENQ
    · simpa [SerPort.Ok, framer, henq] using hstart
    · by_cases hetx : c = Config.ETX
      · simp only [SerPort.Ok, framer, if_neg henq, if_pos hetx]
        exact ⟨body, hno, hno', by rw [hbuf, hetx]; rfl, by rw [List.length_append, List.length_singleton]; omega⟩
      · by_cases hlong : (buf ++ [c]).length > maxFrame - 3
        · simp only [SerPort.Ok, framer, if_neg henq, if_neg hetx, if_pos hlong]
        · simp only [SerPort.Ok, framer, if_neg henq, if_neg hetx, if_neg hlong]
          exact ⟨body ++ [c], by simp [hno, Ne.symm henq], by simp [hno', Ne.symm hetx], by rw [hbuf]; rfl, by omega⟩
  | ck1 =>
    obtain ⟨body, hno, hno', hbuf, hlen⟩ := hp
    dsimp only at hbuf hlen
    exact ⟨body, c, hno, hno', by simp [framer, hbuf], by simp [framer]; omega⟩
  | ck2 => rfl

namespace State.Inv

theorem withTick {s : State} (h : s.Inv) (n : Nat) : State.Inv { s with tick := n } :=
  ⟨h.legal, h.booted, h.ports, h.store, h.closed, h.framer⟩

theorem withStore {s : State} (h : s.Inv) {st : Store} (hst : st.Ok s.cfg.cap) : State.Inv { s with store := st } :=
  ⟨h.legal, h.booted, h.ports, hst, h.closed, h.framer⟩

theorem withSer {s : State} (h : s.Inv) {p : SerPort} (hp : p.Ok s.cfg.maxAsciiFrame) : State.Inv { s with ser := p } :=
  ⟨h.legal, h.booted, h.ports, h.store, h.closed, hp⟩

theorem withHost {s : State} (h : s.Inv) (p : HostPort) : State.Inv { s with host := p } :=
  ⟨h.legal, h.booted, h.ports, h.store, h.closed, h.framer⟩

theorem onBin {s : State} (h : s.Inv) (k : Nat) {f : BinPort → BinPort} (hf : ∀ p, p.Ok → (f p).Ok) :
    (s.onBin k f).Inv := by
  refine ⟨h.legal, h.booted, (List.length_modify f s.bin k).trans h.ports, h.store, fun p hp => ?_, h.framer⟩
  obtain ⟨j, hj⟩ := List.mem_iff_getElem?.1 hp
  by_cases hkj : k = j
  · subst hkj
    rw [State.getElem?_onBin_same, Option.map_eq_some_iff] at hj
    obtain ⟨q, hq, rfl⟩ := hj
    exact hf q (h.closed q (List.mem_of_getElem? hq))
  · rw [State.getElem?_onBin_ne _ _ hkj] at hj
    exact h.closed p (List.mem_of_getElem? hj)

theorem afterFetch {s : State} (h : s.Inv) (a : Agent) : (fetch a s).1.Inv := by
  cases a with
  | bin k =>
    rcases fetch_bin_cases k s with ⟨_, hf⟩ | ⟨p, F, rest, _, _, _, hf⟩ <;> rw [hf]
    · exact h
    · exact h.onBin k fun _ hp => hp
  | ser =>
    cases hrx : s.ser.rx with
    | nil => rw [fetch_ser_nil hrx]; exact h
    | cons c rest => rw [fetch_ser_cons hrx]; exact h.withSer (h.framer.afterByte h.legal.2 c rest)
  | host =>
    cases hq : s.host.inQ with
    | nil => rw [fetch_host_nil hq]; exact h
    | cons op rest => rw [fetch_host_cons hq]; exact h.withHost _

theorem afterEnds {s t : State} (h : s.Inv) (a : Agent) (hends : Ends a s t) : t.Inv := by
  cases a with
  | bin k =>
    obtain ⟨st, f, hst, hf, rfl⟩ := hends.bin_cases
    exact (h.withStore (hst.ok h.store)).onBin k fun _ => hf.ok
  | ser =>
    obtain ⟨st, r, x, hst, rfl⟩ := hends.ser_cases
    exact (h.withStore (hst.ok h.store)).withSer h.framer
  | host =>
    obtain ⟨st, res, hst, rfl⟩ := hends.host_cases
    exact (h.withStore (hst.ok h.store)).withHost _

end State.Inv

/-- Settles O50: taking input keeps the invariant, and so does every way a transaction ends. -/
theorem stepKeepsTheInvariant : Obligations.StepKeepsTheInvariant := by
  intro s t hs hstep
  exact step_preserves (fun _ n h => h.withTick n) (fun a _ h => h.afterFetch a) (fun a _ _ h => h.afterEnds a) hs hstep

/-- Settles O52: an opened port has `close[k]` low and a closed one is `CLOSED`; the other operations touch queues
alone. -/
theorem theOutsideKeepsTheInvariant : Obligations.TheOutsideKeepsTheInvariant := by
  intro s hs
  refine ⟨fun k => ⟨?_, ?_, ?_, fun F => ?_⟩, fun bs => ?_, fun op => ?_, ?_, ?_⟩
  · exact hs.onBin k fun _ _ hclose => nomatch hclose
  · exact hs.onBin k fun _ _ _ => rfl
  · exact hs.onBin k fun _ hp => hp
  · exact hs.onBin k fun _ hp => hp
  · exact hs.withSer hs.framer
  · exact hs.withHost _
  · exact hs.withSer hs.framer
  · exact hs.withHost _

/-! ## Outputs grow and inputs shrink -/

/-- What may become of a binary port's queues and statuses (R21). -/
def BinPort.Flows (p p' : BinPort) : Prop := p.outQ <+: p'.outQ ∧ p.status <+: p'.status ∧ p'.inQ <:+ p.inQ

def SerPort.Flows (p p' : SerPort) : Prop := p.tx <+: p'.tx ∧ p.status <+: p'.status ∧ p'.rx <:+ p.rx

def HostPort.Flows (p p' : HostPort) : Prop := p.outQ <+: p'.outQ ∧ p'.inQ <:+ p.inQ

theorem BinPort.Flows.refl (p : BinPort) : p.Flows p := ⟨List.prefix_rfl, List.prefix_rfl, List.suffix_rfl⟩

theorem BinPort.Flows.trans {p q r : BinPort} (hpq : p.Flows q) (hqr : q.Flows r) : p.Flows r := by
  obtain ⟨hout, hstatus, hin⟩ := hpq
  obtain ⟨hout', hstatus', hin'⟩ := hqr
  exact ⟨hout.trans hout', hstatus.trans hstatus', hin'.trans hin⟩

theorem SerPort.Flows.trans {p q r : SerPort} (hpq : p.Flows q) (hqr : q.Flows r) : p.Flows r := by
  obtain ⟨htx, hstatus, hrx⟩ := hpq
  obtain ⟨htx', hstatus', hrx'⟩ := hqr
  exact ⟨htx.trans htx', hstatus.trans hstatus', hrx'.trans hrx⟩

theorem HostPort.Flows.trans {p q r : HostPort} (hpq : p.Flows q) (hqr : q.Flows r) : p.Flows r := by
  obtain ⟨hout, hin⟩ := hpq
  obtain ⟨hout', hin'⟩ := hqr
  exact ⟨hout.trans hout', hin'.trans hin⟩

theorem PortEnd.flows {f : BinPort → BinPort} (hf : PortEnd f) (p : BinPort) : p.Flows (f p) := by
  rcases hf with ⟨e, rfl⟩ | ⟨r, rfl⟩
  · exact ⟨List.prefix_rfl, List.prefix_append _ _, List.suffix_rfl⟩
  · exact ⟨List.prefix_append _ _, List.prefix_append _ _, List.suffix_rfl⟩

/-- Every port of `s` is in `t`, its outputs extended and its inputs taken from the head (R21). -/
structure State.Flows (s t : State) : Prop where
  bin : ∀ (k : Nat) (p : BinPort), s.bin[k]? = some p → ∃ p', t.bin[k]? = some p' ∧ p.Flows p'
  ser : s.ser.Flows t.ser
  host : s.host.Flows t.host

namespace State.Flows

theorem refl (s : State) : s.Flows s :=
  ⟨fun _ p hp => ⟨p, hp, .refl p⟩, ⟨List.prefix_rfl, List.prefix_rfl, List.suffix_rfl⟩,
    ⟨List.prefix_rfl, List.suffix_rfl⟩⟩

theorem onBin {s t : State} (h : s.Flows t) (k : Nat) {f : BinPort → BinPort}
    (hf : ∀ p, t.bin[k]? = some p → p.Flows (f p)) : s.Flows (t.onBin k f) := by
  refine ⟨fun j p hp => ?_, h.ser, h.host⟩
  obtain ⟨q, hq, hpq⟩ := h.bin j p hp
  by_cases hkj : k = j
  · subst hkj
    exact ⟨f q, by rw [State.getElem?_onBin_same, hq, Option.map_some], hpq.trans (hf q hq)⟩
  · exact ⟨q, (State.getElem?_onBin_ne _ _ hkj).trans hq, hpq⟩

theorem withSer {s t : State} (h : s.Flows t) {p : SerPort} (hp : t.ser.Flows p) : s.Flows { t with ser := p } :=
  ⟨h.bin, h.ser.trans hp, h.host⟩

theorem withHost {s t : State} (h : s.Flows t) {p : HostPort} (hp : t.host.Flows p) : s.Flows { t with host := p } :=
  ⟨h.bin, h.ser, h.host.trans hp⟩

theorem withStore {s t : State} (h : s.Flows t) (st : Store) : s.Flows { t with store := st } := ⟨h.bin, h.ser, h.host⟩

/-- Taking input removes the head of one input queue. -/
theorem afterFetch {s t : State} (h : s.Flows t) (a : Agent) : s.Flows (fetch a t).1 := by
  cases a with
  | bin k =>
    rcases fetch_bin_cases k t with ⟨_, hf⟩ | ⟨p, F, rest, hp, _, hq, hf⟩ <;> rw [hf]
    · exact h
    · refine h.onBin k fun p' hp' => ?_
      obtain rfl : p = p' := Option.some.inj (hp.symm.trans hp')
      exact ⟨List.prefix_rfl, List.prefix_rfl, hq ▸ List.suffix_cons F rest⟩
  | ser =>
    cases hrx : t.ser.rx with
    | nil => rw [fetch_ser_nil hrx]; exact h
    | cons c rest =>
      rw [fetch_ser_cons hrx]
      exact h.withSer ⟨List.prefix_rfl, List.prefix_rfl, hrx ▸ List.suffix_cons c rest⟩
  | host =>
    cases hq : t.host.inQ with
    | nil => rw [fetch_host_nil hq]; exact h
    | cons op rest =>
      rw [fetch_host_cons hq]
      exact h.withHost ⟨List.prefix_rfl, hq ▸ List.suffix_cons op rest⟩

/-- Ending a transaction appends to outputs. -/
theorem afterEnds {s t u : State} (h : s.Flows t) (a : Agent) (hends : Ends a t u) : s.Flows u := by
  cases a with
  | bin k =>
    obtain ⟨st, f, _, hf, rfl⟩ := hends.bin_cases
    exact (h.withStore st).onBin k fun p _ => hf.flows p
  | ser =>
    obtain ⟨st, r, x, _, rfl⟩ := hends.ser_cases
    exact (h.withStore st).withSer ⟨List.prefix_append _ _, List.prefix_append _ _, List.suffix_rfl⟩
  | host =>
    obtain ⟨st, res, _, rfl⟩ := hends.host_cases
    exact (h.withStore st).withHost ⟨List.prefix_append _ _, List.suffix_rfl⟩

end State.Flows

theorem step_flows {s t : State} (hstep : step s = .next t) : s.Flows t :=
  step_preserves (P := s.Flows) (fun _ _ h => ⟨h.bin, h.ser, h.host⟩) (fun a _ h => h.afterFetch a)
    (fun a _ _ h => h.afterEnds a) (.refl s) hstep

/-- Settles O57: taking input removes a head, ending a transaction appends, and a step does nothing else. -/
theorem outputsOnlyGrowAndInputsOnlyShrink : Obligations.OutputsOnlyGrowAndInputsOnlyShrink := by
  intro s t hstep
  obtain ⟨hbin, ⟨htx, hstatus, hrx⟩, hout, hin⟩ := step_flows hstep
  exact ⟨hbin, htx, hstatus, hrx, hout, hin⟩

/-! ## Which agents can step -/

theorem step_of_boot_error {s : State} {e : ErrorKind} (hboot : s.boot = .error e) : step s = .fault .heldInReset := by
  simp only [step, hboot]

theorem step_of_choose_none {s : State} (hboot : s.boot = .ok) (hchoose : choose s.tick (enabled s) = none) :
    step s = .next s := by
  simp only [step, hboot, hchoose]

theorem step_of_choose_some {s : State} {a : Agent} (hboot : s.boot = .ok)
    (hchoose : choose s.tick (enabled s) = some a) : step s = serve a { s with tick := s.tick + 1 } := by
  simp only [step, hboot, hchoose]

theorem BinPort.ready_iff (p : BinPort) : p.ready = true ↔ p.state = .opened ∧ p.inQ ≠ [] := by
  simp [BinPort.ready]

/-- A binary port can step when it is there, `OPEN`, and has a frame waiting (R25, R170). -/
theorem bin_mem_enabled {s : State} {k : Nat} :
    Agent.bin k ∈ enabled s ↔ ∃ p, s.bin[k]? = some p ∧ p.state = .opened ∧ p.inQ ≠ [] := by
  have hready : Agent.bin k ∈ enabled s ↔ k < s.bin.length ∧ (s.bin[k]?.map BinPort.ready).getD false = true := by
    simp [enabled]
  rw [hready]
  cases hp : s.bin[k]? with
  | none => simp
  | some p =>
    obtain ⟨hlt, _⟩ := List.getElem?_eq_some_iff.1 hp
    simp [hlt, BinPort.ready_iff]

theorem ser_mem_enabled {s : State} : Agent.ser ∈ enabled s ↔ s.ser.rx ≠ [] := by
  simp [enabled]

theorem host_mem_enabled {s : State} : Agent.host ∈ enabled s ↔ s.host.inQ ≠ [] := by
  simp [enabled]

/-- Settles O46: membership in `enabled` port by port, and the two cases of a step out of reset. -/
theorem stepServesOneReadyAgent : Obligations.StepServesOneReadyAgent := by
  intro s
  refine ⟨fun k => bin_mem_enabled, ser_mem_enabled, host_mem_enabled, fun hboot hnone => ?_, fun hboot hsome => ?_⟩
  · exact step_of_choose_none hboot (choose_eq_none.2 hnone)
  · obtain ⟨a, ha⟩ := Option.ne_none_iff_exists'.1 fun hchoose => hsome (choose_eq_none (n := s.tick).1 hchoose)
    exact ⟨a, choose_mem ha, step_of_choose_some hboot ha⟩

/-! ## What an agent runs -/

theorem serve_of_fetch {a : Agent} {s s' : State} {r : Request} {i : Instr} (hf : fetch a s = (s', some r))
    (hi : decode r = .ok i) : serve a s = exec i s' := by
  simp only [serve, hf, transact, hi]

/-- In `CK2` the next byte completes a frame, and the framer hunts again with an empty buffer (R200). -/
theorem fetch_ser_ck2 {s : State} {c : Byte} {rest : Bytes} (hfs : s.ser.fs = .ck2) (hrx : s.ser.rx = c :: rest) :
    fetch .ser s =
      ({ s with ser := { s.ser with rx := rest, fs := .hunt, buf := [] } }, some (.asc (s.ser.buf ++ [c]))) := by
  rw [fetch_ser_cons hrx, hfs]
  rfl

/-- Settles O47: what `fetch` leaves and gives on each port, with the command it decodes to. -/
theorem stepRunsTheDecodedCommand : Obligations.StepRunsTheDecodedCommand := by
  intro s
  refine ⟨fun k p F rest i hp hopen hq hi => ?_, fun c rest i hfs hrx hi => ?_, fun op rest i hq hi => ?_⟩
  · rw [serve_of_fetch (fetch_bin hp hopen hq) hi, State.onBin_eq_set _ hp]
  · exact serve_of_fetch (fetch_ser_ck2 hfs hrx) hi
  · exact serve_of_fetch (fetch_host_cons hq) hi

/-! ## A binary port moves by its own agent alone -/

theorem fetch_getElem?_bin_ne {a : Agent} {k : Nat} (hak : a ≠ .bin k) (s : State) :
    (fetch a s).1.bin[k]? = s.bin[k]? := by
  cases a with
  | bin j =>
    rcases fetch_bin_cases j s with ⟨_, hf⟩ | ⟨_, _, _, _, _, _, hf⟩ <;> rw [hf]
    exact State.getElem?_onBin_ne _ _ fun hjk => hak (congrArg Agent.bin hjk)
  | ser =>
    cases hrx : s.ser.rx with
    | nil => rw [fetch_ser_nil hrx]
    | cons c rest => rw [fetch_ser_cons hrx]
  | host =>
    cases hq : s.host.inQ with
    | nil => rw [fetch_host_nil hq]
    | cons op rest => rw [fetch_host_cons hq]

theorem Ends.getElem?_bin_ne {a : Agent} {k : Nat} (hak : a ≠ .bin k) {s t : State} (h : Ends a s t) :
    t.bin[k]? = s.bin[k]? := by
  cases a with
  | bin j =>
    obtain ⟨_, _, _, _, rfl⟩ := h.bin_cases
    exact State.getElem?_onBin_ne _ _ fun hjk => hak (congrArg Agent.bin hjk)
  | ser => obtain ⟨_, _, _, _, rfl⟩ := h.ser_cases; rfl
  | host => obtain ⟨_, _, _, rfl⟩ := h.host_cases; rfl

theorem serve_getElem?_bin_ne {a : Agent} {k : Nat} (hak : a ≠ .bin k) {s t : State} (h : serve a s = .next t) :
    t.bin[k]? = s.bin[k]? := by
  have hfetch := fetch_getElem?_bin_ne hak s
  rcases serve_next h with rfl | hends
  · exact hfetch
  · exact (hends.getElem?_bin_ne hak).trans hfetch

/-- Settles O58: the agent that steps is not the closed port's, and no other agent touches that port. -/
theorem closedPortsTakeNoStep : Obligations.ClosedPortsTakeNoStep := by
  intro s t k p hstep hp hclosed
  rcases step_next hstep with rfl | ⟨a, ha, hserve⟩
  · exact hp
  · have hak : a ≠ .bin k := by
      rintro rfl
      obtain ⟨q, hq, hopen, _⟩ := bin_mem_enabled.1 ha
      obtain rfl : p = q := Option.some.inj (hp.symm.trans hq)
      exact nomatch hclosed.symm.trans hopen
    exact (serve_getElem?_bin_ne hak hserve).trans hp

/-! ## Statuses presented are not read -/

/-- The port's part of `State.dropStatus`. -/
def BinPort.dropStatus (p : BinPort) : BinPort := { p with status := [] }

theorem State.dropStatus_bin (s : State) : s.dropStatus.bin = s.bin.map BinPort.dropStatus := rfl

theorem State.dropStatus_getElem?_bin (s : State) (k : Nat) :
    s.dropStatus.bin[k]? = (s.bin[k]?).map BinPort.dropStatus := by
  rw [State.dropStatus_bin, List.getElem?_map]

theorem State.dropStatus_dropStatus (s : State) : s.dropStatus.dropStatus = s.dropStatus := by
  simp [State.dropStatus]

theorem map_modify_of_comm {α β : Type} {d : α → β} {f : α → α} {g : β → β} (h : ∀ x, d (f x) = g (d x)) (l : List α)
    (k : Nat) : (l.modify k f).map d = (l.map d).modify k g := by
  refine List.ext_getElem? fun j => ?_
  by_cases hkj : k = j <;> simp [hkj, h, Function.comp_def]

theorem State.dropStatus_onBin {f g : BinPort → BinPort} (h : ∀ p, (f p).dropStatus = g p.dropStatus) (s : State)
    (k : Nat) : (s.onBin k f).dropStatus = s.dropStatus.onBin k g :=
  congrArg (fun ports => { s.dropStatus with bin := ports }) (map_modify_of_comm h s.bin k)

/-- A change of state whose outcome, statuses aside, is the same whether past statuses are there or dropped. -/
def IgnoresStatus (f : State → State) : Prop := ∀ s : State, (f s.dropStatus).dropStatus = (f s).dropStatus

theorem ignoresStatus_onBin (k : Nat) {f : BinPort → BinPort} (h : ∀ p, (f p).dropStatus = (f p.dropStatus).dropStatus) :
    IgnoresStatus fun s => s.onBin k f := by
  intro s
  have hdrop := State.dropStatus_onBin (g := fun p => (f p).dropStatus) h
  calc (s.dropStatus.onBin k f).dropStatus
      = s.dropStatus.dropStatus.onBin k fun p => (f p).dropStatus := hdrop s.dropStatus k
    _ = s.dropStatus.onBin k fun p => (f p).dropStatus := by rw [State.dropStatus_dropStatus]
    _ = (s.onBin k f).dropStatus := (hdrop s k).symm

theorem ignoresStatus_raiseError (a : Agent) (e : ErrorKind) : IgnoresStatus (raiseError a e) := by
  intro s
  cases a with
  | bin k => exact ignoresStatus_onBin k (fun _ => rfl) s
  | ser => simp [raiseError, State.dropStatus]
  | host => simp [raiseError, State.dropStatus]

theorem ignoresStatus_emitBin (k : Nat) (st : Store) (r : Bytes) : IgnoresStatus (emitBin k st r) := fun s =>
  ignoresStatus_onBin k (fun _ => rfl) { s with store := st }

theorem ignoresStatus_emitSer (st : Store) (r : Bytes) : IgnoresStatus (emitSer st r) := fun s => by
  simp [emitSer, State.dropStatus]

theorem ignoresStatus_emitHost (st : Store) (v : HostValue) : IgnoresStatus (emitHost st v) := fun s => by
  simp [emitHost, State.dropStatus]

theorem ignoresStatus_finishBin (k : Nat) : ∀ r, IgnoresStatus (finishBin k r)
  | .ok (st, bytes) => ignoresStatus_emitBin k st bytes
  | .error e => ignoresStatus_raiseError (.bin k) e

theorem ignoresStatus_finishSer : ∀ r, IgnoresStatus (finishSer r)
  | .ok (st, bytes) => ignoresStatus_emitSer st bytes
  | .error e => ignoresStatus_raiseError .ser e

theorem ignoresStatus_finishHost : ∀ r, IgnoresStatus (finishHost r)
  | .ok (st, v) => ignoresStatus_emitHost st v
  | .error e => ignoresStatus_raiseError .host e

/-- A command reads the capacity and the store; what it then does to its port is the same with statuses dropped. -/
theorem exec_ignoresStatus (i : Instr) (s : State) :
    ∃ f, IgnoresStatus f ∧ exec i s = .next (f s) ∧ exec i s.dropStatus = .next (f s.dropStatus) := by
  cases i with
  | binRead | binWrite => exact ⟨finishBin _ _, ignoresStatus_finishBin _ _, rfl, rfl⟩
  | ascRdMb | ascRdPb | ascRdDb | ascRdTb | ascWrMx | ascWrDx | ascWrCw | ascWrTw | ascWrMw | ascWrDw | ascWssMx
  | ascWssDx | ascWssCw | ascWssTw | ascWssMw | ascWssDw => exact ⟨finishSer _, ignoresStatus_finishSer _, rfl, rfl⟩
  | ascWrDd | ascWrDl | ascWssDd | ascWssDl => exact ⟨raiseError _ _, ignoresStatus_raiseError _ _, rfl, rfl⟩
  | hostRead | hostWrite | hostReadbit | hostWritebit | hostImport =>
    exact ⟨finishHost _, ignoresStatus_finishHost _, rfl, rfl⟩
  | hostExport => exact ⟨emitHost _ _, ignoresStatus_emitHost _ _, rfl, rfl⟩

theorem transact_dropStatus (r : Request) (s : State) :
    ∃ t u, transact r s = .next t ∧ transact r s.dropStatus = .next u ∧ u.dropStatus = t.dropStatus := by
  unfold transact
  split
  · next i _ =>
    obtain ⟨f, hf, hexec, hexec'⟩ := exec_ignoresStatus i s
    exact ⟨_, _, hexec, hexec', hf s⟩
  · next e _ => exact ⟨_, _, rfl, rfl, ignoresStatus_raiseError r.agent e s⟩

/-- What an agent takes does not depend on statuses. -/
theorem fetch_dropStatus (a : Agent) (s : State) :
    fetch a s.dropStatus = ((fetch a s).1.dropStatus, (fetch a s).2) := by
  cases a with
  | bin k =>
    rcases fetch_bin_cases k s with ⟨hidle, hf⟩ | ⟨p, F, rest, hp, hopen, hq, hf⟩ <;> rw [hf]
    · refine fetch_bin_idle fun p' hp' => ?_
      rw [State.dropStatus_getElem?_bin, Option.map_eq_some_iff] at hp'
      obtain ⟨p, hp, rfl⟩ := hp'
      exact hidle p hp
    · have hp' : s.dropStatus.bin[k]? = some p.dropStatus := by rw [State.dropStatus_getElem?_bin, hp, Option.map_some]
      rw [fetch_bin hp' hopen hq]
      have htake : (s.onBin k fun p => { p with inQ := rest }).dropStatus
          = s.dropStatus.onBin k fun p => { p with inQ := rest } :=
        State.dropStatus_onBin (f := fun p => { p with inQ := rest }) (g := fun p => { p with inQ := rest })
          (fun _ => rfl) s k
      rw [htake]
  | ser =>
    cases hrx : s.ser.rx with
    | nil => rw [fetch_ser_nil hrx, fetch_ser_nil (s := s.dropStatus) hrx]
    | cons c rest =>
      rw [fetch_ser_cons hrx, fetch_ser_cons (s := s.dropStatus) hrx]
      rfl
  | host =>
    cases hq : s.host.inQ with
    | nil => rw [fetch_host_nil hq, fetch_host_nil (s := s.dropStatus) hq]
    | cons op rest =>
      rw [fetch_host_cons hq, fetch_host_cons (s := s.dropStatus) hq]
      rfl

theorem serve_dropStatus (a : Agent) (s : State) :
    ∃ t u, serve a s = .next t ∧ serve a s.dropStatus = .next u ∧ u.dropStatus = t.dropStatus := by
  unfold serve
  rw [fetch_dropStatus]
  obtain ⟨s', r⟩ := fetch a s
  cases r with
  | none => exact ⟨s', s'.dropStatus, rfl, rfl, s'.dropStatus_dropStatus⟩
  | some r => exact transact_dropStatus r s'

/-- Which agents can step does not depend on statuses. -/
theorem enabled_dropStatus (s : State) : enabled s.dropStatus = enabled s := by
  have hready : BinPort.ready ∘ BinPort.dropStatus = BinPort.ready := rfl
  simp only [enabled, State.dropStatus_bin, List.getElem?_map, Option.map_map, hready, List.length_map]
  rfl

theorem step_dropStatus (s : State) :
    (step s = .fault .heldInReset ∧ step s.dropStatus = .fault .heldInReset)
    ∨ ∃ t u, step s = .next t ∧ step s.dropStatus = .next u ∧ u.dropStatus = t.dropStatus := by
  have hsame : choose s.dropStatus.tick (enabled s.dropStatus) = choose s.tick (enabled s) := by
    rw [enabled_dropStatus]
    rfl
  cases hboot : s.boot with
  | error e => exact .inl ⟨step_of_boot_error hboot, step_of_boot_error (s := s.dropStatus) hboot⟩
  | ok =>
    cases hchoose : choose s.tick (enabled s) with
    | none =>
      exact .inr ⟨s, s.dropStatus, step_of_choose_none hboot hchoose,
        step_of_choose_none (s := s.dropStatus) hboot (hsame.trans hchoose), s.dropStatus_dropStatus⟩
    | some a =>
      rw [step_of_choose_some hboot hchoose, step_of_choose_some (s := s.dropStatus) hboot (hsame.trans hchoose)]
      exact .inr (serve_dropStatus a { s with tick := s.tick + 1 })

/-- Settles O60: the agent chosen, what it takes and what its command does are the same with the statuses dropped. -/
theorem statusesNeverAffectAStep : Obligations.StatusesNeverAffectAStep := by
  intro s
  rcases step_dropStatus s with ⟨hfault, hfault'⟩ | ⟨t, u, ht, hu, hut⟩
  · exact ⟨fun t ht => (nomatch hfault.symm.trans ht), fun f hf => hfault'.trans (hfault.symm.trans hf)⟩
  · refine ⟨fun t' ht' => ?_, fun f hf => (nomatch ht.symm.trans hf)⟩
    obtain rfl : t = t' := Host.Outcome.next.inj (ht.symm.trans ht')
    exact ⟨u, hu, hut⟩

end Sys2Proof.Machine
end

section
/-! PROOFS. The statements of 20_memory.md: the primitives of the memory access unit, and that a failed transaction has
written nothing. -/

namespace Sys2Proof.Machine

/-! ## Bytes of an area -/

theorem byteAt_ext {F G : Bytes} (hlen : F.length = G.length) (h : ∀ j < F.length, byteAt F j = byteAt G j) : F = G :=
  List.ext_getElem hlen fun j hF hG => by
    have hj := h j hF
    rwa [byteAt, byteAt, List.getD_eq_getElem _ _ hF, List.getD_eq_getElem _ _ hG] at hj

theorem Memory.byteAt_readBytes (m : Memory) {start n j : Nat} (hj : j < n) :
    byteAt (m.readBytes start n) j = m.read (start + j) :=
  m.getD_readBytes n start j hj

theorem Memory.read_writeBytes_inside {m : Memory} (hwf : m.wf = true) {start j : Nat} {v : Bytes} (hj : j < v.length) :
    (m.writeBytes start v).read (start + j) = byteAt v j := by
  rw [Memory.read_writeBytes _ v start hwf, if_pos (by omega), Nat.add_sub_cancel_left, byteAt]

theorem Memory.read_writeBytes_outside {m : Memory} (hwf : m.wf = true) {start i : Nat} {v : Bytes}
    (hi : ¬(start ≤ i ∧ i < start + v.length)) : (m.writeBytes start v).read i = m.read i := by
  rw [Memory.read_writeBytes _ v start hwf, if_neg hi]

/-- The byte law of R70. -/
theorem Memory.readBytes_writeBytes {m : Memory} (hwf : m.wf = true) (start : Nat) (v : Bytes) :
    (m.writeBytes start v).readBytes start v.length = v := by
  refine byteAt_ext (Memory.length_readBytes _ _ _) fun j hj => ?_
  rw [Memory.length_readBytes] at hj
  rw [Memory.byteAt_readBytes _ hj, Memory.read_writeBytes_inside hwf hj]

/-- Where area `a` was replaced by one that reads the same outside `changed`, so does the whole store. -/
theorem Store.read_set_outside {st : Store} {a : Area} {m : Memory} {changed : Nat → Prop}
    (hm : ∀ i, ¬changed i → m.read i = (st.get a).read i) (b : Area) (i : Nat) (hb : ¬(b = a ∧ changed i)) :
    ((st.set a m).get b).read i = (st.get b).read i := by
  rw [Store.get_set]
  split
  · next hba =>
    subst hba
    exact hm i fun hi => hb ⟨rfl, hi⟩
  · rfl

/-! ## Bits of an area -/

theorem Memory.bit_eq_div_mod (m : Memory) (i : Nat) :
    m.bit i = ((m.read (i / 8)).toNat / 2 ^ (i % 8) % 2 == 1) := by
  rw [Memory.bit, ← BitVec.testBit_toNat, Nat.testBit_eq_decide_div_mod_eq]
  rfl

/-- A bit at position `j` of byte `k`, by the numbering of R52. -/
theorem Memory.bit_mul_add (m : Memory) (k : Nat) {j : Nat} (hj : j < 8) : m.bit (8 * k + j) = (m.read k).getLsbD j := by
  rw [Memory.bit, show (8 * k + j) / 8 = k by omega, show (8 * k + j) % 8 = j by omega]

/-- The area after `BitWrite`'s read-modify-write of one byte (R56). -/
def Memory.writeBit (m : Memory) (i : Nat) (v : Bool) : Memory :=
  m.write (i / 8) (setBit (m.read (i / 8)) (i % 8) v)

theorem bitWrite_eq_ok {cap i : Nat} (hi : i < 8 * cap) (st : Store) (a : Area) (v : Bool) :
    bitWrite cap st a i v = .ok (st.set a ((st.get a).writeBit i v)) :=
  bitWrite_ok.2 ⟨hi, rfl⟩

theorem Memory.read_writeBit_outside {m : Memory} (hwf : m.wf = true) {i k : Nat} (v : Bool) (hk : ¬k = i / 8) :
    (m.writeBit i v).read k = m.read k := by
  rw [Memory.writeBit, Memory.read_write hwf, if_neg hk]

/-- A bit after the write of one bit: the bit written, or the bit before. In the byte rewritten the two bits differ in
their positions, and any other byte is as it was. -/
theorem Memory.bit_writeBit {m : Memory} (hwf : m.wf = true) (i j : Nat) (v : Bool) :
    (m.writeBit i v).bit j = if j = i then v else m.bit j := by
  by_cases hbyte : j / 8 = i / 8
  · have hpos : j % 8 = i % 8 ↔ j = i := by omega
    rw [Memory.bit, Memory.writeBit, Memory.read_write hwf, if_pos hbyte,
      getLsbD_setBit _ _ _ _ (Nat.mod_lt _ (by omega)) (Nat.mod_lt _ (by omega)), ← hbyte]
    simp only [hpos, Memory.bit]
  · have hne : j ≠ i := fun h => hbyte (h ▸ rfl)
    rw [Memory.bit, Memory.read_writeBit_outside hwf v hbyte, if_neg hne, Memory.bit]

/-- A bit of an area is read by its index alone, so areas that agree on the bit give the same `BitRead` (R55). -/
theorem bitRead_congr {cap : Nat} {st st' : Store} {a : Area} {i : Nat} (h : (st'.get a).bit i = (st.get a).bit i) :
    bitRead cap st' a i = bitRead cap st a i := by
  rw [bitRead, bitRead, h]

/-! ## Packed bits -/

theorem Memory.byteAt_packBytes (m : Memory) {i n k : Nat} (hk : k < n) :
    byteAt (m.packBytes i n) k = m.packByte (i + 8 * k) :=
  m.getD_packBytes n i k hk

/-- Eight bits from a multiple of 8 on are one byte of the area (R57). -/
theorem Memory.packByte_mul (m : Memory) (k : Nat) : m.packByte (8 * k) = m.read k :=
  BitVec.eq_of_getLsbD_eq fun j hj => by rw [Memory.getLsbD_packByte _ _ _ hj, Memory.bit_mul_add _ _ hj]

/-- Eight bits from position `r` of byte `k` on: the upper `8 - r` bits of that byte, then the lower `r` bits of the
next (R57). -/
theorem Memory.packByte_mul_add (m : Memory) (k : Nat) {r : Nat} (hr : r < 8) :
    m.packByte (8 * k + r) = (m.read k >>> r) ||| (m.read (k + 1) <<< (8 - r)) := by
  refine BitVec.eq_of_getLsbD_eq fun j hj => ?_
  rw [Memory.getLsbD_packByte _ _ _ hj, BitVec.getLsbD_or, BitVec.getLsbD_ushiftRight, BitVec.getLsbD_shiftLeft]
  by_cases hlow : r + j < 8
  · rw [Nat.add_assoc, Memory.bit_mul_add _ _ hlow]
    simp [show j < 8 - r by omega]
  · rw [show 8 * k + r + j = 8 * (k + 1) + (j - (8 - r)) by omega, Memory.bit_mul_add _ _ (by omega),
      BitVec.getLsbD_of_ge _ (r + j) (by omega)]
    simp [hj, show ¬j < 8 - r by omega]

theorem Memory.packBytes_mul (m : Memory) (q n : Nat) : m.packBytes (8 * q) n = m.readBytes q n := by
  refine byteAt_ext (by simp) fun k hk => ?_
  rw [Memory.length_packBytes] at hk
  rw [Memory.byteAt_packBytes _ hk, Memory.byteAt_readBytes _ hk, ← Nat.mul_add, Memory.packByte_mul]

/-! ## The primitives -/

/-- Settles O14: `memRead_error` and `memRead_ok` give the two outcomes. -/
theorem memReadReturnsTheRange : Obligations.MemReadReturnsTheRange := by
  intro cap st a start n
  refine ⟨fun hout => memRead_error.2 ⟨hout, rfl⟩, fun hin => ?_⟩
  exact ⟨_, memRead_ok.2 ⟨hin, rfl⟩, Memory.length_readBytes _ _ _, fun j hj => Memory.byteAt_readBytes _ hj⟩

/-- Settles O15: the area written reads as `v` in the range and as before outside it, and no other area is set. -/
theorem memWriteStoresExactlyItsBytes : Obligations.MemWriteStoresExactlyItsBytes := by
  intro cap st a start v hst
  obtain ⟨hwf, _⟩ := hst a
  refine ⟨fun hout => memWrite_error.2 ⟨hout, rfl⟩, fun hin => ⟨_, memWrite_ok.2 ⟨hin, rfl⟩, fun j hj => ?_, ?_⟩⟩
  · rw [Store.get_set_same, Memory.read_writeBytes_inside hwf hj]
  · exact Store.read_set_outside fun i hi => Memory.read_writeBytes_outside hwf hi

/-- Settles O16: the bit `bitRead_ok` gives is a binary digit of its byte. -/
theorem bitReadReturnsTheBit : Obligations.BitReadReturnsTheBit := by
  intro cap st a i
  exact ⟨fun hout => bitRead_error.2 ⟨hout, rfl⟩, fun hin => bitRead_ok.2 ⟨hin, (Memory.bit_eq_div_mod _ i).symm⟩⟩

/-- Settles O17: `Memory.bit_writeBit` gives the bits of the area, and one byte of it alone was written. -/
theorem bitWriteChangesOneBit : Obligations.BitWriteChangesOneBit := by
  intro cap st a i v hst
  obtain ⟨hwf, _⟩ := hst a
  refine ⟨fun hout => bitWrite_error.2 ⟨hout, rfl⟩, fun hin => ⟨_, bitWrite_eq_ok hin st a v, ?_, fun j hj => ?_, ?_⟩⟩
  · rw [Store.get_set_same, Memory.bit_writeBit hwf, if_pos rfl]
  · rw [Store.get_set_same, Memory.bit_writeBit hwf, if_neg hj]
  · exact Store.read_set_outside fun k hk => Memory.read_writeBit_outside hwf v hk

/-- Settles O18: with `start` split into its byte and its position there, each result byte is `Memory.packByte_mul` or
`Memory.packByte_mul_add`. -/
theorem bitRangeReadPacksItsBits : Obligations.BitRangeReadPacksItsBits := by
  intro cap st a start n
  have hsplit := Nat.div_add_mod start 8
  refine ⟨fun hout => bitRangeRead_error.2 ⟨hout, rfl⟩, fun hin =>
    ⟨_, bitRangeRead_ok.2 ⟨hin, rfl⟩, Memory.length_packBytes _ _ _, fun k hk j hj => ?_, fun haligned => ?_,
      fun _ k hk => ?_⟩⟩
  · rw [Memory.byteAt_packBytes _ hk, Memory.getLsbD_packByte _ _ _ hj]
  · rw [haligned, Nat.add_zero] at hsplit
    exact memRead_ok.2 ⟨by omega, by rw [← Memory.packBytes_mul, hsplit]⟩
  · have hbyte : start + 8 * k = 8 * (start / 8 + k) + start % 8 := by omega
    rw [Memory.byteAt_packBytes _ hk, hbyte, Memory.packByte_mul_add _ _ (Nat.mod_lt _ (by omega))]

/-- Settles O19: `Memory.readBytes_writeBytes` and `Memory.bit_writeBit`, behind the bounds checks. -/
theorem whatIsWrittenIsReadBack : Obligations.WhatIsWrittenIsReadBack := by
  intro cap st a hst
  obtain ⟨hwf, _⟩ := hst a
  refine ⟨fun start b hin => ⟨_, memWrite_ok.2 ⟨hin, rfl⟩, memRead_ok.2 ⟨hin, ?_⟩⟩,
    fun i v hin => ⟨_, bitWrite_eq_ok hin st a v, bitRead_ok.2 ⟨hin, ?_⟩, fun j hj => bitRead_congr ?_⟩⟩
  · rw [Store.get_set_same, Memory.readBytes_writeBytes hwf]
  · rw [Store.get_set_same, Memory.bit_writeBit hwf, if_pos rfl]
  · rw [Store.get_set_same, Memory.bit_writeBit hwf, if_neg hj]

/-! ## Failed transactions -/

theorem append_ok_ne_append_error {e : ErrorKind} (l : List Status) : l ++ [Status.ok] ≠ l ++ [.error e] := by
  simp

/-- A transaction of `BIN[k]` that answers presents `OK`, so one that presents an error took the error entry (R64). -/
theorem Ends.bin_store_of_error {k : Nat} {s t : State} {p p' : BinPort} {e : ErrorKind} (hends : Ends (.bin k) s t)
    (hp : s.bin[k]? = some p) (hp' : t.bin[k]? = some p') (hstatus : p'.status = p.status ++ [.error e]) :
    t.store = s.store := by
  rcases hends with ⟨_, rfl⟩ | ⟨st, r, _, rfl⟩
  · rfl
  · obtain rfl : p.emit r = p' := by
      rw [emitBin, State.getElem?_onBin_same, hp] at hp'
      exact Option.some.inj hp'
    exact absurd hstatus (append_ok_ne_append_error p.status)

theorem Ends.ser_store_of_error {s t : State} {e : ErrorKind} (hends : Ends .ser s t)
    (hstatus : t.ser.status = s.ser.status ++ [.error e]) : t.store = s.store := by
  rcases hends with ⟨_, rfl⟩ | ⟨st, r, _, rfl⟩
  · rfl
  · exact absurd hstatus (append_ok_ne_append_error s.ser.status)

theorem Ends.host_store_of_error {s t : State} {e : ErrorKind} (hends : Ends .host s t)
    (hresult : t.host.outQ = s.host.outQ ++ [.error e]) : t.store = s.store := by
  rcases hends with ⟨_, rfl⟩ | ⟨st, v, _, rfl⟩
  · rfl
  · simp at hresult

/-- Settles O44: the transaction ended on its own port, and on each port an error status means the error entry. -/
theorem failedTransactionsLeaveTheStore : Obligations.FailedTransactionsLeaveTheStore := by
  intro r s t ht
  obtain ⟨u, hu, hends⟩ := transact_ends r s
  obtain rfl : u = t := Host.Outcome.next.inj (hu.symm.trans ht)
  refine ⟨fun k p p' e hr hp hp' => ?_, fun e hr => ?_, fun e hr => ?_⟩ <;> rw [hr] at hends
  · exact hends.bin_store_of_error hp hp'
  · exact hends.ser_store_of_error
  · exact hends.host_store_of_error

end Sys2Proof.Machine
end

section
/-! PROOFS. The statements of 30_encoding.md: the decoder against the encoder and against bytes no rule interprets, the
field codecs, and the responses of the binary commands and of the ASCII bit reads. -/

namespace Sys2Proof.Machine

open Config

/-! ## Parts of a frame -/

theorem byteAt_set_same {F : Bytes} {i : Nat} (hi : i < F.length) (c : Byte) : byteAt (F.set i c) i = c := by
  simp [byteAt, hi]

theorem byteAt_set_of_ne {i j : Nat} (hij : i ≠ j) (F : Bytes) (c : Byte) : byteAt (F.set j c) i = byteAt F i := by
  simp [byteAt, List.getD_eq_getElem?_getD, List.getElem?_set_ne hij.symm]

/-- Byte `i` behind a part of `n` bytes. -/
theorem byteAt_append_add {F : Bytes} {n : Nat} (hn : F.length = n) (G : Bytes) (i : Nat) :
    byteAt (F ++ G) (n + i) = byteAt G i := by
  rw [byteAt_append_right (by omega), hn, Nat.add_sub_cancel_left]

theorem slice_take {F : Bytes} {i n m : Nat} (h : i + n ≤ m) : slice (F.take m) i n = slice F i n := by
  rw [slice, slice, List.drop_take, List.take_take, Nat.min_eq_left (by omega)]

theorem take_slice {F : Bytes} {i n m : Nat} (h : m ≤ n) : (slice F i n).take m = slice F i m := by
  rw [slice, slice, List.take_take, Nat.min_eq_left h]

theorem slice_set_of_lt {F : Bytes} {i n j : Nat} (c : Byte) (h : j < i) : slice (F.set j c) i n = slice F i n := by
  rw [slice, slice, List.drop_set_of_lt h]

theorem slice_set_of_le {F : Bytes} {i n j : Nat} (c : Byte) (h : i + n ≤ j) : slice (F.set j c) i n = slice F i n := by
  rw [slice, slice, List.take_drop, List.take_drop, List.take_set_of_le h]

/-- The part of a frame that stands behind `i` bytes. -/
theorem slice_append_left {F G H : Bytes} {i n : Nat} (hi : F.length = i) (hn : G.length = n) :
    slice (F ++ G ++ H) i n = G := by
  subst hi hn
  simp [slice]

/-! ## Token routing (R203) -/

theorem routeAsc_read {F : Bytes} (h : slice F 3 2 = [chr, chS]) : routeAsc F = decodeAscRead F := by
  rw [routeAsc, if_pos h]

theorem routeAsc_wss {F : Bytes} (h : slice F 3 3 = [chW, chS, chS]) : routeAsc F = decodeAscWss F := by
  have htwo : slice F 3 2 = [chW, chS] := by rw [← take_slice (by omega : 2 ≤ 3), h]; rfl
  rw [routeAsc, if_neg (by rw [htwo]; decide), if_pos h]

theorem routeAsc_write {F : Bytes} (h : slice F 3 2 = [chw, chS]) : routeAsc F = decodeAscWrite F := by
  have hwss : slice F 3 3 ≠ [chW, chS, chS] := fun hthree => by
    rw [← take_slice (by omega : 2 ≤ 3), hthree] at h
    exact absurd h (by decide)
  rw [routeAsc, if_neg (by rw [h]; decide), if_neg hwss, if_pos h]

/-! ## What the decoder asks of a request -/

/-- A frame of the serial port whose checks before the token hold is decoded by its token (R202). -/
theorem decodeAsc_eq_routeAsc {F ck : Bytes} {n : Nat} (hck : ck.length = 2) (hlen : 6 ≤ F.length)
    (henq : byteAt F 0 = ENQ) (hst : dec2 (byteAt F 1) (byteAt F 2) = .ok n) : decodeAsc (F ++ ck) = routeAsc F := by
  have hstrip : stripChecksum (F ++ ck) = F := by simp [stripChecksum, hck]
  have hW : ¬(F ++ ck).length < 5 := by rw [List.length_append]; omega
  simp only [decodeAsc, if_neg hW, hstrip, henq, hst, ne_eq, not_true_eq_false, if_false, if_neg (by omega : ¬F.length < 6)]

/-- The front of a frame, then the fields from the name length on, in the order of R94 and R95. -/
def headerFrame (front addr : Bytes) (size : Byte) (tail : Bytes) : Bytes :=
  front ++ dec2Enc addr.length ++ addr ++ hexEnc size ++ tail

theorem length_headerFrame (front addr : Bytes) (size : Byte) (tail : Bytes) :
    (headerFrame front addr size tail).length = front.length + addr.length + tail.length + 4 := by
  simp [headerFrame, dec2Enc]
  omega

/-- The name length and the size are read where they were put (R204, R205). -/
theorem headerFrame_fields {front addr : Bytes} {n : Nat} (hfront : front.length = n) (size : Byte) (tail : Bytes) :
    (∀ i, byteAt (headerFrame front addr size tail) (n + i) =
      byteAt (dec2Enc addr.length ++ (addr ++ (hexEnc size ++ tail))) i)
    ∧ ∀ i, byteAt (headerFrame front addr size tail) (n + 2 + addr.length + i) = byteAt (hexEnc size ++ tail) i := by
  have hbefore : (front ++ dec2Enc addr.length ++ addr).length = n + 2 + addr.length := by
    simp [hfront, dec2Enc]
    omega
  refine ⟨fun i => ?_, fun i => ?_⟩
  · simp only [headerFrame, List.append_assoc]
    exact byteAt_append_add hfront _ i
  · rw [headerFrame, List.append_assoc _ _ tail]
    exact byteAt_append_add hbefore _ i

/-- A header whose fields stand at their places is parsed (R204, R205). -/
theorem ascHeader_headerFrame {front addr : Bytes} {b : Nat} (hfront : front.length = 6 + b) (haddr : addr.length < 100)
    (size : Byte) (tail : Bytes) :
    ascHeader (headerFrame front addr size tail) b = .ok { addr := addr, size := size, tail := tail } := by
  have hlen := length_headerFrame front addr size tail
  obtain ⟨hfirst, hsize⟩ := headerFrame_fields (addr := addr) hfront size tail
  have hl : dec2 (byteAt (headerFrame front addr size tail) (6 + b)) (byteAt (headerFrame front addr size tail) (7 + b))
      = .ok addr.length := by
    rw [← dec2_digits haddr, show 7 + b = 6 + b + 1 by omega, hfirst 1, ← Nat.add_zero (6 + b), hfirst 0]
    rfl
  have hs : hexDec2 (byteAt (headerFrame front addr size tail) (8 + b + addr.length))
      (byteAt (headerFrame front addr size tail) (9 + b + addr.length)) = .ok size := by
    rw [← hexDec2_hexChars size, show 9 + b + addr.length = 6 + b + 2 + addr.length + 1 by omega, hsize 1,
      show 8 + b + addr.length = 6 + b + 2 + addr.length + 0 by omega, hsize 0]
    rfl
  have haddrAt : slice (headerFrame front addr size tail) (8 + b) addr.length = addr := by
    rw [headerFrame, List.append_assoc _ _ tail]
    exact slice_append_left (by simp [hfront, dec2Enc]; omega) rfl
  have htail : (headerFrame front addr size tail).drop (10 + b + addr.length) = tail :=
    List.drop_left' (by simp [hfront, dec2Enc]; omega)
  simp only [ascHeader, hl, hs, haddrAt, htail, if_neg (by omega : ¬(headerFrame front addr size tail).length < 8 + b),
    if_neg (by omega : ¬(headerFrame front addr size tail).length < 10 + b + addr.length)]

/-! ## ASCII requests of the encoder -/

/-- The encoder's frame before its checksum (R93). -/
def ascFrame (st1 st2 : Byte) (token addr : Bytes) (size : Byte) (tail : Bytes) : Bytes :=
  headerFrame ([ENQ, st1, st2] ++ token) addr size tail

theorem encodeAsc_eq (st1 st2 : Byte) (token addr : Bytes) (size : Byte) (tail : Bytes) :
    encodeAsc st1 st2 token addr size tail =
      ascFrame st1 st2 token addr size tail ++ hexEnc (sum8 (ascFrame st1 st2 token addr size tail)) := rfl

theorem wfAsc_iff {st1 st2 : Byte} {suffix : Bytes} :
    wfAsc st1 st2 suffix = true ↔ isDigit st1 = true ∧ isDigit st2 = true ∧ suffix.length ≤ 96 := by
  simp [wfAsc, and_assoc]

/-- A frame of the encoder for two station digits is decoded by its token (R202, R210). -/
theorem decodeAsc_encodeAsc {st1 st2 : Byte} (h1 : isDigit st1 = true) (h2 : isDigit st2 = true)
    {token : Bytes} (htoken : 3 ≤ token.length) (addr : Bytes) (size : Byte) (tail : Bytes) :
    decodeAsc (encodeAsc st1 st2 token addr size tail) = routeAsc (ascFrame st1 st2 token addr size tail) := by
  have hlen : 6 ≤ (ascFrame st1 st2 token addr size tail).length := by
    rw [ascFrame, length_headerFrame]
    simp
    omega
  exact decodeAsc_eq_routeAsc (length_hexEnc _) hlen rfl (dec2_ok.2 ⟨h1, h2, rfl⟩)

theorem ascHeader_ascFrame {token addr : Bytes} {b : Nat} (htoken : token.length = 3 + b) (haddr : addr.length < 100)
    (st1 st2 size : Byte) (tail : Bytes) :
    ascHeader (ascFrame st1 st2 token addr size tail) b = .ok { addr := addr, size := size, tail := tail } :=
  ascHeader_headerFrame (by simp [htoken]; omega) haddr size tail

/-- An address with an index suffix of at most 96 bytes fits the two-digit name length (R94, R145). -/
theorem length_addr_lt {suffix : Bytes} (hsuffix : suffix.length ≤ 96) (pre area cls : Byte) :
    ([pre, area, cls] ++ suffix).length < 100 := by
  simp
  omega

theorem decode_encodeAscRead {op : AscReadOp} (hop : op.wf = true) (area : Byte) :
    decode (encodeAscRead area op) = ascReadClass area chB op := by
  obtain ⟨h1, h2, hsuffix⟩ := wfAsc_iff.1 hop
  refine (decodeAsc_encodeAsc h1 h2 (by simp) _ _ _).trans ((routeAsc_read rfl).trans ?_)
  rw [decodeAscRead, ascHeader_ascFrame rfl (length_addr_lt hsuffix ..)]
  rfl

theorem decode_encodeAscWrite {op : AscWriteOp} (hop : op.wf = true) (area cls : Byte) :
    decode (encodeAscWrite area cls op) = ascWriteClass area cls op := by
  obtain ⟨h1, h2, hsuffix⟩ := wfAsc_iff.1 hop
  refine (decodeAsc_encodeAsc h1 h2 (by simp) _ _ _).trans ((routeAsc_write rfl).trans ?_)
  rw [decodeAscWrite, ascHeader_ascFrame rfl (length_addr_lt hsuffix ..)]
  rfl

theorem decode_encodeAscWss {op : AscWriteOp} (hop : op.wf = true) (area cls : Byte) :
    decode (encodeAscWss area cls op) = ascWssClass area cls op := by
  obtain ⟨h1, h2, hsuffix⟩ := wfAsc_iff.1 hop
  refine (decodeAsc_encodeAsc h1 h2 (by simp) _ _ _).trans ((routeAsc_wss rfl).trans ?_)
  rw [decodeAscWss, ascHeader_ascFrame rfl (length_addr_lt hsuffix ..)]
  rfl

/-! ## Binary requests of the encoder -/

theorem wfBin_iff {h : Bytes} {fields : Option BinFields} :
    wfBin h fields = true ↔ h.length = 20 ∧ ∀ f, fields = some f → f.name.length ≤ 254 := by
  cases fields <;> simp [wfBin, BinFields.wf]

/-- The encoder's bytes of a binary request up to the name (R89). -/
def binFront (cmd : Byte) (h : Bytes) (nameLen : Nat) : Bytes :=
  h ++ [cmd, 0, 0, 0, 0, 0, 0, 0, BitVec.ofNat 8 (nameLen + 1), 0, 0]

theorem encodeBin_some (cmd : Byte) (h : Bytes) (f : BinFields) :
    encodeBin cmd h (some f) = binFront cmd h f.name.length ++ f.name ++ (le16 f.count.toNat ++ f.data) := by
  simp [encodeBin, binFront]

theorem encodeBin_eq_append (cmd : Byte) (h : Bytes) (fields : Option BinFields) :
    ∃ rest, encodeBin cmd h fields = h ++ cmd :: rest := by
  cases fields <;> simp [encodeBin]

/-- The fields of the encoder's frame are the ones it was given: without fields the frame is too short for a name
length, and with them each stands at its offset of R89. -/
theorem binFields_encodeBin {h : Bytes} {fields : Option BinFields} (hw : wfBin h fields = true) (cmd : Byte) :
    binFields (encodeBin cmd h fields) = fields := by
  obtain ⟨hheader, hname⟩ := wfBin_iff.1 hw
  cases fields with
  | none => simp [binFields, encodeBin, hheader]
  | some f =>
    have hn := hname f rfl
    have hfront : (binFront cmd h f.name.length).length = 31 := by simp [binFront, hheader]
    have hbefore : (binFront cmd h f.name.length ++ f.name).length = 31 + f.name.length := by simp [hfront]
    have hlen : (encodeBin cmd h (some f)).length = 33 + f.name.length + f.data.length := by
      rw [encodeBin_some, List.length_append, hbefore]
      simp [le16]
      omega
    have hN : (byteAt (encodeBin cmd h (some f)) 28).toNat = f.name.length + 1 := by
      rw [encodeBin_some, binFront, List.append_assoc, List.append_assoc, byteAt_append_add hheader _ 8]
      simp
      omega
    have hcount : u16le (byteAt (encodeBin cmd h (some f)) (30 + (f.name.length + 1)))
        (byteAt (encodeBin cmd h (some f)) (31 + (f.name.length + 1))) = f.count := by
      rw [encodeBin_some, show 31 + (f.name.length + 1) = 31 + f.name.length + 1 by omega,
        show 30 + (f.name.length + 1) = 31 + f.name.length + 0 by omega, byteAt_append_add hbefore, byteAt_append_add hbefore]
      exact u16le_le16 f.count
    have hnameAt : slice (encodeBin cmd h (some f)) 31 (f.name.length + 1 - 1) = f.name := by
      rw [encodeBin_some, slice_append_left hfront (by omega)]
    have hdata : (encodeBin cmd h (some f)).drop (32 + (f.name.length + 1)) = f.data := by
      rw [encodeBin_some, ← List.append_assoc]
      exact List.drop_left' (by simp [hfront, le16]; omega)
    simp only [binFields, hN, hcount, hnameAt, hdata, hlen, if_neg (by omega : ¬33 + f.name.length + f.data.length < 29),
      if_neg (by omega : ¬33 + f.name.length + f.data.length < 32 + (f.name.length + 1)),
      if_neg (by omega : ¬f.name.length + 1 = 0)]

/-- The command byte of the encoder's frame and the header before it (R89, R99). -/
theorem decodeBin_encodeBin {h : Bytes} {fields : Option BinFields} (hw : wfBin h fields = true) (k : Nat) :
    decodeBin k (encodeBin cmdRead h fields) = .ok (.binRead k h fields)
    ∧ decodeBin k (encodeBin cmdWrite h fields) = .ok (.binWrite k h fields) := by
  obtain ⟨hheader, _⟩ := wfBin_iff.1 hw
  have hparts : ∀ cmd, ¬(encodeBin cmd h fields).length < 21 ∧ byteAt (encodeBin cmd h fields) 20 = cmd
      ∧ (encodeBin cmd h fields).take 20 = h := fun cmd => by
    obtain ⟨rest, heq⟩ := encodeBin_eq_append cmd h fields
    rw [heq]
    refine ⟨by simp; omega, byteAt_append_add hheader _ 0, List.take_left' hheader⟩
  constructor
  · obtain ⟨hlen, hcmd, htake⟩ := hparts cmdRead
    rw [decodeBin, if_neg hlen, if_pos hcmd, htake, binFields_encodeBin hw]
  · obtain ⟨hlen, hcmd, htake⟩ := hparts cmdWrite
    rw [decodeBin, if_neg hlen, if_neg (by rw [hcmd]; decide), if_pos hcmd, htake, binFields_encodeBin hw]

/-! ## Every command -/

/-- Settles O1: row by row, the class characters the encoder writes select the row's command. -/
theorem decodeOfEncodeIsIdentity : Obligations.DecodeOfEncodeIsIdentity := by
  intro i hi
  cases i with
  | binRead k h f => exact (decodeBin_encodeBin hi k).1
  | binWrite k h f => exact (decodeBin_encodeBin hi k).2
  | ascRdMb op | ascRdPb op | ascRdDb op | ascRdTb op => exact decode_encodeAscRead hi _
  | ascWrMx op | ascWrDx op | ascWrCw op | ascWrTw op | ascWrMw op | ascWrDw op => exact decode_encodeAscWrite hi _ _
  | ascWrDd area op | ascWrDl area op => exact decode_encodeAscWrite hi _ _
  | ascWssMx op | ascWssDx op | ascWssCw op | ascWssTw op | ascWssMw op | ascWssDw op => exact decode_encodeAscWss hi _ _
  | ascWssDd area op | ascWssDl area op => exact decode_encodeAscWss hi _ _
  | hostRead | hostWrite | hostReadbit | hostWritebit | hostExport | hostImport => rfl

/-! ## What a decoded command holds -/

theorem length_addr_of_ascHeader {F : Bytes} {b : Nat} {h : AscHeader} (hh : ascHeader F b = .ok h) :
    h.addr.length ≤ 99 := by
  unfold ascHeader at hh
  split at hh
  · cases hh
  split at hh
  · cases hh
  next l hl =>
  split at hh
  · cases hh
  split at hh
  · cases hh
  cases hh
  rw [length_slice]
  exact (Nat.min_le_left _ _).trans (dec2_lt hl)

/-- Operands read behind a parsed header, from a frame whose station passed `Dec2`, are in range (R145, R210). -/
theorem wfAsc_of_ascHeader {F : Bytes} {b n : Nat} {h : AscHeader} (hst : dec2 (byteAt F 1) (byteAt F 2) = .ok n)
    (hh : ascHeader F b = .ok h) : wfAsc (byteAt F 1) (byteAt F 2) (h.addr.drop 3) = true := by
  obtain ⟨h1, h2, _⟩ := dec2_ok.1 hst
  have haddr := length_addr_of_ascHeader hh
  exact wfAsc_iff.2 ⟨h1, h2, by rw [List.length_drop]; omega⟩

theorem ascReadClass_wf {area cls : Byte} {op : AscReadOp} {i : Instr} (h : ascReadClass area cls op = .ok i) :
    i.wf = op.wf := by
  unfold ascReadClass at h
  repeat' split at h
  all_goals cases h
  all_goals rfl

theorem ascWriteClass_wf {area cls : Byte} {op : AscWriteOp} {i : Instr} (h : ascWriteClass area cls op = .ok i) :
    i.wf = op.wf := by
  unfold ascWriteClass at h
  repeat' split at h
  all_goals cases h
  all_goals rfl

theorem ascWssClass_wf {area cls : Byte} {op : AscWriteOp} {i : Instr} (h : ascWssClass area cls op = .ok i) :
    i.wf = op.wf := by
  unfold ascWssClass at h
  repeat' split at h
  all_goals cases h
  all_goals rfl

/-- What the three tokens share (R219, R238): the header, then the address length, then the choice `sel` of a command. -/
def afterHeader (F : Bytes) (b : Nat) (sel : AscHeader → Except ErrorKind Instr) : Except ErrorKind Instr :=
  match ascHeader F b with
  | .error e => .error e
  | .ok h => if h.addr.length < 3 then .error .invalidAddress else sel h

theorem decodeAscRead_eq (F : Bytes) :
    decodeAscRead F = afterHeader F 0 fun h => ascReadClass (byteAt h.addr 1) (byteAt h.addr 2)
      { st1 := byteAt F 1, st2 := byteAt F 2, pre := byteAt h.addr 0, suffix := h.addr.drop 3, size := h.size } := rfl

theorem decodeAscWrite_eq (F : Bytes) :
    decodeAscWrite F = afterHeader F 0 fun h => ascWriteClass (byteAt h.addr 1) (byteAt h.addr 2) (ascWriteOp F h) := rfl

theorem decodeAscWss_eq (F : Bytes) :
    decodeAscWss F = afterHeader F 1 fun h => ascWssClass (byteAt h.addr 1) (byteAt h.addr 2) (ascWriteOp F h) := rfl

theorem afterHeader_ok {F : Bytes} {b : Nat} {sel : AscHeader → Except ErrorKind Instr} {i : Instr}
    (h : afterHeader F b sel = .ok i) : ∃ hd, ascHeader F b = .ok hd ∧ sel hd = .ok i := by
  unfold afterHeader at h
  split at h
  · cases h
  next hd hhd =>
  split at h
  · cases h
  · exact ⟨hd, hhd, h⟩

/-- A command a token selects has the operands behind its header, and is well formed when they are. -/
theorem routeAsc_ok {F : Bytes} {i : Instr} (h : routeAsc F = .ok i) :
    ∃ b hd, ascHeader F b = .ok hd ∧ i.wf = wfAsc (byteAt F 1) (byteAt F 2) (hd.addr.drop 3) := by
  unfold routeAsc at h
  split at h
  · obtain ⟨hd, hhd, hsel⟩ := afterHeader_ok (decodeAscRead_eq F ▸ h)
    exact ⟨0, hd, hhd, ascReadClass_wf hsel⟩
  split at h
  · obtain ⟨hd, hhd, hsel⟩ := afterHeader_ok (decodeAscWss_eq F ▸ h)
    exact ⟨1, hd, hhd, ascWssClass_wf hsel⟩
  split at h
  · obtain ⟨hd, hhd, hsel⟩ := afterHeader_ok (decodeAscWrite_eq F ▸ h)
    exact ⟨0, hd, hhd, ascWriteClass_wf hsel⟩
  · cases h

theorem decodeAsc_ok {W : Bytes} {i : Instr} (h : decodeAsc W = .ok i) :
    ∃ n, dec2 (byteAt (stripChecksum W) 1) (byteAt (stripChecksum W) 2) = .ok n ∧ routeAsc (stripChecksum W) = .ok i := by
  simp only [decodeAsc] at h
  split at h
  · cases h
  split at h
  · cases h
  split at h
  · cases h
  split at h
  · cases h
  next n hn => exact ⟨n, hn, h⟩

theorem decodeAsc_wf {W : Bytes} {i : Instr} (h : decodeAsc W = .ok i) : i.wf = true := by
  obtain ⟨n, hst, hroute⟩ := decodeAsc_ok h
  obtain ⟨b, hd, hhd, hwf⟩ := routeAsc_ok hroute
  rw [hwf, wfAsc_of_ascHeader hst hhd]

/-- The name of a parsed frame is counted by the 8-bit `N`, less 1 (R89). -/
theorem length_name_of_binFields {F : Bytes} {f : BinFields} (h : binFields F = some f) : f.name.length ≤ 254 := by
  simp only [binFields] at h
  split at h
  · cases h
  split at h
  · cases h
  split at h
  · cases h
  cases h
  have hN := (byteAt F 28).isLt
  rw [length_slice]
  omega

theorem decodeBin_wf {k : Nat} {F : Bytes} {i : Instr} (h : decodeBin k F = .ok i) : i.wf = true := by
  unfold decodeBin at h
  split at h
  · cases h
  have hbin : wfBin (F.take 20) (binFields F) = true :=
    wfBin_iff.2 ⟨by rw [List.length_take]; omega, fun f hf => length_name_of_binFields hf⟩
  split at h
  · cases h
    exact hbin
  split at h
  · cases h
    exact hbin
  · cases h

/-- Settles O2: port by port; a host operation takes any operands. -/
theorem decodedCommandsAreWellFormed : Obligations.DecodedCommandsAreWellFormed := by
  intro r i h
  cases r with
  | bin k F => exact decodeBin_wf h
  | asc W => exact decodeAsc_wf h
  | host op =>
    cases h
    cases op <;> rfl

/-! ## Bytes no rule interprets (R101) -/

theorem take_congr_byteAt {F G : Bytes} (hlen : F.length = G.length) {n : Nat}
    (h : ∀ i < n, byteAt F i = byteAt G i) : F.take n = G.take n := by
  refine byteAt_ext (by simp [hlen]) fun j hj => ?_
  rw [List.length_take] at hj
  rw [byteAt_take (by omega), byteAt_take (by omega), h j (by omega)]

theorem drop_congr_byteAt {F G : Bytes} (hlen : F.length = G.length) {n : Nat}
    (h : ∀ i, n ≤ i → byteAt F i = byteAt G i) : F.drop n = G.drop n := by
  refine byteAt_ext (by simp [hlen]) fun j _ => ?_
  rw [byteAt_drop, byteAt_drop, h _ (by omega)]

/-- Of a frame's bytes the fields depend on the name length and on what stands from offset 31 on (R89). -/
theorem binFields_congr {F G : Bytes} (hlen : F.length = G.length) (hN : byteAt F 28 = byteAt G 28)
    (htail : ∀ i, 31 ≤ i → byteAt F i = byteAt G i) : binFields F = binFields G := by
  by_cases hzero : (byteAt G 28).toNat = 0
  · simp only [binFields, hlen, hN, hzero, if_true]
  · have hname : slice F 31 ((byteAt G 28).toNat - 1) = slice G 31 ((byteAt G 28).toNat - 1) := by
      rw [slice, slice, drop_congr_byteAt hlen htail]
    have hdata : F.drop (32 + (byteAt G 28).toNat) = G.drop (32 + (byteAt G 28).toNat) :=
      drop_congr_byteAt hlen fun i hi => htail i (by omega)
    simp only [binFields, hlen, hN, hname, hdata, htail (30 + (byteAt G 28).toNat) (by omega),
      htail (31 + (byteAt G 28).toNat) (by omega)]

/-- Settles O4: the header, the command byte and the fields of the two frames are the same. -/
theorem uninterpretedBinaryBytesNeverMatter : Obligations.UninterpretedBinaryBytesNeverMatter := by
  intro k F G hlen h
  have hheader : F.take 20 = G.take 20 :=
    take_congr_byteAt hlen fun i hi => h i (by omega) (by omega) (by omega)
  have hcmd : byteAt F 20 = byteAt G 20 := h 20 (by omega) (by omega) (by omega)
  have hfields : binFields F = binFields G :=
    binFields_congr hlen (h 28 (by omega) (by omega) (by omega)) fun i hi => h i (by omega) (by omega) (by omega)
  simp only [decode, decodeBin, hlen, hheader, hcmd, hfields]

theorem ascHeader_set {F : Bytes} {b j : Nat} (hj : j < 6 + b) (x : Byte) :
    ascHeader (F.set j x) b = ascHeader F b := by
  simp (disch := omega) only [ascHeader, List.length_set, byteAt_set_of_ne, slice_set_of_lt, List.drop_set_of_lt]

/-- A byte between the station and the name length reaches the command through the token alone (R202 to R205). -/
theorem decodeAsc_set {W : Bytes} {j : Nat} (hj : 3 ≤ j) (x : Byte)
    (hroute : 6 ≤ (stripChecksum W).length → routeAsc ((stripChecksum W).set j x) = routeAsc (stripChecksum W)) :
    decodeAsc (W.set j x) = decodeAsc W := by
  have hstrip : stripChecksum (W.set j x) = (stripChecksum W).set j x := by
    rw [stripChecksum, stripChecksum, List.length_set, List.take_set]
  by_cases hlen : (stripChecksum W).length < 6
  · simp (disch := omega) only [decodeAsc, hstrip, List.length_set, byteAt_set_of_ne, hlen, if_true]
  · simp (disch := omega) only [decodeAsc, hstrip, List.length_set, byteAt_set_of_ne, hroute (by omega)]

/-- What stands in the first six bytes of a frame with six bytes before its checksum stands before its checksum. -/
theorem slice_stripChecksum {W : Bytes} (hlen : 6 ≤ (stripChecksum W).length) {i n : Nat} (hin : i + n ≤ 6) :
    slice (stripChecksum W) i n = slice W i n := by
  rw [stripChecksum, List.length_take] at hlen
  exact slice_take (by omega)

theorem routeAsc_set_read {F : Bytes} (h : slice F 3 2 = [chr, chS]) (x : Byte) : routeAsc (F.set 5 x) = routeAsc F := by
  rw [routeAsc_read h, routeAsc_read (by rwa [slice_set_of_le x (by omega)])]
  simp (disch := omega) only [decodeAscRead, ascHeader_set, byteAt_set_of_ne]

theorem routeAsc_set_write {F : Bytes} (h : slice F 3 2 = [chw, chS]) (x : Byte) : routeAsc (F.set 5 x) = routeAsc F := by
  rw [routeAsc_write h, routeAsc_write (by rwa [slice_set_of_le x (by omega)])]
  simp (disch := omega) only [decodeAscWrite, ascWriteOp, ascHeader_set, byteAt_set_of_ne]

theorem routeAsc_set_wss {F : Bytes} (h : slice F 3 3 = [chW, chS, chS]) (x : Byte) :
    routeAsc (F.set 6 x) = routeAsc F := by
  rw [routeAsc_wss h, routeAsc_wss (by rwa [slice_set_of_le x (by omega)])]
  simp (disch := omega) only [decodeAscWss, ascWriteOp, ascHeader_set, byteAt_set_of_ne]

/-- Settles O7: with the token in place before the checksum, each routing lemma; a shorter frame is malformed. -/
theorem uninterpretedTokenBytesNeverMatter : Obligations.UninterpretedTokenBytesNeverMatter := by
  intro W x
  refine ⟨fun htoken => decodeAsc_set (by omega) x fun hlen => ?_, fun hwss => decodeAsc_set (by omega) x fun hlen => ?_⟩
  · rcases htoken with hread | hwrite
    · exact routeAsc_set_read (by rwa [slice_stripChecksum hlen (by omega)]) x
    · exact routeAsc_set_write (by rwa [slice_stripChecksum hlen (by omega)]) x
  · exact routeAsc_set_wss (by rwa [slice_stripChecksum hlen (by omega)]) x

/-! ## Hex-ASCII, checksum and decimal strings -/

/-- Settles O8: by induction on the string, each byte by `hexDec2_hexChars`. -/
theorem hexDecodingInvertsEncoding : Obligations.HexDecodingInvertsEncoding := by
  intro b
  induction b with
  | nil => rfl
  | cons v vs ih => simp only [hexEncAll, hexEnc, List.cons_append, List.nil_append, hexDec, hexDec2_hexChars, ih]

theorem sum8_cons (c : Byte) (s : Bytes) : sum8 (c :: s) = c + sum8 s := by
  rw [sum8, List.map_cons, List.sum_cons, BitVec.ofNat_add, BitVec.ofNat_toNat, BitVec.setWidth_eq, sum8]

/-- Settles O9: a sum is its head plus the sum of the rest, so sums of strings that differ in one place differ. -/
theorem checksumDetectsAnyOneByteChange : Obligations.ChecksumDetectsAnyOneByteChange := by
  intro p i b hi hb
  induction p generalizing i with
  | nil => simp at hi
  | cons c cs ih =>
    cases i with
    | zero =>
      rw [List.set_cons_zero, sum8_cons, sum8_cons]
      exact fun h => hb (add_right_cancel h)
    | succ i =>
      rw [List.set_cons_succ, sum8_cons, sum8_cons]
      exact fun h => ih i (Nat.lt_of_succ_lt_succ hi) hb (add_left_cancel h)

/-- The positional value of a string of decimal digits (R83). -/
def positionalValue (s : Bytes) : Nat :=
  ((List.range s.length).map fun k => ((byteAt s k).toNat - 0x30) * 10 ^ (s.length - 1 - k)).sum

theorem positionalValue_cons (c : Byte) (cs : Bytes) :
    positionalValue (c :: cs) = (c.toNat - 0x30) * 10 ^ cs.length + positionalValue cs := by
  simp [positionalValue, List.range_succ_eq_map, Function.comp_def, Nat.sub_sub, Nat.add_comm 1]

theorem decStrFrom_digits {s : Bytes} (hs : ∀ c ∈ s, 0x30 ≤ c.toNat ∧ c.toNat ≤ 0x39) (acc : Nat) :
    decStrFrom acc s = some (acc * 10 ^ s.length + positionalValue s) := by
  induction s generalizing acc with
  | nil => simp [decStrFrom, positionalValue]
  | cons c cs ih =>
    obtain ⟨⟨hlo, hhi⟩, hcs⟩ := List.forall_mem_cons.1 hs
    rw [decStrFrom, digit_eq_some.2 ⟨hlo, hhi, rfl⟩]
    simp only
    rw [ih hcs, positionalValue_cons, List.length_cons]
    ring_nf

theorem decStrFrom_not_digits {s : Bytes} (hs : ∃ c ∈ s, ¬(0x30 ≤ c.toNat ∧ c.toNat ≤ 0x39)) (acc : Nat) :
    decStrFrom acc s = none := by
  induction s generalizing acc with
  | nil => simp at hs
  | cons c cs ih =>
    unfold decStrFrom
    split
    · next v hv =>
      obtain ⟨hlo, hhi, _⟩ := digit_eq_some.1 hv
      obtain ⟨d, hd, hnot⟩ := hs
      rcases List.mem_cons.1 hd with rfl | hd
      · exact absurd ⟨hlo, hhi⟩ hnot
      · exact ih ⟨d, hd, hnot⟩ _
    · rfl

theorem decStr_of_ne_nil {s : Bytes} (hs : s ≠ []) : decStr s = decStrFrom 0 s := by
  cases s with
  | nil => exact absurd rfl hs
  | cons c cs => rfl

/-- Settles O10: `decStrFrom` started at 0, on digits only and past a character that is none. -/
theorem decimalStringHasItsPositionalValue : Obligations.DecimalStringHasItsPositionalValue := by
  intro s
  refine ⟨fun hne hdigits => ?_, fun hbad => ?_⟩
  · rw [decStr_of_ne_nil hne, decStrFrom_digits hdigits, Nat.zero_mul, Nat.zero_add]
    rfl
  · have hnone : decStr s = none := by
      rcases hbad with rfl | hnot
      · rfl
      · rw [decStr_of_ne_nil (fun hnil => by simp [hnil] at hnot), decStrFrom_not_digits hnot]
    exact ⟨hnone, decIndex_error.2 ⟨hnone, rfl⟩⟩

/-! ## Requests that select no command -/

theorem serve_of_fetch_error {a : Agent} {s s' : State} {r : Request} {e : ErrorKind}
    (hf : fetch a s = (s', some r)) (he : decode r = .error e) : serve a s = .next (raiseError r.agent e s') := by
  simp only [serve, hf, transact, he]

/-- Settles O49: what `fetch` leaves and gives on each port, with the error the decoder answers for it. -/
theorem rejectedRequestsTakeTheErrorEntry : Obligations.RejectedRequestsTakeTheErrorEntry := by
  intro s
  refine ⟨fun k p F rest e hp hopen hq he => ?_, fun c rest e hfs hrx he => ?_⟩
  · rw [serve_of_fetch_error (fetch_bin hp hopen hq) he, State.onBin_eq_set _ hp]
    rfl
  · exact serve_of_fetch_error (fetch_ser_ck2 hfs hrx) he

/-! ## Binary responses (R91, R92, R172) -/

@[simp] theorem length_binHeader (h : Bytes) : (binHeader h).length = h.length := by
  simp [binHeader]

@[simp] theorem length_binSubHeader (cmd : Byte) : (binSubHeader cmd).length = 10 := rfl

theorem byteAt_binHeader {h : Bytes} {i : Nat} (hi : i ∉ [9, 10, 12, 13, 18]) : byteAt (binHeader h) i = byteAt h i := by
  simp only [List.mem_cons, List.not_mem_nil, or_false, not_or] at hi
  obtain ⟨h9, h10, h12, h13, h18⟩ := hi
  rw [binHeader, byteAt_set_of_ne h18, byteAt_set_of_ne h13, byteAt_set_of_ne h12, byteAt_set_of_ne h10,
    byteAt_set_of_ne h9]

/-- The sentinels of R172. -/
theorem binHeader_sentinels {h : Bytes} (hh : h.length = 20) :
    byteAt (binHeader h) 9 = 0x11 ∧ byteAt (binHeader h) 10 = 0x01 ∧ byteAt (binHeader h) 12 = 0xA0
      ∧ byteAt (binHeader h) 13 = 0x11 ∧ byteAt (binHeader h) 18 = 0x03 := by
  simp [binHeader, byteAt, hh]

/-- A response: the request's header with sentinels and length, the sub-header of `cmd`, then `rest`. -/
def binResponse (h : Bytes) (cmd : Byte) (rest : Bytes) : Bytes := binPatch (binHeader h ++ (binSubHeader cmd ++ rest))

theorem binReadResponse_eq (h : Bytes) (count : Nat) (d : Bytes) :
    binReadResponse h count d = binResponse h rspRead (le16 count ++ d) := by
  simp only [binReadResponse, binResponse, List.append_assoc]

theorem binWriteResponse_eq (h : Bytes) : binWriteResponse h = binResponse h rspWrite [] := by
  rw [binWriteResponse, binResponse, List.append_nil]

/-- The bytes a response takes from the request's header or puts there: those of R91 and R92 below offset 20. -/
def HasResponseHeader (h r : Bytes) : Prop :=
  (∀ i < 20, i ∉ [9, 10, 12, 13, 16, 18] → byteAt r i = byteAt h i)
    ∧ byteAt r 9 = 0x11 ∧ byteAt r 10 = 0x01 ∧ byteAt r 12 = 0xA0 ∧ byteAt r 13 = 0x11 ∧ byteAt r 18 = 0x03

section
variable {h : Bytes} (hh : h.length = 20) (cmd : Byte) (rest : Bytes)
include hh

theorem length_binResponse : (binResponse h cmd rest).length = 30 + rest.length := by
  simp [binResponse, binPatch, hh]
  omega

theorem byteAt_binResponse_header {i : Nat} (hi : i < 20) (h16 : i ≠ 16) :
    byteAt (binResponse h cmd rest) i = byteAt (binHeader h) i := by
  rw [binResponse, binPatch, byteAt_set_of_ne h16, byteAt_append_left (by rwa [length_binHeader, hh])]

theorem hasResponseHeader_binResponse : HasResponseHeader h (binResponse h cmd rest) := by
  have hheader : ∀ i < 20, i ≠ 16 → byteAt (binResponse h cmd rest) i = byteAt (binHeader h) i :=
    fun _ => byteAt_binResponse_header hh cmd rest
  obtain ⟨h9, h10, h12, h13, h18⟩ := binHeader_sentinels hh
  refine ⟨fun i hi hnot => ?_, (hheader 9 (by omega) (by omega)).trans h9, (hheader 10 (by omega) (by omega)).trans h10,
    (hheader 12 (by omega) (by omega)).trans h12, (hheader 13 (by omega) (by omega)).trans h13,
    (hheader 18 (by omega) (by omega)).trans h18⟩
  have h16 : i ≠ 16 := fun heq => hnot (by simp [heq])
  exact (hheader i hi h16).trans (byteAt_binHeader fun hmem => hnot (by simp at hmem ⊢; omega))

/-- Byte 16 counts the bytes from offset 20 on (R87). -/
theorem byteAt_binResponse_16 : byteAt (binResponse h cmd rest) 16 = BitVec.ofNat 8 (10 + rest.length) := by
  rw [binResponse, binPatch, byteAt_set_same (by simp [hh]; omega)]
  simp [hh]

theorem byteAt_binResponse_rest (i : Nat) :
    byteAt (binResponse h cmd rest) (20 + i) = byteAt (binSubHeader cmd ++ rest) i := by
  rw [binResponse, binPatch, byteAt_set_of_ne (by omega), byteAt_append_add (by rw [length_binHeader, hh])]

theorem slice_binResponse : slice (binResponse h cmd rest) 20 10 = binSubHeader cmd := by
  have hlen := length_binResponse hh cmd rest
  refine byteAt_ext (by rw [length_slice, hlen, length_binSubHeader]; omega) fun j hj => ?_
  have hj : j < 10 := by rw [length_slice] at hj; omega
  rw [byteAt_slice hj, byteAt_binResponse_rest hh, byteAt_append_left hj]

/-- The length, the count and the payload of a read response (R91). -/
theorem binReadResponse_layout {d : Bytes} {count : Nat} (hcount : count < 65536) (hd : d.length = count) :
    (binReadResponse h count d).length = 32 + count
    ∧ (byteAt (binReadResponse h count d) 16).toNat = (12 + count) % 256
    ∧ (byteAt (binReadResponse h count d) 30).toNat = count % 256
    ∧ (byteAt (binReadResponse h count d) 31).toNat = count / 256
    ∧ ∀ j, byteAt (binReadResponse h count d) (32 + j) = byteAt d j := by
  have hrest := byteAt_binResponse_rest hh rspRead (le16 count ++ d)
  have hlen : (le16 count ++ d).length = 2 + count := by simp [hd, le16]; omega
  rw [binReadResponse_eq]
  refine ⟨?_, ?_, ?_, ?_, fun j => ?_⟩
  · rw [length_binResponse hh]
    omega
  · rw [byteAt_binResponse_16 hh, BitVec.toNat_ofNat]
    omega
  · rw [hrest 10, ← Nat.add_zero 10, byteAt_append_add (length_binSubHeader _)]
    simp [le16]
  · rw [hrest 11, show 11 = 10 + 1 by rfl, byteAt_append_add (length_binSubHeader _)]
    simp [le16]
    omega
  · rw [show 32 + j = 20 + (10 + (2 + j)) by omega, hrest, byteAt_append_add (length_binSubHeader _),
      byteAt_append_add (by simp [le16])]

end

/-! ## The binary commands -/

/-- An answer on `BIN[k]` is appended there and touches the store and that port alone (R170). -/
theorem emitBin_answers {k : Nat} {s : State} {p : BinPort} (hp : s.bin[k]? = some p) (st : Store) (r : Bytes) :
    BinAnswered k p r (emitBin k st r s) ∧ BinFrame k s (emitBin k st r s) := by
  refine ⟨?_, ⟨rfl, rfl, rfl⟩, rfl, rfl, fun j hj => ?_⟩
  · rw [BinAnswered, emitBin, State.getElem?_onBin_same, hp]
    rfl
  · rw [emitBin, State.getElem?_onBin_ne _ _ hj.symm]

theorem exec_binRead (k : Nat) (h : Bytes) (fields : Option BinFields) (s : State) :
    exec (.binRead k h fields) s = .next (finishBin k (binReadBody s.cfg.cap s.store h fields) s) := rfl

theorem exec_binWrite (k : Nat) (h : Bytes) (fields : Option BinFields) (s : State) :
    exec (.binWrite k h fields) s = .next (finishBin k (binWriteBody s.cfg.cap s.store h fields) s) := rfl

/-- BIN_READ where none of its checks fails (R173). -/
theorem exec_binRead_ok {f : BinFields} {s : State} {a : Area} {start : Nat}
    (hname : resolveGeneric f.name true = .ok (a, start)) (hin : start + f.count.toNat ≤ s.cfg.cap) (k : Nat) (h : Bytes) :
    exec (.binRead k h (some f)) s =
      .next (emitBin k s.store
        (binReadResponse h f.count.toNat ((s.store.get a).readBytes start f.count.toNat)) s) := by
  have hbody : binReadBody s.cfg.cap s.store h (some f) =
      .ok (s.store, binReadResponse h f.count.toNat ((s.store.get a).readBytes start f.count.toNat)) :=
    bind_ok.2 ⟨f, rfl, bind_ok.2 ⟨(a, start), hname, bind_ok.2 ⟨_, memRead_ok.2 ⟨hin, rfl⟩, rfl⟩⟩⟩
  rw [exec_binRead, hbody, finishBin]

/-- BIN_WRITE where none of its checks fails (R174). -/
theorem exec_binWrite_ok {f : BinFields} {s : State} {a : Area} {start : Nat}
    (hname : resolveGeneric f.name false = .ok (a, start)) (hdata : 2 * f.count.toNat ≤ f.data.length)
    (hin : start + 2 * f.count.toNat ≤ s.cfg.cap) (k : Nat) (h : Bytes) :
    exec (.binWrite k h (some f)) s =
      .next (emitBin k (s.store.set a ((s.store.get a).writeBytes start (f.data.take (2 * f.count.toNat))))
        (binWriteResponse h) s) := by
  have hlen : (f.data.take (2 * f.count.toNat)).length = 2 * f.count.toNat := List.length_take_of_le hdata
  have hbody : binWriteBody s.cfg.cap s.store h (some f) =
      .ok (s.store.set a ((s.store.get a).writeBytes start (f.data.take (2 * f.count.toNat))), binWriteResponse h) :=
    bind_ok.2 ⟨f, rfl, bind_ok.2 ⟨_, binPayload_ok.2 ⟨hdata, rfl⟩, bind_ok.2 ⟨(a, start), hname,
      bind_ok.2 ⟨_, memWrite_ok.2 ⟨by rwa [hlen], rfl⟩, rfl⟩⟩⟩⟩
  rw [exec_binWrite, hbody, finishBin]

/-- Settles O20: the response is `binResponse` over the count and the range, and its answer keeps the store. -/
theorem binReadAnswersTheRange : Obligations.BinReadAnswersTheRange := by
  intro k h f s p a start hp hh hname hin
  obtain ⟨hanswer, hframe⟩ := emitBin_answers hp s.store
    (binReadResponse h f.count.toNat ((s.store.get a).readBytes start f.count.toNat))
  obtain ⟨hlen, h16, h30, h31, hdata⟩ := binReadResponse_layout hh f.count.isLt
    (Memory.length_readBytes (s.store.get a) f.count.toNat start)
  refine ⟨_, _, exec_binRead_ok hname hin k h, hanswer, hframe, rfl, hlen, ?_⟩
  rw [binReadResponse_eq] at h16 h30 h31 hdata ⊢
  obtain ⟨hkept, h9, h10, h12, h13, h18⟩ := hasResponseHeader_binResponse hh rspRead
    (le16 f.count.toNat ++ (s.store.get a).readBytes start f.count.toNat)
  refine ⟨hkept, h9, h10, h12, h13, h18, h16, slice_binResponse hh _ _, h30, h31, fun j hj => ?_⟩
  exact (hdata j).trans (Memory.byteAt_readBytes _ hj)

/-- Settles O21: the response is `binResponse` with nothing after the sub-header, and the range of the area is the
payload's. -/
theorem binWriteStoresItsPayload : Obligations.BinWriteStoresItsPayload := by
  intro k h f s p a start hst hp hh hname hdata hin
  obtain ⟨hwf, _⟩ := hst a
  have hlen : (f.data.take (2 * f.count.toNat)).length = 2 * f.count.toNat := List.length_take_of_le hdata
  obtain ⟨hanswer, hframe⟩ := emitBin_answers hp
    (s.store.set a ((s.store.get a).writeBytes start (f.data.take (2 * f.count.toNat)))) (binWriteResponse h)
  refine ⟨_, _, exec_binWrite_ok hname hdata hin k h, hanswer, hframe, fun j hj => ?_, fun b i hbi => ?_, ?_⟩
  · rw [State.byte, emitBin_store, Store.get_set_same, Memory.read_writeBytes_inside hwf (by rwa [hlen]), byteAt_take hj]
  · refine Store.read_set_outside (changed := fun i => start ≤ i ∧ i < start + 2 * f.count.toNat) (fun i hi => ?_) b i hbi
    exact Memory.read_writeBytes_outside hwf (by rwa [hlen])
  · rw [binWriteResponse_eq]
    obtain ⟨hkept, h9, h10, h12, h13, h18⟩ := hasResponseHeader_binResponse hh rspWrite []
    exact ⟨length_binResponse hh _ _, hkept, h9, h10, h12, h13, h18, byteAt_binResponse_16 hh _ _, slice_binResponse hh _ _⟩

/-! ## The ASCII bit reads -/

/-- An answer on the serial port is appended to `serTx` and touches the store and that port's outputs alone (R202). -/
theorem emitSer_answers (st : Store) (r : Bytes) (s : State) :
    SerAnswered r s (emitSer st r s) ∧ SerFrame s (emitSer st r s) :=
  ⟨⟨rfl, rfl⟩, ⟨rfl, rfl, rfl⟩, rfl, rfl, rfl, rfl, rfl⟩

theorem isReadResponse_ascReadResp (st1 st2 : Byte) (d : Bytes) : IsReadResponse st1 st2 d (ascReadResp st1 st2 d) := by
  refine ⟨_, rfl, rfl, ?_⟩
  simp [ascReadResp, withSum8]
  omega

/-- A bit-oriented read where none of its checks fails (R220, R221). -/
theorem ascBitRead_ok {op : AscReadOp} {start cap : Nat} (hsuffix : resolveLetterOrDigit op.suffix = .ok start)
    (hin : start + 8 * op.size.toNat ≤ 8 * cap) (a : Area) (st : Store) :
    ascBitRead a cap st op = .ok (st, ascReadResp op.st1 op.st2 ((st.get a).packBytes start op.size.toNat)) :=
  bind_ok.2 ⟨start, hsuffix, bind_ok.2 ⟨_, bitRangeRead_ok.2 ⟨hin, rfl⟩, rfl⟩⟩

/-- Settles O23: both commands are `ascBitRead` on their area, and its payload is packed bit by bit. -/
theorem asciiBitReadsAnswerThePackedBits : Obligations.AsciiBitReadsAnswerThePackedBits := by
  intro i a hia op s start hsuffix hin
  have hexec : exec (i op) s = .next (emitSer s.store
      (ascReadResp op.st1 op.st2 ((s.store.get a).packBytes start op.size.toNat)) s) := by
    have hfinish : exec (i op) s = .next (finishSer (ascBitRead a s.cfg.cap s.store op) s) := by
      rcases hia with ⟨rfl, rfl⟩ | ⟨rfl, rfl⟩ <;> rfl
    rw [hfinish, ascBitRead_ok hsuffix hin, finishSer]
  obtain ⟨hanswer, hframe⟩ := emitSer_answers s.store
    (ascReadResp op.st1 op.st2 ((s.store.get a).packBytes start op.size.toNat)) s
  refine ⟨_, _, _, hexec, hanswer, hframe, rfl, isReadResponse_ascReadResp _ _ _, Memory.length_packBytes _ _ _,
    fun k hk j hj => ?_⟩
  rw [Memory.byteAt_packBytes _ hk, Memory.getLsbD_packByte _ _ _ hj]
  rfl

end Sys2Proof.Machine
end

section
/-! PROOFS. The statements of 40_address_resolver.md: what each resolver gives, branch by branch. -/

namespace Sys2Proof.Machine

open Config

/-! ## The letter-or-digit form (R143) -/

theorem mem_letters_iff {c : Byte} :
    c ∈ [chA, chB, chC, chD, chE, chF] ↔ 0x41 ≤ c.toNat ∧ c.toNat ≤ 0x46 := by
  simp only [List.mem_cons, List.not_mem_nil, or_false, ← BitVec.toNat_inj, chA, chB, chC, chD, chE, chF,
    BitVec.reduceToNat]
  omega

theorem resolveLetterOrDigit_letter {c : Byte} (hc : c ∈ [chA, chB, chC, chD, chE, chF]) :
    resolveLetterOrDigit [c] = .ok (c.toNat - 0x41 + 10) := by
  simp only [List.mem_cons, List.not_mem_nil, or_false] at hc
  rcases hc with rfl | rfl | rfl | rfl | rfl | rfl <;> rfl

theorem resolveLetterOrDigit_not_letter {t : Bytes} (ht : ∀ c ∈ [chA, chB, chC, chD, chE, chF], t ≠ [c]) :
    resolveLetterOrDigit t = decIndex t := by
  simp only [List.forall_mem_cons] at ht
  obtain ⟨hA, hB, hC, hD, hE, hF, -⟩ := ht
  rw [resolveLetterOrDigit, if_neg hA, if_neg hB, if_neg hC, if_neg hD, if_neg hE, if_neg hF]

/-- Settles O11: the six letters are the characters from `A` to `F`; past them the token is a decimal index. -/
theorem letterOrDigitTokenResolves : Obligations.LetterOrDigitTokenResolves := by
  refine ⟨fun c hlo hhi => resolveLetterOrDigit_letter (mem_letters_iff.2 ⟨hlo, hhi⟩), fun t ht => ?_⟩
  rw [resolveLetterOrDigit_not_letter fun c hc heq => ht c heq (mem_letters_iff.1 hc)]
  exact ⟨fun v hv => decIndex_ok.2 hv, fun hnone => decIndex_error.2 ⟨hnone, rfl⟩⟩

/-! ## The generic form (R140, R141) -/

theorem areaOf_letter (a : Area) : areaOf (letter a) = some a := by
  cases a <;> rfl

theorem letter_of_areaOf {c : Byte} {a : Area} (h : areaOf c = some a) : c = letter a := by
  unfold areaOf at h
  split_ifs at h with hp hq hm hd <;> cases h <;> assumption

theorem areaOf_eq_none {c : Byte} (h : ∀ a, c ≠ letter a) : areaOf c = none :=
  Option.eq_none_iff_forall_ne_some.2 fun a ha => h a (letter_of_areaOf ha)

theorem isTypeLetter_iff {c : Byte} : isTypeLetter c = true ↔ c ∈ [chB, chW, chD, chL] := by
  simp [isTypeLetter, or_assoc]

/-- The digits of a generic address start at its third character, or behind a type letter there. -/
theorem skipTypeLetter_drop_two (s : Bytes) :
    skipTypeLetter (s.drop 2) = if byteAt s 2 ∈ [chB, chW, chD, chL] then s.drop 3 else s.drop 2 := by
  simp only [skipTypeLetter, byteAt_drop, isTypeLetter_iff, List.drop_drop]

theorem resolveGeneric_short {s : Bytes} (hlen : s.length < 3) (isRead : Bool) :
    resolveGeneric s isRead = .error .invalidAddress :=
  if_pos hlen

theorem resolveGeneric_unsupported {s : Bytes} (hlen : 3 ≤ s.length) (harea : ∀ a, byteAt s 1 ≠ letter a)
    (isRead : Bool) : resolveGeneric s isRead = .error .unsupportedArea := by
  rw [resolveGeneric, if_neg (Nat.not_lt.2 hlen), areaOf_eq_none harea]

/-- Past the length and the area character, a generic address is its area with the index of its digits. -/
theorem resolveGeneric_area {s : Bytes} {a : Area} (hlen : 3 ≤ s.length) (harea : byteAt s 1 = letter a)
    (isRead : Bool) : resolveGeneric s isRead = (decIndex (skipTypeLetter (s.drop 2))).map (a, ·) := by
  rw [resolveGeneric, if_neg (Nat.not_lt.2 hlen), harea, areaOf_letter]
  cases decIndex (skipTypeLetter (s.drop 2)) <;> rfl

/-- Settles O12: one lemma per check of the resolver, none of which reads `isRead`. -/
theorem genericAddressResolves : Obligations.GenericAddressResolves := by
  intro s isRead
  refine ⟨fun hshort => resolveGeneric_short hshort isRead,
    fun hlen harea => resolveGeneric_unsupported hlen harea isRead, fun a hlen harea rest hrest => ?_⟩
  rw [resolveGeneric_area hlen harea, skipTypeLetter_drop_two, ← hrest]
  refine ⟨fun hnone => ?_, fun v hv => ?_⟩
  · rw [decIndex_error.2 ⟨hnone, rfl⟩]
    rfl
  · rw [decIndex_ok.2 hv]
    rfl

/-! ## The source's properties (R149) -/

/-- Settles O13: the letters by `resolveLetterOrDigit_letter`; the generic text and the other tokens are evaluated. -/
theorem sourceResolverProperties : Obligations.SourceResolverProperties := by
  refine ⟨rfl, ⟨?_, ?_, ?_, ?_, ?_, ?_⟩, rfl, rfl, rfl⟩
  all_goals exact resolveLetterOrDigit_letter (by decide)

end Sys2Proof.Machine
end

section
/-! PROOFS. The statements of 41_binary_codec.md: bytes appended behind the last field reach only `BinFields.data`, of
which a read uses nothing and a write no more than its payload. -/

namespace Sys2Proof


/-! ## The fields of a longer frame (R171) -/

/-- The fields of a frame with `x` appended, where it held all of them before. -/
def BinFields.withTrailing (x : Bytes) (f : BinFields) : BinFields := { f with data := f.data ++ x }

@[simp] theorem BinFields.withTrailing_name (x : Bytes) (f : BinFields) : (f.withTrailing x).name = f.name := rfl

theorem slice_append_of_le {F : Bytes} {i n : Nat} (h : i + n ≤ F.length) (x : Bytes) :
    slice (F ++ x) i n = slice F i n := by
  rw [slice, slice, List.drop_append_of_le_length (by omega),
    List.take_append_of_le_length (by rw [List.length_drop]; omega)]

/-- Past the length checks, the check `N >= 1` alone decides whether a frame has its fields. -/
theorem binFields_of_length {F : Bytes} (hlen : 32 + (byteAt F 28).toNat ≤ F.length) :
    binFields F =
      if (byteAt F 28).toNat = 0 then none
      else some
        { name := slice F 31 ((byteAt F 28).toNat - 1)
          count := u16le (byteAt F (30 + (byteAt F 28).toNat)) (byteAt F (31 + (byteAt F 28).toNat))
          data := F.drop (32 + (byteAt F 28).toNat) } := by
  simp only [binFields, if_neg (Nat.not_lt.2 hlen), if_neg (by omega : ¬F.length < 29)]

theorem binFields_append {F : Bytes} (hlen : 32 + (byteAt F 28).toNat ≤ F.length) (x : Bytes) :
    binFields (F ++ x) = (binFields F).map (BinFields.withTrailing x) := by
  have hN : byteAt (F ++ x) 28 = byteAt F 28 := byteAt_append_left (by omega)
  have hlen' : 32 + (byteAt (F ++ x) 28).toNat ≤ (F ++ x).length := by
    rw [hN, List.length_append]
    omega
  rw [binFields_of_length hlen, binFields_of_length hlen', hN]
  split_ifs with hzero
  · rfl
  · rw [slice_append_of_le (by omega), byteAt_append_left (by omega), byteAt_append_left (by omega),
      List.drop_append_of_le_length hlen]
    rfl

/-- A frame of at least `32 + N + 2 * count` bytes holds the payload of a write (R174). -/
theorem payload_fits_of_binFields {F : Bytes} {f : BinFields} (hf : binFields F = some f)
    (hlen : 32 + (byteAt F 28).toNat + 2 * ((byteAt F (30 + (byteAt F 28).toNat)).toNat
      + 256 * (byteAt F (31 + (byteAt F 28).toNat)).toNat) ≤ F.length) :
    2 * f.count.toNat ≤ f.data.length := by
  rw [binFields_of_length (by omega)] at hf
  split_ifs at hf
  cases hf
  rw [toNat_u16le, List.length_drop]
  omega

namespace Machine

open Config

/-! ## The transactions of the two commands (R173, R174) -/

/-- A frame with a full header and the read command byte performs BIN_READ. -/
theorem transact_bin_read {F : Bytes} (hlen : 21 ≤ F.length) (hcmd : byteAt F 20 = cmdRead) (k : Nat) (s : State) :
    transact (.bin k F) s =
      .next (finishBin k (binReadBody s.cfg.cap s.store (F.take 20) (binFields F)) s) := by
  simp only [transact, decode, decodeBin, if_neg (Nat.not_lt.2 hlen), if_pos hcmd, exec_binRead]

/-- A frame with a full header and the write command byte performs BIN_WRITE. -/
theorem transact_bin_write {F : Bytes} (hlen : 21 ≤ F.length) (hcmd : byteAt F 20 = cmdWrite) (k : Nat) (s : State) :
    transact (.bin k F) s =
      .next (finishBin k (binWriteBody s.cfg.cap s.store (F.take 20) (binFields F)) s) := by
  have hread : byteAt F 20 ≠ cmdRead := by
    rw [hcmd]
    decide
  simp only [transact, decode, decodeBin, if_neg (Nat.not_lt.2 hlen), if_neg hread, if_pos hcmd, exec_binWrite]

theorem binReadBody_withTrailing (cap : Nat) (st : Store) (h : Bytes) (fields : Option BinFields) (x : Bytes) :
    binReadBody cap st h (fields.map (BinFields.withTrailing x)) = binReadBody cap st h fields := by
  cases fields <;> rfl

theorem binPayload_withTrailing {f : BinFields} (hfits : 2 * f.count.toNat ≤ f.data.length) (x : Bytes) :
    binPayload (f.withTrailing x) = binPayload f := by
  rw [binPayload_ok.2 ⟨hfits, rfl⟩]
  refine binPayload_ok.2 ⟨?_, (List.take_append_of_le_length hfits).symm⟩
  simp only [BinFields.withTrailing, List.length_append]
  omega

theorem binWriteBody_withTrailing {fields : Option BinFields}
    (hfits : ∀ f, fields = some f → 2 * f.count.toNat ≤ f.data.length) (cap : Nat) (st : Store) (h x : Bytes) :
    binWriteBody cap st h (fields.map (BinFields.withTrailing x)) = binWriteBody cap st h fields := by
  cases fields with
  | none => rfl
  | some f =>
    simp only [binWriteBody, Option.map_some, binParsed, bind, Except.bind, binPayload_withTrailing (hfits f rfl),
      BinFields.withTrailing_name]

/-! ## Trailing bytes (R177) -/

/-- Settles O5: header and command byte stand in front of what is appended, and the fields change in `data` alone. -/
theorem trailingBinaryBytesNeverMatter : Obligations.TrailingBinaryBytesNeverMatter := by
  intro k F x s n count hn hcount hframe
  subst hn hcount
  have hlen : 32 + (byteAt F 28).toNat ≤ F.length := by omega
  have hlen' : 21 ≤ (F ++ x).length := by
    rw [List.length_append]
    omega
  have hheader : (F ++ x).take 20 = F.take 20 := List.take_append_of_le_length (by omega)
  have hcmd : byteAt (F ++ x) 20 = byteAt F 20 := byteAt_append_left (by omega)
  rcases hframe with ⟨hread, -⟩ | ⟨hwrite, hpayload⟩
  · rw [transact_bin_read hlen' (hcmd.trans hread), transact_bin_read (by omega) hread, hheader,
      binFields_append hlen, binReadBody_withTrailing]
  · rw [transact_bin_write hlen' (hcmd.trans hwrite), transact_bin_write (by omega) hwrite, hheader,
      binFields_append hlen, binWriteBody_withTrailing fun _ hf => payload_fits_of_binFields hf hpayload]

end Machine

end Sys2Proof
end

section
/-! PROOFS. The statements of 42_ascii_codec.md: the framer and what a serial byte does, the frame's checksum, and the
completion of the byte reads, the bit writes and the word writes. -/

namespace Sys2Proof.Machine

open Config

/-! ## The framer, row by row (R200) -/

theorem framer_hunt_enq (maxFrame : Nat) (buf : Bytes) : framer maxFrame .hunt buf ENQ = ⟨.body, [ENQ], none⟩ := rfl

theorem framer_hunt_other {c : Byte} (henq : c ≠ ENQ) (maxFrame : Nat) (buf : Bytes) :
    framer maxFrame .hunt buf c = ⟨.hunt, buf, none⟩ := if_neg henq

theorem framer_body_enq (maxFrame : Nat) (buf : Bytes) : framer maxFrame .body buf ENQ = ⟨.body, [ENQ], none⟩ := rfl

theorem framer_body_etx (maxFrame : Nat) (buf : Bytes) :
    framer maxFrame .body buf ETX = ⟨.ck1, buf ++ [ETX], none⟩ := rfl

theorem framer_body_overflow {maxFrame : Nat} {buf : Bytes} {c : Byte} (henq : c ≠ ENQ) (hetx : c ≠ ETX)
    (hlen : buf.length + 1 > maxFrame - 3) : framer maxFrame .body buf c = ⟨.hunt, [], none⟩ := by
  rw [framer, if_neg henq, if_neg hetx, if_pos (by rwa [List.length_append, List.length_singleton])]

theorem framer_body_char {maxFrame : Nat} {buf : Bytes} {c : Byte} (henq : c ≠ ENQ) (hetx : c ≠ ETX)
    (hlen : buf.length + 1 ≤ maxFrame - 3) : framer maxFrame .body buf c = ⟨.body, buf ++ [c], none⟩ := by
  rw [framer, if_neg henq, if_neg hetx, if_neg (by rwa [List.length_append, List.length_singleton, Nat.not_lt])]

theorem framer_ck1 (maxFrame : Nat) (buf : Bytes) (c : Byte) :
    framer maxFrame .ck1 buf c = ⟨.ck2, buf ++ [c], none⟩ := rfl

theorem framer_ck2 (maxFrame : Nat) (buf : Bytes) (c : Byte) :
    framer maxFrame .ck2 buf c = ⟨.hunt, [], some (buf ++ [c])⟩ := rfl

/-- `ENQ` starts a frame over, whether the framer hunts or holds a partial frame. -/
theorem framer_enq {fs : FramerState} (hfs : fs = .hunt ∨ fs = .body) (maxFrame : Nat) (buf : Bytes) :
    framer maxFrame fs buf ENQ = ⟨.body, [ENQ], none⟩ := by
  rcases hfs with rfl | rfl
  · exact framer_hunt_enq maxFrame buf
  · exact framer_body_enq maxFrame buf

/-- Only the second checksum character delivers a frame. -/
theorem framer_frame (maxFrame : Nat) (fs : FramerState) (buf : Bytes) (c : Byte) :
    (framer maxFrame fs buf c).frame = if fs = .ck2 then some (buf ++ [c]) else none := by
  cases fs with
  | hunt =>
    by_cases henq : c = ENQ
    · rw [henq, framer_hunt_enq, if_neg (by decide)]
    · rw [framer_hunt_other henq, if_neg (by decide)]
  | body =>
    rw [if_neg (by decide)]
    by_cases henq : c = ENQ
    · rw [henq, framer_body_enq]
    by_cases hetx : c = ETX
    · rw [hetx, framer_body_etx]
    by_cases hlen : buf.length + 1 > maxFrame - 3
    · rw [framer_body_overflow henq hetx hlen]
    · rw [framer_body_char henq hetx (Nat.not_lt.1 hlen)]
  | ck1 => rfl
  | ck2 => rfl

/-- Settles O32: one lemma per row. -/
theorem framerFollowsItsTable : Obligations.FramerFollowsItsTable := by
  intro maxFrame buf c
  exact ⟨framer_hunt_enq maxFrame buf, fun henq => framer_hunt_other henq maxFrame buf, framer_body_enq maxFrame buf,
    framer_body_etx maxFrame buf, framer_body_overflow, framer_body_char, framer_ck1 maxFrame buf c,
    framer_ck2 maxFrame buf c⟩

/-! ## The framer's run over a whole frame (R200, R201) -/

theorem framerRun_cons_none {maxFrame : Nat} {fs fs' : FramerState} {buf buf' : Bytes} {c : Byte}
    (h : framer maxFrame fs buf c = ⟨fs', buf', none⟩) (cs : Bytes) :
    framerRun maxFrame fs buf (c :: cs) = framerRun maxFrame fs' buf' cs := by
  rw [framerRun, h]
  rfl

/-- Body characters within the limit are appended to the buffer one by one. -/
theorem framerRun_body {maxFrame : Nat} (rest : Bytes) :
    ∀ {body buf : Bytes}, ENQ ∉ body → ETX ∉ body → buf.length + body.length ≤ maxFrame - 3 →
      framerRun maxFrame .body buf (body ++ rest) = framerRun maxFrame .body (buf ++ body) rest
  | [], buf, _, _, _ => by rw [List.nil_append, List.append_nil]
  | c :: cs, buf, henq, hetx, hlen => by
    rw [List.mem_cons, not_or] at henq hetx
    obtain ⟨hcenq, henq⟩ := henq
    obtain ⟨hcetx, hetx⟩ := hetx
    rw [List.length_cons] at hlen
    have hchar := framer_body_char (maxFrame := maxFrame) (buf := buf) (Ne.symm hcenq) (Ne.symm hcetx) (by omega)
    rw [List.cons_append, framerRun_cons_none hchar,
      framerRun_body rest henq hetx (by rw [List.length_append, List.length_singleton]; omega), List.append_assoc,
      List.singleton_append]

/-- `ETX` and two checksum characters, whatever these are, deliver the buffer with them. -/
theorem framerRun_end (maxFrame : Nat) (buf : Bytes) (c1 c2 : Byte) :
    framerRun maxFrame .body buf [ETX, c1, c2] = (.hunt, [], [buf ++ [ETX, c1, c2]]) := by
  rw [framerRun_cons_none (framer_body_etx maxFrame buf), framerRun_cons_none (framer_ck1 maxFrame _ c1), framerRun,
    framer_ck2, framerRun]
  simp

/-- Settles O33: `ENQ` starts the frame, `framerRun_body` collects its body, `framerRun_end` delivers it. -/
theorem framerDeliversAWholeFrame : Obligations.FramerDeliversAWholeFrame := by
  intro maxFrame fs buf body c1 c2 hfs henq hetx hlen
  have hfits : [ENQ].length + body.length ≤ maxFrame - 3 := by
    rw [List.length_singleton]
    omega
  calc framerRun maxFrame fs buf (ENQ :: (body ++ [ETX, c1, c2]))
      = framerRun maxFrame .body [ENQ] (body ++ [ETX, c1, c2]) := framerRun_cons_none (framer_enq hfs maxFrame buf) _
    _ = framerRun maxFrame .body ([ENQ] ++ body) [ETX, c1, c2] := framerRun_body _ henq hetx hfits
    _ = (.hunt, [], [([ENQ] ++ body) ++ [ETX, c1, c2]]) := framerRun_end maxFrame _ c1 c2

/-! ## What a serial byte does (R200, R201) -/

/-- The serial port's step delivers a frame only by the second checksum character (R200, R341). -/
theorem fetch_ser_some {s t : State} {W : Bytes} (h : fetch .ser s = (t, some (.asc W))) :
    ∃ c rest, s.ser.fs = .ck2 ∧ W = s.ser.buf ++ [c]
      ∧ t = { s with ser := { s.ser with rx := rest, fs := .hunt, buf := [] } } := by
  cases hrx : s.ser.rx with
  | nil =>
    rw [fetch_ser_nil hrx] at h
    exact nomatch h
  | cons c rest =>
    by_cases hfs : s.ser.fs = .ck2
    · rw [fetch_ser_ck2 hfs hrx] at h
      cases h
      exact ⟨c, rest, hfs, rfl, rfl⟩
    · rw [fetch_ser_cons hrx, framer_frame, if_neg hfs] at h
      exact nomatch h

/-- Settles O34: the invariant says what the buffer holds in `CK2`, and the last byte is appended to it. -/
theorem deliveredFramesAreDelimitedAndBounded : Obligations.DeliveredFramesAreDelimitedAndBounded := by
  intro s t W hinv hfetch
  obtain ⟨c, rest, hfs, rfl, rfl⟩ := fetch_ser_some hfetch
  have hframer := hinv.framer
  obtain ⟨_, hlimit⟩ := hinv.legal
  rw [SerPort.Ok, hfs] at hframer
  obtain ⟨body, c1, _, _, hbuf, hlen⟩ := hframer
  have hW : s.ser.buf ++ [c] = ENQ :: (body ++ [ETX, c1, c]) := by simp [hbuf]
  have hWlen : (s.ser.buf ++ [c]).length = body.length + 4 := by simp [hW]
  have hbuflen : (s.ser.buf ++ [c]).length = s.ser.buf.length + 1 := List.length_append
  refine ⟨by omega, by omega, by rw [hW]; rfl, ?_, rfl, rfl⟩
  rw [hWlen, show body.length + 4 - 3 = body.length + 1 by omega, hW, byteAt_cons_succ,
    byteAt_append_right (Nat.le_refl _), Nat.sub_self]
  rfl

theorem serve_of_fetch_none {a : Agent} {s s' : State} (hf : fetch a s = (s', none)) : serve a s = .next s' := by
  rw [serve, hf]

/-- Settles O48: outside `CK2` no frame is delivered, so the step is `fetch` alone. -/
theorem serialBytesThatEndNoFrameOnlyMoveTheFramer : Obligations.SerialBytesThatEndNoFrameOnlyMoveTheFramer := by
  intro s c rest hrx hfs
  have hframe : (framer s.cfg.maxAsciiFrame s.ser.fs s.ser.buf c).frame = none := by rw [framer_frame, if_neg hfs]
  have hfetch := fetch_ser_cons hrx
  rw [hframe] at hfetch
  refine ⟨_, serve_of_fetch_none hfetch, ⟨rfl, rfl, rfl⟩, rfl, rfl, rfl, rfl, rfl, rfl, ?_⟩
  exact congrArg (FramerOut.mk _ _) hframe

/-! ## The checksum of a request (R202, R208) -/

theorem stripChecksum_append {ck : Bytes} (hck : ck.length = 2) (F : Bytes) : stripChecksum (F ++ ck) = F := by
  rw [stripChecksum, List.length_append, hck, Nat.add_sub_cancel, List.take_left]

/-- The decoder reads the length of the checksum alone. -/
theorem decodeAsc_append_checksum {ck ck' : Bytes} (hck : ck.length = 2) (hck' : ck'.length = 2) (F : Bytes) :
    decodeAsc (F ++ ck) = decodeAsc (F ++ ck') := by
  rw [decodeAsc, decodeAsc, stripChecksum_append hck, stripChecksum_append hck', List.length_append, List.length_append,
    hck, hck']

/-- Settles O6: the two frames decode alike, to the same command or the same error of the same port. -/
theorem incomingChecksumNeverMatters : Obligations.IncomingChecksumNeverMatters := by
  intro F c1 c2 d1 d2 s
  have hdecode : decode (.asc (F ++ [c1, c2])) = decode (.asc (F ++ [d1, d2])) := decodeAsc_append_checksum rfl rfl F
  rw [transact, transact, hdecode]
  rfl

/-! ## The end of a transaction of the serial port (R202, R209) -/

theorem raiseError_ser_failed (e : ErrorKind) (s : State) : SerFailed e s (raiseError .ser e s) :=
  ⟨rfl, ⟨⟨rfl, rfl, rfl⟩, rfl, rfl, rfl, rfl, rfl⟩, rfl, rfl⟩

/-- A command of the serial port whose checks all hold answers, with its store and its response. -/
theorem exec_eq_emitSer {i : Instr} {s : State} {result : Except ErrorKind (Store × Bytes)} {st : Store} {r : Bytes}
    (hexec : exec i s = .next (finishSer result s)) (hresult : result = .ok (st, r)) :
    exec i s = .next (emitSer st r s) := by
  rw [hexec, hresult, finishSer]

/-- Settles O29: each of the four is the error entry alone. -/
theorem doubleAndLongWordWritesAreUnimplemented : Obligations.DoubleAndLongWordWritesAreUnimplemented := by
  intro i hi area op s
  refine ⟨raiseError .ser .unimplemented s, ?_, raiseError_ser_failed _ s⟩
  rcases hi with rfl | rfl | rfl | rfl <;> rfl

/-! ## The byte reads (R222, R223) -/

theorem ascByteRead_ok {op : AscReadOp} {start cap : Nat} (hsuffix : decStr op.suffix = some start)
    (hin : start + op.size.toNat ≤ cap) (a : Area) (st : Store) :
    ascByteRead a cap st op = .ok (st, ascReadResp op.st1 op.st2 ((st.get a).readBytes start op.size.toNat)) :=
  bind_ok.2 ⟨start, decIndex_ok.2 hsuffix, bind_ok.2 ⟨_, memRead_ok.2 ⟨hin, rfl⟩, rfl⟩⟩

/-- Settles O24: both commands are `ascByteRead` on their area, and its payload is the range read. -/
theorem asciiByteReadsAnswerTheBytes : Obligations.AsciiByteReadsAnswerTheBytes := by
  intro i a hia op s start hsuffix hin
  have hbody : exec (i op) s = .next (finishSer (ascByteRead a s.cfg.cap s.store op) s) := by
    rcases hia with ⟨rfl, rfl⟩ | ⟨rfl, rfl⟩ <;> rfl
  obtain ⟨hanswer, hframe⟩ := emitSer_answers s.store
    (ascReadResp op.st1 op.st2 ((s.store.get a).readBytes start op.size.toNat)) s
  exact ⟨_, _, _, exec_eq_emitSer hbody (ascByteRead_ok hsuffix hin a s.store), hanswer, hframe, rfl,
    isReadResponse_ascReadResp _ _ _, Memory.length_readBytes _ _ _, fun j hj => Memory.byteAt_readBytes _ hj⟩

/-! ## The bit writes (R239) -/

theorem isWriteResponse_ascWriteResp (st1 st2 cls : Byte) : IsWriteResponse st1 st2 cls (ascWriteResp st1 st2 cls) :=
  ⟨_, rfl, rfl, rfl⟩

/-- The value text of a class `X` write is its first two characters. -/
theorem take_two_eq_iff {tail : Bytes} (htail : 2 ≤ tail.length) (x y : Byte) :
    tail.take 2 = [x, y] ↔ byteAt tail 0 = x ∧ byteAt tail 1 = y := by
  match tail, htail with
  | c :: c' :: rest, _ => simp

theorem State.bitAt_eq_bit (s : State) (a : Area) (i : Nat) : s.bitAt a i = (s.store.get a).bit i := rfl

/-- Every bit of the store after the write of one bit: the bit written, or the bit before. -/
theorem Store.bit_set_writeBit {st : Store} {a : Area} (hwf : (st.get a).wf = true) (i : Nat) (v : Bool) (b : Area)
    (j : Nat) :
    ((st.set a ((st.get a).writeBit i v)).get b).bit j = if b = a ∧ j = i then v else (st.get b).bit j := by
  by_cases hba : b = a
  · subst hba
    simp only [Store.get_set_same, Memory.bit_writeBit hwf, true_and]
  · rw [Store.get_set, if_neg hba, if_neg fun h => hba h.1]

/-- The state a class `X` write of bit `n` leaves where none of its checks fails (R239). -/
def State.afterBitWrite (cls : Byte) (a : Area) (op : AscWriteOp) (n : Nat) (s : State) : State :=
  emitSer (s.store.set a ((s.store.get a).writeBit n (op.tail.take 2 = [ch0, ch1]))) (ascWriteResp op.st1 op.st2 cls) s

theorem exec_eq_afterBitWrite {i : Instr} {cls : Byte} {a : Area} {op : AscWriteOp} {s : State} {n : Nat}
    (hexec : exec i s = .next (finishSer (ascBitWrite cls a s.cfg.cap s.store op) s))
    (hsuffix : resolveLetterOrDigit op.suffix = .ok n) (htail : 2 ≤ op.tail.length) (hn : n < 8 * s.cfg.cap) :
    exec i s = .next (s.afterBitWrite cls a op n) :=
  exec_eq_emitSer hexec (bind_ok.2 ⟨n, hsuffix, bind_ok.2 ⟨_, bitValue_ok.2 ⟨htail, rfl⟩,
    bind_ok.2 ⟨_, bitWrite_eq_ok hn s.store a _, rfl⟩⟩⟩)

theorem State.bitAt_afterBitWrite {s : State} {a : Area} (hwf : (s.store.get a).wf = true) (cls : Byte)
    (op : AscWriteOp) (n : Nat) (b : Area) (j : Nat) :
    (s.afterBitWrite cls a op n).bitAt b j
      = if b = a ∧ j = n then decide (op.tail.take 2 = [ch0, ch1]) else s.bitAt b j :=
  Store.bit_set_writeBit hwf n _ b j

/-- A class `X` write of either family where none of its checks fails. -/
theorem ascBitWrite_completes {i : Instr} {cls : Byte} {a : Area} {op : AscWriteOp} {s : State} {n : Nat}
    (hexec : exec i s = .next (finishSer (ascBitWrite cls a s.cfg.cap s.store op) s)) (hst : s.store.Ok s.cfg.cap)
    (hsuffix : resolveLetterOrDigit op.suffix = .ok n) (htail : 2 ≤ op.tail.length) (hn : n < 8 * s.cfg.cap) :
    ∃ (t : State) (r : Bytes), exec i s = .next t ∧ SerAnswered r s t ∧ SerFrame s t
      ∧ IsWriteResponse op.st1 op.st2 cls r
      ∧ t.bitAt a n = decide (byteAt op.tail 0 = ch0 ∧ byteAt op.tail 1 = ch1) ∧ SameBitsExcept a n s t := by
  obtain ⟨hwf, _⟩ := hst a
  obtain ⟨hanswer, hframe⟩ := emitSer_answers
    (s.store.set a ((s.store.get a).writeBit n (op.tail.take 2 = [ch0, ch1]))) (ascWriteResp op.st1 op.st2 cls) s
  refine ⟨_, _, exec_eq_afterBitWrite hexec hsuffix htail hn, hanswer, hframe, isWriteResponse_ascWriteResp _ _ _, ?_,
    fun b j hbj => ?_⟩
  · rw [State.bitAt_afterBitWrite hwf, if_pos ⟨rfl, rfl⟩, decide_eq_decide]
    exact take_two_eq_iff htail _ _
  · rw [State.bitAt_afterBitWrite hwf, if_neg hbj]

/-- Settles O25: both commands are `ascBitWrite` with class byte `w` on their area. -/
theorem asciiBitWritesSetOneBit : Obligations.AsciiBitWritesSetOneBit := by
  intro i a hia op s n hst hsuffix htail hn
  refine ascBitWrite_completes ?_ hst hsuffix htail hn
  rcases hia with ⟨rfl, rfl⟩ | ⟨rfl, rfl⟩ <;> rfl

/-- Settles O26: both commands are `ascBitWrite` with class byte `W` on their area. -/
theorem shiftedBitWritesSetOneBit : Obligations.ShiftedBitWritesSetOneBit := by
  intro i a hia op s n hst hsuffix htail hn
  refine ascBitWrite_completes ?_ hst hsuffix htail hn
  rcases hia with ⟨rfl, rfl⟩ | ⟨rfl, rfl⟩ <;> rfl

/-- HOST_READBIT where none of its checks fails (R273). -/
theorem exec_hostReadbit_ok {text : Bytes} {a : Area} {n : Nat} {s : State}
    (htext : resolveGeneric text true = .ok (a, n)) (hn : n < 8 * s.cfg.cap) :
    exec (.hostReadbit text) s = .next (emitHost s.store (.bit (s.bitAt a n)) s) := by
  have hbody : hostReadbitBody s.cfg.cap s.store text = .ok (s.store, .bit (s.bitAt a n)) :=
    bind_ok.2 ⟨(a, n), htext, bind_ok.2 ⟨_, bitRead_ok.2 ⟨hn, rfl⟩, rfl⟩⟩
  rw [exec, execHostReadbit, hbody, finishHost]

/-- Settles O31: the write answers `State.afterBitWrite`, with the same capacity, and the host reads its bit `n`. -/
theorem bitWrittenByMxIsReadByTheHost : Obligations.BitWrittenByMxIsReadByTheHost := by
  intro op text s n hst hsuffix htail hn htext
  obtain ⟨hwf, _⟩ := hst .m
  refine ⟨s.afterBitWrite chw .m op n, _, exec_eq_afterBitWrite rfl hsuffix htail hn, exec_hostReadbit_ok htext hn, ?_⟩
  rw [State.bitAt_afterBitWrite hwf, if_pos ⟨rfl, rfl⟩]
  rfl

/-! ## The word writes (R239) -/

/-- The payload of a class `W` write whose characters are all hex: half as many bytes, in the order received. -/
theorem wordPayload_of_hex {size : Byte} {tail : Bytes} (htail : 4 * size.toNat ≤ tail.length)
    (hhex : ∀ c ∈ tail.take (4 * size.toNat), hexVal c ≠ none) :
    ∃ d, wordPayload size tail = .ok d ∧ d.length = 2 * size.toNat
      ∧ ∀ j < 2 * size.toNat, ∃ x y, hexVal (byteAt tail (2 * j)) = some x
        ∧ hexVal (byteAt tail (2 * j + 1)) = some y ∧ (byteAt d j).toNat = 16 * x + y := by
  have hlen : (tail.take (4 * size.toNat)).length = 2 * (2 * size.toNat) := by
    rw [List.length_take_of_le htail]
    omega
  obtain ⟨d, hd, hdlen, hbytes⟩ := hexDec_of_hex hlen hhex
  refine ⟨d, by rw [wordPayload, if_neg (Nat.not_lt.2 htail), hd], hdlen, fun j hj => ?_⟩
  have hchars := hbytes j hj
  rwa [byteAt_take (by omega), byteAt_take (by omega)] at hchars

theorem ascWordWrite_ok {op : AscWriteOp} {start cap : Nat} {d : Bytes} (hsuffix : decStr op.suffix = some start)
    (hpayload : wordPayload op.size op.tail = .ok d) (hin : start + d.length ≤ cap) (cls : Byte) (a : Area) (st : Store) :
    ascWordWrite cls a cap st op
      = .ok (st.set a ((st.get a).writeBytes start d), ascWriteResp op.st1 op.st2 cls) :=
  bind_ok.2 ⟨start, decIndex_ok.2 hsuffix, bind_ok.2 ⟨d, hpayload, bind_ok.2 ⟨_, memWrite_ok.2 ⟨hin, rfl⟩, rfl⟩⟩⟩

/-- A class `W` write of either family where none of its checks fails. -/
theorem ascWordWrite_completes {i : Instr} {cls : Byte} {a : Area} {op : AscWriteOp} {s : State} {start : Nat}
    (hexec : exec i s = .next (finishSer (ascWordWrite cls a s.cfg.cap s.store op) s)) (hst : s.store.Ok s.cfg.cap)
    (hsuffix : decStr op.suffix = some start) (htail : 4 * op.size.toNat ≤ op.tail.length)
    (hhex : ∀ c ∈ op.tail.take (4 * op.size.toNat), hexVal c ≠ none) (hin : start + 2 * op.size.toNat ≤ s.cfg.cap) :
    ∃ (t : State) (r : Bytes), exec i s = .next t ∧ SerAnswered r s t ∧ SerFrame s t
      ∧ IsWriteResponse op.st1 op.st2 cls r
      ∧ (∀ j < 2 * op.size.toNat, ∃ x y, hexVal (byteAt op.tail (2 * j)) = some x
          ∧ hexVal (byteAt op.tail (2 * j + 1)) = some y ∧ (t.byte a (start + j)).toNat = 16 * x + y)
      ∧ SameBytesOutside a start (2 * op.size.toNat) s t := by
  obtain ⟨hwf, _⟩ := hst a
  obtain ⟨d, hpayload, hlen, hchars⟩ := wordPayload_of_hex htail hhex
  rw [← hlen] at hin hchars ⊢
  obtain ⟨hanswer, hframe⟩ := emitSer_answers (s.store.set a ((s.store.get a).writeBytes start d))
    (ascWriteResp op.st1 op.st2 cls) s
  refine ⟨_, _, exec_eq_emitSer hexec (ascWordWrite_ok hsuffix hpayload hin cls a s.store), hanswer, hframe,
    isWriteResponse_ascWriteResp _ _ _, fun j hj => ?_, ?_⟩
  · rw [State.byte, emitSer_store, Store.get_set_same, Memory.read_writeBytes_inside hwf hj]
    exact hchars j hj
  · exact Store.read_set_outside fun k hk => Memory.read_writeBytes_outside hwf hk

/-- Settles O27: the four commands are `ascWordWrite` with class byte `w` on their area. -/
theorem asciiWordWritesStoreTheHexBytes : Obligations.AsciiWordWritesStoreTheHexBytes := by
  intro i a hia op s start hst hsuffix htail hhex hin
  refine ascWordWrite_completes ?_ hst hsuffix htail hhex hin
  rcases hia with ⟨rfl, rfl⟩ | ⟨rfl, rfl⟩ | ⟨rfl, rfl⟩ | ⟨rfl, rfl⟩ <;> rfl

/-- Settles O28: the four commands are `ascWordWrite` with class byte `W` on their area. -/
theorem shiftedWordWritesStoreTheHexBytes : Obligations.ShiftedWordWritesStoreTheHexBytes := by
  intro i a hia op s start hst hsuffix htail hhex hin
  refine ascWordWrite_completes ?_ hst hsuffix htail hhex hin
  rcases hia with ⟨rfl, rfl⟩ | ⟨rfl, rfl⟩ | ⟨rfl, rfl⟩ | ⟨rfl, rfl⟩ <;> rfl

end Sys2Proof.Machine
end

section
/-! PROOFS. The statements of 43_host_port.md: what each host operation answers, and the snapshot image. -/

namespace Sys2Proof.Machine

/-! ## The end of a host operation (R270) -/

/-- A result with status `OK` is appended to `hostOut` and touches the store and that queue alone. -/
theorem emitHost_answers (st : Store) (v : HostValue) (s : State) :
    HostAnswered v s (emitHost st v s) ∧ HostFrame s (emitHost st v s) :=
  ⟨rfl, ⟨rfl, rfl, rfl⟩, rfl, rfl, rfl⟩

theorem raiseError_host_failed (e : ErrorKind) (s : State) : HostFailed e s (raiseError .host e s) :=
  ⟨rfl, ⟨⟨rfl, rfl, rfl⟩, rfl, rfl, rfl⟩, rfl⟩

/-- A host operation whose checks all hold answers, with its store and its result. -/
theorem exec_eq_emitHost {i : Instr} {s : State} {result : Except ErrorKind (Store × HostValue)} {st : Store}
    {v : HostValue} (hexec : exec i s = .next (finishHost result s)) (hresult : result = .ok (st, v)) :
    exec i s = .next (emitHost st v s) := by
  rw [hexec, hresult, finishHost]

/-! ## The operations on a range or a bit (R271 to R274) -/

/-- HOST_READ where none of its checks fails. -/
theorem exec_hostRead_ok {text : Bytes} {n start : Nat} {a : Area} {s : State}
    (htext : resolveGeneric text true = .ok (a, start)) (hin : start + n ≤ s.cfg.cap) :
    exec (.hostRead text n) s = .next (emitHost s.store (.bytes ((s.store.get a).readBytes start n)) s) :=
  exec_eq_emitHost rfl (bind_ok.2 ⟨(a, start), htext, bind_ok.2 ⟨_, memRead_ok.2 ⟨hin, rfl⟩, rfl⟩⟩)

/-- HOST_WRITE where none of its checks fails. -/
theorem exec_hostWrite_ok {text d : Bytes} {start : Nat} {a : Area} {s : State}
    (htext : resolveGeneric text false = .ok (a, start)) (hin : start + d.length ≤ s.cfg.cap) :
    exec (.hostWrite text d) s
      = .next (emitHost (s.store.set a ((s.store.get a).writeBytes start d)) .done s) :=
  exec_eq_emitHost rfl (bind_ok.2 ⟨(a, start), htext, bind_ok.2 ⟨_, memWrite_ok.2 ⟨hin, rfl⟩, rfl⟩⟩)

/-- HOST_WRITEBIT where none of its checks fails. -/
theorem exec_hostWritebit_ok {text : Bytes} {v : Bool} {n : Nat} {a : Area} {s : State}
    (htext : resolveGeneric text false = .ok (a, n)) (hn : n < 8 * s.cfg.cap) :
    exec (.hostWritebit text v) s
      = .next (emitHost (s.store.set a ((s.store.get a).writeBit n v)) .done s) :=
  exec_eq_emitHost rfl (bind_ok.2 ⟨(a, n), htext, bind_ok.2 ⟨_, bitWrite_eq_ok hn s.store a v, rfl⟩⟩)

/-- Settles O35: the result holds the range of the area, byte by byte, and the store is the one before. -/
theorem hostReadReturnsTheRange : Obligations.HostReadReturnsTheRange := by
  intro text n s a start htext hin
  obtain ⟨hanswer, hframe⟩ := emitHost_answers s.store (.bytes ((s.store.get a).readBytes start n)) s
  exact ⟨_, _, exec_hostRead_ok htext hin, hanswer, hframe, rfl, Memory.length_readBytes _ _ _,
    fun j hj => Memory.byteAt_readBytes _ hj⟩

/-- Settles O36: the area written reads as `d` in the range and as before outside it, and no other area is set. -/
theorem hostWriteStoresItsBytes : Obligations.HostWriteStoresItsBytes := by
  intro text d s a start hst htext hin
  obtain ⟨hwf, _⟩ := hst a
  obtain ⟨hanswer, hframe⟩ := emitHost_answers (s.store.set a ((s.store.get a).writeBytes start d)) .done s
  refine ⟨_, exec_hostWrite_ok htext hin, hanswer, hframe, fun j hj => ?_, ?_⟩
  · rw [State.byte, emitHost_store, Store.get_set_same, Memory.read_writeBytes_inside hwf hj]
  · exact Store.read_set_outside fun i hi => Memory.read_writeBytes_outside hwf hi

/-- Settles O37: `exec_hostReadbit_ok` with the answer it gives. -/
theorem hostReadbitReturnsTheBit : Obligations.HostReadbitReturnsTheBit := by
  intro text s a n htext hn
  obtain ⟨hanswer, hframe⟩ := emitHost_answers s.store (.bit (s.bitAt a n)) s
  exact ⟨_, exec_hostReadbit_ok htext hn, hanswer, hframe, rfl⟩

/-- Settles O38: `Store.bit_set_writeBit` gives every bit of the store the operation leaves. -/
theorem hostWritebitSetsOneBit : Obligations.HostWritebitSetsOneBit := by
  intro text v s a n hst htext hn
  obtain ⟨hwf, _⟩ := hst a
  obtain ⟨hanswer, hframe⟩ := emitHost_answers (s.store.set a ((s.store.get a).writeBit n v)) .done s
  refine ⟨_, exec_hostWritebit_ok htext hn, hanswer, hframe, ?_, fun b j hbj => ?_⟩ <;>
    rw [State.bitAt_eq_bit, emitHost_store, Store.bit_set_writeBit hwf]
  · exact if_pos ⟨rfl, rfl⟩
  · exact if_neg hbj

/-! ## The snapshot image (R63) -/

@[simp] theorem Store.length_image (cap : Nat) (st : Store) : (st.image cap).length = 4 * cap := by
  simp only [Store.image, List.length_append, Memory.length_readBytes]
  omega

/-- An area's bytes stand in the image at the area's place, behind the areas before it. -/
theorem Store.image_split (cap : Nat) (st : Store) (a : Area) :
    ∃ F G : Bytes, F.length = place a * cap ∧ st.image cap = F ++ ((st.get a).readBytes 0 cap ++ G) := by
  cases a with
  | p =>
    exact ⟨[], st.q.readBytes 0 cap ++ (st.m.readBytes 0 cap ++ st.d.readBytes 0 cap), by simp [place],
      by simp [Store.image, Store.get]⟩
  | q =>
    exact ⟨st.p.readBytes 0 cap, st.m.readBytes 0 cap ++ st.d.readBytes 0 cap, by simp [place],
      by simp [Store.image, Store.get]⟩
  | m =>
    exact ⟨st.p.readBytes 0 cap ++ st.q.readBytes 0 cap, st.d.readBytes 0 cap, by simp [place, Nat.two_mul],
      by simp [Store.image, Store.get]⟩
  | d =>
    exact ⟨st.p.readBytes 0 cap ++ st.q.readBytes 0 cap ++ st.m.readBytes 0 cap, [], by simp [place]; omega,
      by simp [Store.image, Store.get]⟩

theorem Store.byteAt_image {cap i : Nat} (hi : i < cap) (st : Store) (a : Area) :
    byteAt (st.image cap) (place a * cap + i) = (st.get a).read i := by
  obtain ⟨F, G, hF, himage⟩ := st.image_split cap a
  rw [himage, byteAt_append_add hF, byteAt_append_left (by rwa [Memory.length_readBytes]), Memory.byteAt_readBytes _ hi,
    Nat.zero_add]

/-- The offsets of `Store.read_ofImage` are the areas' places. -/
theorem Store.read_ofImage_place {cap i : Nat} (hi : i < cap) (img : Bytes) (a : Area) :
    ((Store.ofImage cap img).get a).read i = byteAt img (place a * cap + i) := by
  rw [Store.read_ofImage cap img a i hi]
  cases a <;> simp [place, byteAt]

theorem Memory.read_of_below {cap i : Nat} (hi : cap ≤ i) :
    ∀ {m : Memory}, m.below cap = true → m.read i = unlisted
  | [], _ => rfl
  | (a, b) :: rest, hm => by
    obtain ⟨ha, hrest⟩ := Memory.below_cons.1 hm
    rw [Memory.read, if_neg (by omega), Memory.read_of_below hi hrest]

/-- Two stores in canonical form that hold the same byte at every index below the capacity are the same store. -/
theorem Store.eq_of_read_eq {cap : Nat} {st st' : Store} (hst : st.Ok cap) (hst' : st'.Ok cap)
    (hread : ∀ a, ∀ i < cap, (st.get a).read i = (st'.get a).read i) : st = st' := by
  have hget : ∀ a, st.get a = st'.get a := fun a => by
    obtain ⟨hwf, hbelow⟩ := hst a
    obtain ⟨hwf', hbelow'⟩ := hst' a
    refine Memory.ext hwf hwf' fun i => ?_
    rcases Nat.lt_or_ge i cap with hi | hi
    · exact hread a i hi
    · rw [Memory.read_of_below hi hbelow, Memory.read_of_below hi hbelow']
  cases st
  cases st'
  exact (Store.mk.injEq ..).mpr ⟨hget .p, hget .q, hget .m, hget .d⟩

/-- The image of a store in canonical form lays the very store out again. -/
theorem Store.ofImage_image {cap : Nat} {st : Store} (hst : st.Ok cap) : Store.ofImage cap (st.image cap) = st :=
  Store.eq_of_read_eq (Store.ok_ofImage cap _) hst fun a _ hi =>
    (Store.read_ofImage_place hi _ a).trans (Store.byteAt_image hi st a)

/-! ## The snapshot operations (R276, R277) -/

theorem exec_hostExport (s : State) :
    exec .hostExport s = .next (emitHost s.store (.bytes (s.store.image s.cfg.cap)) s) := rfl

theorem exec_hostImport (img : Bytes) (s : State) :
    exec (.hostImport img) s = .next (finishHost (hostImportBody s.cfg.cap img) s) := rfl

/-- HOST_IMPORT of an image of the right length. -/
theorem exec_hostImport_ok {img : Bytes} {s : State} (himg : img.length = 4 * s.cfg.cap) :
    exec (.hostImport img) s = .next (emitHost (Store.ofImage s.cfg.cap img) .done s) :=
  exec_eq_emitHost rfl (bind_ok.2 ⟨_, importImage_ok.2 ⟨himg, rfl⟩, rfl⟩)

/-- HOST_IMPORT of an image of any other length. -/
theorem exec_hostImport_malformed {img : Bytes} {s : State} (himg : img.length ≠ 4 * s.cfg.cap) :
    exec (.hostImport img) s = .next (raiseError .host .malformedSnapshot s) := by
  have hbody : hostImportBody s.cfg.cap img = .error .malformedSnapshot :=
    bind_error.2 (.inl (importImage_error.2 ⟨himg, rfl⟩))
  rw [exec_hostImport, hbody, finishHost]

/-- Settles O39: the result is the image of the store, whose bytes `Store.byteAt_image` gives. -/
theorem hostExportReturnsTheImage : Obligations.HostExportReturnsTheImage := by
  intro s
  obtain ⟨hanswer, hframe⟩ := emitHost_answers s.store (.bytes (s.store.image s.cfg.cap)) s
  exact ⟨_, _, exec_hostExport s, hanswer, hframe, rfl, Store.length_image _ _,
    fun a _ hi => Store.byteAt_image hi s.store a⟩

/-- Settles O40: the length alone decides between the error entry and the store the image lays out. -/
theorem hostImportReplacesAllAreasOrNone : Obligations.HostImportReplacesAllAreasOrNone := by
  intro img s
  refine ⟨fun himg => ⟨_, exec_hostImport_malformed himg, raiseError_host_failed _ s⟩, fun himg => ?_⟩
  obtain ⟨hanswer, hframe⟩ := emitHost_answers (Store.ofImage s.cfg.cap img) .done s
  exact ⟨_, exec_hostImport_ok himg, hanswer, hframe, fun a _ hi => Store.read_ofImage_place hi img a⟩

/-- Settles O41: HOST_EXPORT keeps the configuration and gives an image of the right length, and by `Store.ofImage_image`
HOST_IMPORT lays the store out again. -/
theorem exportThenImportRestoresTheStore : Obligations.ExportThenImportRestoresTheStore := by
  intro s hst
  obtain ⟨hexported, _⟩ := emitHost_answers s.store (.bytes (s.store.image s.cfg.cap)) s
  exact ⟨_, _, _, exec_hostExport s, hexported, exec_hostImport_ok (Store.length_image _ _),
    (emitHost_answers _ _ _).1, Store.ofImage_image hst⟩

end Sys2Proof.Machine
end

section
/-! PROOFS. The statements of 60_exceptions.md: the error entry on each port, the check orders of R303 to R305, and that
the agents share nothing but the areas. -/

namespace Sys2Proof.Machine

open Config

/-! ## Error entry (R306) -/

/-- The closing of R178 named kind by kind. -/
theorem BinPort.fail_eq (e : ErrorKind) (p : BinPort) :
    p.fail e =
      { p with
        status := p.status ++ [.error e]
        close := p.close || (e == .unsupportedCommand || e == .malformedFrame)
        state := if e = .unsupportedCommand ∨ e = .malformedFrame then .closed else p.state } := by
  cases e <;> rfl

theorem raiseError_bin_failed {k : Nat} {s : State} {p : BinPort} (hp : s.bin[k]? = some p) (e : ErrorKind) :
    BinFailed k p e s (raiseError (.bin k) e s) := by
  refine ⟨rfl, ⟨⟨rfl, rfl, rfl⟩, rfl, rfl, fun j hj => State.getElem?_onBin_ne s _ hj.symm⟩, ?_⟩
  rw [raiseError, State.getElem?_onBin_same, hp, Option.map_some, BinPort.fail_eq]

/-- Settles O43: the error entry of each port. -/
theorem errorEntryWritesAndEmitsNothing : Obligations.ErrorEntryWritesAndEmitsNothing := by
  intro e s
  exact ⟨fun _ _ hp => raiseError_bin_failed hp e, raiseError_ser_failed e s, raiseError_host_failed e s⟩

/-! ## Agents share the areas alone (R313) -/

/-- A part of the state that neither the agent's input nor the end of its transactions touches, its step keeps. -/
theorem serve_keeps {α : Type} {part : State → α} {a : Agent} (hfetch : ∀ s, part (fetch a s).1 = part s)
    (hends : ∀ s t, Ends a s t → part t = part s) {s t : State} (h : serve a s = .next t) : part t = part s := by
  rcases serve_next h with rfl | hend
  · exact hfetch s
  · exact (hends _ t hend).trans (hfetch s)

theorem fetch_ser_of_ne {a : Agent} (ha : a ≠ .ser) (s : State) : (fetch a s).1.ser = s.ser := by
  cases a with
  | bin k =>
    rcases fetch_bin_cases k s with ⟨_, hf⟩ | ⟨_, _, _, _, _, _, hf⟩ <;> rw [hf]
    rfl
  | ser => exact absurd rfl ha
  | host =>
    cases hq : s.host.inQ with
    | nil => rw [fetch_host_nil hq]
    | cons op rest => rw [fetch_host_cons hq]

theorem Ends.ser_of_ne {a : Agent} (ha : a ≠ .ser) {s t : State} (h : Ends a s t) : t.ser = s.ser := by
  cases a with
  | bin k => obtain ⟨_, _, _, _, rfl⟩ := h.bin_cases; rfl
  | ser => exact absurd rfl ha
  | host => obtain ⟨_, _, _, rfl⟩ := h.host_cases; rfl

theorem serve_ser_of_ne {a : Agent} {s t : State} (h : serve a s = .next t) (ha : a ≠ .ser) : t.ser = s.ser :=
  serve_keeps (part := State.ser) (fetch_ser_of_ne ha) (fun _ _ => Ends.ser_of_ne ha) h

theorem fetch_host_of_ne {a : Agent} (ha : a ≠ .host) (s : State) : (fetch a s).1.host = s.host := by
  cases a with
  | bin k =>
    rcases fetch_bin_cases k s with ⟨_, hf⟩ | ⟨_, _, _, _, _, _, hf⟩ <;> rw [hf]
    rfl
  | ser =>
    cases hrx : s.ser.rx with
    | nil => rw [fetch_ser_nil hrx]
    | cons c rest => rw [fetch_ser_cons hrx]
  | host => exact absurd rfl ha

theorem Ends.host_of_ne {a : Agent} (ha : a ≠ .host) {s t : State} (h : Ends a s t) : t.host = s.host := by
  cases a with
  | bin k => obtain ⟨_, _, _, _, rfl⟩ := h.bin_cases; rfl
  | ser => obtain ⟨_, _, _, _, rfl⟩ := h.ser_cases; rfl
  | host => exact absurd rfl ha

theorem serve_host_of_ne {a : Agent} {s t : State} (h : serve a s = .next t) (ha : a ≠ .host) : t.host = s.host :=
  serve_keeps (part := State.host) (fetch_host_of_ne ha) (fun _ _ => Ends.host_of_ne ha) h

/-- No port of the binary list moves when none of them steps. -/
theorem serve_bin_of_forall_ne {a : Agent} {s t : State} (h : serve a s = .next t) (ha : ∀ k, a ≠ .bin k) :
    t.bin = s.bin :=
  List.ext_getElem? fun k => serve_getElem?_bin_ne (ha k) h

/-- Settles O59: for each agent, the ports of the others by `serve_getElem?_bin_ne`, `serve_ser_of_ne` and
`serve_host_of_ne`. -/
theorem servingOnePortLeavesTheOthers : Obligations.ServingOnePortLeavesTheOthers := by
  intro s t
  refine ⟨fun k h => ?_, fun h => ?_, fun h => ?_⟩
  · exact ⟨serve_sameFixed h, serve_ser_of_ne h nofun, serve_host_of_ne h nofun,
      fun j hj => serve_getElem?_bin_ne (fun heq => hj (Agent.bin.inj heq).symm) h⟩
  · exact ⟨serve_sameFixed h, serve_bin_of_forall_ne h nofun, serve_host_of_ne h nofun⟩
  · exact ⟨serve_sameFixed h, serve_bin_of_forall_ne h nofun, serve_ser_of_ne h nofun⟩

/-! ## The error a computation raises -/

/-- The error kind a computation ends with, if it does: what the check orders of R303 to R305 name. -/
def raised {α : Type} : Except ErrorKind α → Option ErrorKind
  | .ok _ => none
  | .error e => some e

@[simp] theorem raised_ok {α : Type} (x : α) : raised (.ok x) = none := rfl

@[simp] theorem raised_error {α : Type} (e : ErrorKind) : raised (.error e : Except ErrorKind α) = some e := rfl

theorem raised_eq_none {α : Type} {r : Except ErrorKind α} : raised r = none ↔ ∃ x, r = .ok x := by
  cases r <;> simp

theorem raised_eq_some {α : Type} {r : Except ErrorKind α} {e : ErrorKind} : raised r = some e ↔ r = .error e := by
  cases r <;> simp

theorem raised_bind_of_error {α β : Type} {r : Except ErrorKind α} {f : α → Except ErrorKind β} {e : ErrorKind}
    (hr : r = .error e) : raised (r >>= f) = some e :=
  raised_eq_some.2 (bind_error.2 (.inl hr))

theorem raised_bind_of_ok {α β : Type} {r : Except ErrorKind α} {f : α → Except ErrorKind β} {x : α}
    {o : Option ErrorKind} (hr : r = .ok x) (hf : raised (f x) = o) : raised (r >>= f) = o := by
  subst hr
  exact hf

/-- Nothing is raised by the response built at the end of a transaction. -/
theorem raised_bind_pure {α β : Type} (r : Except ErrorKind α) (f : α → β) :
    raised (r >>= fun x => pure (f x)) = raised r := by
  cases r <;> rfl

theorem raised_check {α : Type} {c : Prop} [Decidable c] {e : ErrorKind} {x : α} :
    raised (if c then .error e else .ok x) = if c then some e else none := by
  split <;> rfl

/-! ## The checks of the primitives and the resolvers -/

theorem raised_memRead (cap : Nat) (st : Store) (a : Area) (start n : Nat) :
    raised (memRead cap st a start n) = if start + n > cap then some .outOfRange else none :=
  raised_check

theorem raised_memWrite (cap : Nat) (st : Store) (a : Area) (start : Nat) (v : Bytes) :
    raised (memWrite cap st a start v) = if start + v.length > cap then some .outOfRange else none :=
  raised_check

theorem raised_bitRead (cap : Nat) (st : Store) (a : Area) (i : Nat) :
    raised (bitRead cap st a i) = if i ≥ 8 * cap then some .outOfRange else none :=
  raised_check

theorem raised_bitWrite (cap : Nat) (st : Store) (a : Area) (i : Nat) (v : Bool) :
    raised (bitWrite cap st a i v) = if i ≥ 8 * cap then some .outOfRange else none :=
  raised_check

theorem raised_bitRangeRead (cap : Nat) (st : Store) (a : Area) (start n : Nat) :
    raised (bitRangeRead cap st a start n) = if start + 8 * n > 8 * cap then some .outOfRange else none :=
  raised_check

theorem mem_areaLetters_iff {c : Byte} : c ∈ [chP, chQ, chM, chD] ↔ ∃ a, c = letter a := by
  refine ⟨fun h => ?_, ?_⟩
  · simp only [List.mem_cons, List.not_mem_nil, or_false] at h
    rcases h with rfl | rfl | rfl | rfl
    · exact ⟨.p, rfl⟩
    · exact ⟨.q, rfl⟩
    · exact ⟨.m, rfl⟩
    · exact ⟨.d, rfl⟩
  · rintro ⟨a, rfl⟩
    cases a <;> decide

/-- The resolver makes the checks of `addressError`, and past them gives `addressIndex` (R140, R148). -/
theorem resolveGeneric_checks (t : Bytes) (isRead : Bool) :
    (∃ e, addressError t = some e ∧ resolveGeneric t isRead = .error e)
    ∨ ∃ a, addressError t = none ∧ resolveGeneric t isRead = .ok (a, addressIndex t) := by
  by_cases hlen : t.length < 3
  · exact .inl ⟨_, if_pos hlen, resolveGeneric_short hlen isRead⟩
  by_cases harea : byteAt t 1 ∈ [chP, chQ, chM, chD]
  · obtain ⟨a, ha⟩ := mem_areaLetters_iff.1 harea
    simp only [addressError, addressIndex, if_neg hlen, harea, not_true_eq_false, if_false,
      resolveGeneric_area (Nat.not_lt.1 hlen) ha isRead, ← skipTypeLetter_drop_two]
    cases hdigits : decStr (skipTypeLetter (t.drop 2)) with
    | none => exact .inl ⟨_, if_pos rfl, by rw [decIndex_error.2 ⟨hdigits, rfl⟩]; rfl⟩
    | some i => exact .inr ⟨a, if_neg nofun, by rw [decIndex_ok.2 hdigits]; rfl⟩
  · have hnone : ∀ a, byteAt t 1 ≠ letter a := fun a ha => harea (mem_areaLetters_iff.2 ⟨a, ha⟩)
    exact .inl ⟨_, by rw [addressError, if_neg hlen, if_pos harea],
      resolveGeneric_unsupported (Nat.not_lt.1 hlen) hnone isRead⟩

/-- What runs behind the resolver raises its own error only where the address raises none. -/
theorem raised_resolveGeneric_bind {α : Type} {t : Bytes} {isRead : Bool} {f : Area × Nat → Except ErrorKind α}
    {o : Option ErrorKind} (hf : ∀ a, raised (f (a, addressIndex t)) = o) :
    raised (resolveGeneric t isRead >>= f) = (addressError t).or o := by
  rcases resolveGeneric_checks t isRead with ⟨e, haddr, hres⟩ | ⟨a, haddr, hres⟩ <;> rw [haddr, hres]
  · rfl
  · exact hf a

/-! ## Host operations (R305) -/

/-- A host operation ends with the error its checks raise, or answers. -/
theorem finishHost_reports (result : Except ErrorKind (Store × HostValue)) (s : State) :
    (∀ e, raised result = some e → HostFailed e s (finishHost result s))
    ∧ (raised result = none → ∃ v, HostAnswered v s (finishHost result s) ∧ HostFrame s (finishHost result s)) := by
  refine ⟨fun e he => ?_, fun hnone => ?_⟩
  · obtain rfl := raised_eq_some.1 he
    exact raiseError_host_failed e s
  · obtain ⟨⟨st, v⟩, rfl⟩ := raised_eq_none.1 hnone
    exact ⟨v, emitHost_answers st v s⟩

theorem raised_hostImportBody (cap : Nat) (img : Bytes) :
    raised (hostImportBody cap img) = if img.length ≠ 4 * cap then some .malformedSnapshot else none := by
  rw [hostImportBody, raised_bind_pure, importImage, ite_not]
  split <;> rfl

/-- The checks of a host operation are those of R305, in its order. -/
theorem transact_host_raises (op : HostOp) (s : State) :
    ∃ result, transact (.host op) s = .next (finishHost result s) ∧ raised result = hostFirstError s.cfg.cap op := by
  cases op with
  | read t n =>
    exact ⟨_, rfl, raised_resolveGeneric_bind fun a => (raised_bind_pure _ _).trans (raised_memRead ..)⟩
  | write t d =>
    exact ⟨_, rfl, raised_resolveGeneric_bind fun a => (raised_bind_pure _ _).trans (raised_memWrite ..)⟩
  | readbit t =>
    exact ⟨_, rfl, raised_resolveGeneric_bind fun a => (raised_bind_pure _ _).trans (raised_bitRead ..)⟩
  | writebit t v =>
    exact ⟨_, rfl, raised_resolveGeneric_bind fun a => (raised_bind_pure _ _).trans (raised_bitWrite ..)⟩
  | exportSnapshot => exact ⟨.ok (s.store, .bytes (s.store.image s.cfg.cap)), rfl, rfl⟩
  | importSnapshot img => exact ⟨_, rfl, raised_hostImportBody s.cfg.cap img⟩

/-- Settles O42: the transaction ends with what `transact_host_raises` gives. -/
theorem hostOperationReportsItsFirstError : Obligations.HostOperationReportsItsFirstError := by
  intro op s
  obtain ⟨result, htransact, hraised⟩ := transact_host_raises op s
  obtain ⟨hfails, hanswers⟩ := finishHost_reports result s
  refine ⟨fun e he => ⟨_, htransact, hfails e (hraised.trans he)⟩, fun hnone => ?_⟩
  obtain ⟨v, hanswer, hframe⟩ := hanswers (hraised.trans hnone)
  exact ⟨_, v, htransact, hanswer, hframe⟩

/-! ## Binary requests (R303) -/

theorem finishBin_reports {k : Nat} {s : State} {p : BinPort} (hp : s.bin[k]? = some p)
    (result : Except ErrorKind (Store × Bytes)) :
    (∀ e, raised result = some e → BinFailed k p e s (finishBin k result s))
    ∧ (raised result = none → ∃ r, BinAnswered k p r (finishBin k result s) ∧ BinFrame k s (finishBin k result s)) := by
  refine ⟨fun e he => ?_, fun hnone => ?_⟩
  · obtain rfl := raised_eq_some.1 he
    exact raiseError_bin_failed hp e
  · obtain ⟨⟨st, r⟩, rfl⟩ := raised_eq_none.1 hnone
    exact ⟨r, emitBin_answers hp st r⟩

/-- Item 3 of R303: a frame that fails one of its checks has no fields. -/
theorem binFields_eq_none {F : Bytes} (h : F.length < 29 ∨ (byteAt F 28).toNat = 0 ∨ F.length < 32 + (byteAt F 28).toNat) :
    binFields F = none := by
  by_cases hlen : F.length < 32 + (byteAt F 28).toNat
  · simp only [binFields, hlen, if_true, ite_self]
  · rw [binFields_of_length (Nat.not_lt.1 hlen), if_pos (by omega)]

theorem raised_binReadBody (cap : Nat) (st : Store) (h : Bytes) (f : BinFields) :
    raised (binReadBody cap st h (some f)) =
      (addressError f.name).or (if addressIndex f.name + f.count.toNat > cap then some .outOfRange else none) :=
  raised_resolveGeneric_bind fun _ => (raised_bind_pure _ _).trans (raised_memRead ..)

theorem raised_binWriteBody_short {f : BinFields} (hshort : f.data.length < 2 * f.count.toNat) (cap : Nat) (st : Store)
    (h : Bytes) : raised (binWriteBody cap st h (some f)) = some .malformedFrame := by
  have hpayload : binPayload f = .error .malformedFrame := if_pos hshort
  exact raised_bind_of_ok rfl (raised_bind_of_error hpayload)

theorem raised_binWriteBody {f : BinFields} (hfits : 2 * f.count.toNat ≤ f.data.length) (cap : Nat) (st : Store)
    (h : Bytes) :
    raised (binWriteBody cap st h (some f)) =
      (addressError f.name).or (if addressIndex f.name + 2 * f.count.toNat > cap then some .outOfRange else none) := by
  refine raised_bind_of_ok rfl (raised_bind_of_ok (binPayload_ok.2 ⟨hfits, rfl⟩)
    (raised_resolveGeneric_bind fun a => (raised_bind_pure _ _).trans ?_))
  rw [raised_memWrite, List.length_take_of_le hfits]

/-- A check made before the others, in the form `binFirstError` writes it. -/
theorem ite_ne_none_eq_or (x y : Option ErrorKind) : (if x ≠ none then x else y) = x.or y := by
  cases x <;> rfl

/-- A read frame with a full header is checked as R303 says. -/
theorem raised_binReadBody_frame {F : Bytes} (hlen : 21 ≤ F.length) (hcmd : byteAt F 20 = cmdRead) (cap : Nat)
    (st : Store) (h : Bytes) : raised (binReadBody cap st h (binFields F)) = binFirstError cap F := by
  have hread : byteAt F 20 = 0x54 := hcmd
  have hnot : (0x54 : Byte) ≠ 0x58 := by decide
  simp only [binFirstError, if_neg (Nat.not_lt.2 hlen), hread, hnot, ne_eq, not_true_eq_false, false_and, if_false,
    ite_ne_none_eq_or]
  split
  · next hbad =>
    rw [binFields_eq_none hbad]
    rfl
  · next hgood =>
    rw [binFields_of_length (by omega), if_neg (by omega), raised_binReadBody, toNat_u16le]

/-- A write frame with a full header is checked as R303 says. -/
theorem raised_binWriteBody_frame {F : Bytes} (hlen : 21 ≤ F.length) (hcmd : byteAt F 20 = cmdWrite) (cap : Nat)
    (st : Store) (h : Bytes) : raised (binWriteBody cap st h (binFields F)) = binFirstError cap F := by
  have hwrite : byteAt F 20 = 0x58 := hcmd
  simp only [binFirstError, if_neg (Nat.not_lt.2 hlen), hwrite, ne_eq, not_true_eq_false, and_false, true_and, if_false,
    if_true, ite_ne_none_eq_or]
  split
  · next hbad =>
    rw [binFields_eq_none hbad]
    rfl
  next hgood =>
  rw [binFields_of_length (by omega), if_neg (by omega)]
  split
  · next hshort => exact raised_binWriteBody_short (by simp only [toNat_u16le, List.length_drop]; omega) cap st h
  · next hfits =>
    rw [raised_binWriteBody (by simp only [toNat_u16le, List.length_drop]; omega), toNat_u16le]

/-- The checks of a binary request are those of R303, in its order. -/
theorem transact_bin_raises (k : Nat) (F : Bytes) (s : State) :
    ∃ result, transact (.bin k F) s = .next (finishBin k result s) ∧ raised result = binFirstError s.cfg.cap F := by
  by_cases hlen : F.length < 21
  · have hdecode : decode (.bin k F) = .error .malformedFrame := if_pos hlen
    exact ⟨.error .malformedFrame, by rw [transact, hdecode]; rfl, (if_pos hlen).symm⟩
  by_cases hread : byteAt F 20 = cmdRead
  · exact ⟨_, transact_bin_read (Nat.not_lt.1 hlen) hread k s, raised_binReadBody_frame (Nat.not_lt.1 hlen) hread ..⟩
  by_cases hwrite : byteAt F 20 = cmdWrite
  · exact ⟨_, transact_bin_write (Nat.not_lt.1 hlen) hwrite k s, raised_binWriteBody_frame (Nat.not_lt.1 hlen) hwrite ..⟩
  · have hdecode : decode (.bin k F) = .error .unsupportedCommand := by
      rw [decode, decodeBin, if_neg hlen, if_neg hread, if_neg hwrite]
    exact ⟨.error .unsupportedCommand, by rw [transact, hdecode]; rfl,
      ((if_neg hlen).trans (if_pos ⟨hread, hwrite⟩)).symm⟩

/-- Settles O22: the transaction ends with what `transact_bin_raises` gives. -/
theorem binaryRequestReportsItsFirstError : Obligations.BinaryRequestReportsItsFirstError := by
  intro k F s p hp
  obtain ⟨result, htransact, hraised⟩ := transact_bin_raises k F s
  obtain ⟨hfails, hanswers⟩ := finishBin_reports hp result
  refine ⟨fun e he => ⟨_, htransact, hfails e (hraised.trans he)⟩, fun hnone => ?_⟩
  obtain ⟨r, hanswer, hframe⟩ := hanswers (hraised.trans hnone)
  exact ⟨_, r, htransact, hanswer, hframe⟩

/-! ## ASCII requests (R304): the checks of a command's transaction -/

theorem finishSer_reports (result : Except ErrorKind (Store × Bytes)) (s : State) :
    (∀ e, raised result = some e → SerFailed e s (finishSer result s))
    ∧ (raised result = none → ∃ r, SerAnswered r s (finishSer result s) ∧ SerFrame s (finishSer result s)) := by
  refine ⟨fun e he => ?_, fun hnone => ?_⟩
  · obtain rfl := raised_eq_some.1 he
    exact raiseError_ser_failed e s
  · obtain ⟨⟨st, r⟩, rfl⟩ := raised_eq_none.1 hnone
    exact ⟨r, emitSer_answers st r s⟩

theorem raised_decIndex_bind {α : Type} {t : Bytes} {f : Nat → Except ErrorKind α} {g : Nat → Option ErrorKind}
    (hf : ∀ i, raised (f i) = g i) :
    raised (decIndex t >>= f) = (decStr t).elim (some .invalidAddress) g := by
  cases hdigits : decStr t with
  | none => exact raised_bind_of_error (decIndex_error.2 ⟨hdigits, rfl⟩)
  | some i => exact raised_bind_of_ok (decIndex_ok.2 hdigits) (hf i)

/-- `letterIndex` names the index `ResolveLetterOrDigit` gives (R143). -/
theorem raised_resolveLetterOrDigit_bind {α : Type} {t : Bytes} {f : Nat → Except ErrorKind α}
    {g : Nat → Option ErrorKind} (hf : ∀ i, raised (f i) = g i) :
    raised (resolveLetterOrDigit t >>= f) = (letterIndex t).elim (some .invalidAddress) g := by
  by_cases hletter : ∃ c ∈ [chA, chB, chC, chD, chE, chF], t = [c]
  · obtain ⟨c, hc, rfl⟩ := hletter
    have hindex : letterIndex [c] = some (c.toNat - 0x41 + 10) := if_pos ⟨rfl, mem_letters_iff.1 hc⟩
    rw [hindex]
    exact raised_bind_of_ok (resolveLetterOrDigit_letter hc) (hf _)
  · push Not at hletter
    have hindex : letterIndex t = decStr t := by
      refine if_neg fun ⟨hlen, hlo, hhi⟩ => ?_
      obtain ⟨c, rfl⟩ := List.length_eq_one_iff.1 hlen
      exact hletter c (mem_letters_iff.2 ⟨hlo, hhi⟩) rfl
    rw [hindex, resolveLetterOrDigit_not_letter hletter]
    exact raised_decIndex_bind hf

theorem raised_bitValue_bind {α : Type} {tail : Bytes} {f : Bool → Except ErrorKind α} {o : Option ErrorKind}
    (hf : ∀ v, raised (f v) = o) :
    raised (bitValue tail >>= f) = if tail.length < 2 then some .malformedFrame else o := by
  rw [bitValue]
  split
  · rfl
  · exact hf _

theorem raised_wordPayload_bind {α : Type} {size : Byte} {tail : Bytes} {f : Bytes → Except ErrorKind α}
    {o : Option ErrorKind} (hf : ∀ d, d.length = 2 * size.toNat → raised (f d) = o) :
    raised (wordPayload size tail >>= f) =
      if tail.length < 4 * size.toNat ∨ ∃ c ∈ tail.take (4 * size.toNat), hexVal c = none then some .malformedFrame
      else o := by
  split
  · next hbad =>
    refine raised_bind_of_error ?_
    rw [wordPayload]
    split
    · rfl
    · next hlong => exact hexDec_not_hex (hbad.resolve_left hlong)
  · next hgood =>
    push Not at hgood
    obtain ⟨hlong, hhex⟩ := hgood
    obtain ⟨d, hpayload, hlen, _⟩ := wordPayload_of_hex hlong hhex
    exact raised_bind_of_ok hpayload (hf d hlen)

theorem raised_ascBitRead (a : Area) (cap : Nat) (st : Store) (op : AscReadOp) :
    raised (ascBitRead a cap st op) = (letterIndex op.suffix).elim (some .invalidAddress) fun i =>
      if i + 8 * op.size.toNat > 8 * cap then some .outOfRange else none :=
  raised_resolveLetterOrDigit_bind fun _ => (raised_bind_pure _ _).trans (raised_bitRangeRead ..)

theorem raised_ascByteRead (a : Area) (cap : Nat) (st : Store) (op : AscReadOp) :
    raised (ascByteRead a cap st op) = (decStr op.suffix).elim (some .invalidAddress) fun i =>
      if i + op.size.toNat > cap then some .outOfRange else none :=
  raised_decIndex_bind fun _ => (raised_bind_pure _ _).trans (raised_memRead ..)

theorem raised_ascBitWrite (cls : Byte) (a : Area) (cap : Nat) (st : Store) (op : AscWriteOp) :
    raised (ascBitWrite cls a cap st op) = (letterIndex op.suffix).elim (some .invalidAddress) fun i =>
      if op.tail.length < 2 then some .malformedFrame else if i ≥ 8 * cap then some .outOfRange else none :=
  raised_resolveLetterOrDigit_bind fun _ => raised_bitValue_bind fun _ =>
    (raised_bind_pure _ _).trans (raised_bitWrite ..)

theorem raised_ascWordWrite (cls : Byte) (a : Area) (cap : Nat) (st : Store) (op : AscWriteOp) :
    raised (ascWordWrite cls a cap st op) = (decStr op.suffix).elim (some .invalidAddress) fun i =>
      if op.tail.length < 4 * op.size.toNat ∨ ∃ c ∈ op.tail.take (4 * op.size.toNat), hexVal c = none then
        some .malformedFrame
      else if i + 2 * op.size.toNat > cap then some .outOfRange else none :=
  raised_decIndex_bind fun _ => raised_wordPayload_bind fun _ hlen =>
    (raised_bind_pure _ _).trans (hlen ▸ raised_memWrite ..)

/-! ## ASCII requests: the checks R304 lists for each class -/

section
variable {cap : Nat} {addr : Bytes} (size : Nat) (tail : Bytes)

theorem ascReadError_unsupported (h : byteAt addr 2 ≠ chB ∨ byteAt addr 1 ∉ [chM, chP, chD, chT]) :
    ascReadError cap addr size = some .unsupportedArea :=
  if_pos h

theorem ascReadError_bit (hcls : byteAt addr 2 = chB) (harea : byteAt addr 1 ∈ [chM, chP]) :
    ascReadError cap addr size = (letterIndex (addr.drop 3)).elim (some .invalidAddress) fun i =>
      if i + 8 * size > 8 * cap then some .outOfRange else none := by
  have hpair : byteAt addr 1 ∈ [chM, chP, chD, chT] := List.mem_append_left [chD, chT] harea
  rw [ascReadError, if_neg (by simp only [hcls, hpair, ne_eq, not_true_eq_false, or_self, not_false_eq_true]),
    if_pos harea]
  cases letterIndex (addr.drop 3) <;> rfl

theorem ascReadError_byte (hcls : byteAt addr 2 = chB) (harea : byteAt addr 1 ∈ [chD, chT]) :
    ascReadError cap addr size = (decStr (addr.drop 3)).elim (some .invalidAddress) fun i =>
      if i + size > cap then some .outOfRange else none := by
  have hpair : byteAt addr 1 ∈ [chM, chP, chD, chT] := List.mem_append_right [chM, chP] harea
  have hnot : byteAt addr 1 ∉ [chM, chP] := by
    simp only [List.mem_cons, List.not_mem_nil, or_false] at harea
    rcases harea with h | h <;> rw [h] <;> decide
  rw [ascReadError, if_neg (by simp only [hcls, hpair, ne_eq, not_true_eq_false, or_self, not_false_eq_true]),
    if_neg hnot]
  cases decStr (addr.drop 3) <;> rfl

theorem ascWriteError_unimplemented (hcls : byteAt addr 2 = chD ∨ byteAt addr 2 = chL) :
    ascWriteError cap addr size tail = some .unimplemented :=
  if_pos hcls

theorem ascWriteError_bit (hcls : byteAt addr 2 = chX) (harea : byteAt addr 1 ∈ [chM, chD]) :
    ascWriteError cap addr size tail = (letterIndex (addr.drop 3)).elim (some .invalidAddress) fun i =>
      if tail.length < 2 then some .malformedFrame else if i ≥ 8 * cap then some .outOfRange else none := by
  rw [ascWriteError, if_neg (by rw [hcls]; decide), if_pos ⟨hcls, harea⟩]
  cases letterIndex (addr.drop 3) <;> rfl

theorem ascWriteError_word (hcls : byteAt addr 2 = chW) (harea : byteAt addr 1 ∈ [chC, chT, chM, chD]) :
    ascWriteError cap addr size tail = (decStr (addr.drop 3)).elim (some .invalidAddress) fun i =>
      if tail.length < 4 * size ∨ ∃ c ∈ tail.take (4 * size), hexVal c = none then some .malformedFrame
      else if i + 2 * size > cap then some .outOfRange else none := by
  have hnot : ¬(byteAt addr 2 = chX ∧ byteAt addr 1 ∈ [chM, chD]) :=
    fun h => absurd (hcls.symm.trans h.1) (by decide)
  rw [ascWriteError, if_neg (by rw [hcls]; decide), if_neg hnot, if_pos ⟨hcls, harea⟩]
  cases decStr (addr.drop 3) <;> rfl

theorem ascWriteError_unsupported (hdouble : ¬(byteAt addr 2 = chD ∨ byteAt addr 2 = chL))
    (hbit : ¬(byteAt addr 2 = chX ∧ byteAt addr 1 ∈ [chM, chD]))
    (hword : ¬(byteAt addr 2 = chW ∧ byteAt addr 1 ∈ [chC, chT, chM, chD])) :
    ascWriteError cap addr size tail = some .unsupportedArea := by
  rw [ascWriteError, if_neg hdouble, if_neg hbit, if_neg hword]

end

/-! ## ASCII requests: the command behind the class characters -/

/-- What the serial port makes of the decoder's answer for a frame: its transaction ends with the error `o`, raised
before a command was selected or by the command's own checks, or with `OK`. -/
inductive SerRaises (s : State) : Except ErrorKind Instr → Option ErrorKind → Prop where
  | error (e : ErrorKind) : SerRaises s (.error e) (some e)
  | ok {i : Instr} {result : Except ErrorKind (Store × Bytes)} {o : Option ErrorKind}
      (hexec : exec i s = .next (finishSer result s)) (hraised : raised result = o) : SerRaises s (.ok i) o

theorem SerRaises.transact {s : State} {W : Bytes} {o : Option ErrorKind} (h : SerRaises s (decodeAsc W) o) :
    ∃ result, transact (.asc W) s = .next (finishSer result s) ∧ raised result = o := by
  rw [Machine.transact, decode]
  generalize decodeAsc W = d at h ⊢
  cases h with
  | error e => exact ⟨.error e, rfl, rfl⟩
  | ok hexec hraised => exact ⟨_, hexec, hraised⟩

theorem ascReadClass_raises {s : State} {addr : Bytes} {op : AscReadOp} (hsuffix : op.suffix = addr.drop 3) :
    SerRaises s (ascReadClass (byteAt addr 1) (byteAt addr 2) op) (ascReadError s.cfg.cap addr op.size.toNat) := by
  unfold ascReadClass
  split_ifs with hcls hM hP hD hT
  · rw [ascReadError_bit _ hcls (by simp [hM]), ← hsuffix]
    exact .ok rfl (raised_ascBitRead ..)
  · rw [ascReadError_bit _ hcls (by simp [hP]), ← hsuffix]
    exact .ok rfl (raised_ascBitRead ..)
  · rw [ascReadError_byte _ hcls (by simp [hD]), ← hsuffix]
    exact .ok rfl (raised_ascByteRead ..)
  · rw [ascReadError_byte _ hcls (by simp [hT]), ← hsuffix]
    exact .ok rfl (raised_ascByteRead ..)
  · rw [ascReadError_unsupported _ (.inr (by simp [hM, hP, hD, hT]))]
    exact .error _
  · rw [ascReadError_unsupported _ (.inl hcls)]
    exact .error _

/-- The choices of both write families (R238, R240 to R247): an unimplemented class, a bit write, a word write, or no
command. -/
inductive WriteChoice (s : State) (op : AscWriteOp) (area cls : Byte) : Except ErrorKind Instr → Prop where
  | unimplemented {i : Instr} (hcls : cls = chD ∨ cls = chL)
      (hexec : exec i s = .next (raiseError .ser .unimplemented s)) : WriteChoice s op area cls (.ok i)
  | bit {i : Instr} {rsp : Byte} {a : Area} (hcls : cls = chX) (harea : area ∈ [chM, chD])
      (hexec : exec i s = .next (finishSer (ascBitWrite rsp a s.cfg.cap s.store op) s)) :
      WriteChoice s op area cls (.ok i)
  | word {i : Instr} {rsp : Byte} {a : Area} (hcls : cls = chW) (harea : area ∈ [chC, chT, chM, chD])
      (hexec : exec i s = .next (finishSer (ascWordWrite rsp a s.cfg.cap s.store op) s)) :
      WriteChoice s op area cls (.ok i)
  | unsupported (hdouble : ¬(cls = chD ∨ cls = chL)) (hbit : ¬(cls = chX ∧ area ∈ [chM, chD]))
      (hword : ¬(cls = chW ∧ area ∈ [chC, chT, chM, chD])) : WriteChoice s op area cls (.error .unsupportedArea)

namespace WriteChoice

variable {s : State} {op : AscWriteOp} {area cls : Byte}

theorem unsupported_bit (hcls : cls = chX) (harea : area ∉ [chM, chD]) :
    WriteChoice s op area cls (.error .unsupportedArea) :=
  .unsupported (by rw [hcls]; decide) (fun h => harea h.2) fun h => absurd (hcls.symm.trans h.1) (by decide)

theorem unsupported_word (hcls : cls = chW) (harea : area ∉ [chC, chT, chM, chD]) :
    WriteChoice s op area cls (.error .unsupportedArea) :=
  .unsupported (by rw [hcls]; decide) (fun h => absurd (hcls.symm.trans h.1) (by decide)) fun h => harea h.2

theorem unsupported_class (hX : cls ≠ chX) (hW : cls ≠ chW) (hD : cls ≠ chD) (hL : cls ≠ chL) :
    WriteChoice s op area cls (.error .unsupportedArea) :=
  .unsupported (not_or.2 ⟨hD, hL⟩) (fun h => hX h.1) fun h => hW h.1

variable (s op area cls)

/-- The two families choose alike and differ in the class byte of their responses. -/
theorem of_class : WriteChoice s op area cls (ascWriteClass area cls op)
    ∧ WriteChoice s op area cls (ascWssClass area cls op) := by
  unfold ascWriteClass ascWssClass
  split_ifs with hX hM hD hW hC hT hM hD hD hL
  · have harea : area ∈ [chM, chD] := by simp [hM]
    exact ⟨.bit hX harea rfl, .bit hX harea rfl⟩
  · have harea : area ∈ [chM, chD] := by simp [hD]
    exact ⟨.bit hX harea rfl, .bit hX harea rfl⟩
  · exact and_self_iff.2 (unsupported_bit hX (by simp [hM, hD]))
  · have harea : area ∈ [chC, chT, chM, chD] := by simp [hC]
    exact ⟨.word hW harea rfl, .word hW harea rfl⟩
  · have harea : area ∈ [chC, chT, chM, chD] := by simp [hT]
    exact ⟨.word hW harea rfl, .word hW harea rfl⟩
  · have harea : area ∈ [chC, chT, chM, chD] := by simp [hM]
    exact ⟨.word hW harea rfl, .word hW harea rfl⟩
  · have harea : area ∈ [chC, chT, chM, chD] := by simp [hD]
    exact ⟨.word hW harea rfl, .word hW harea rfl⟩
  · exact and_self_iff.2 (unsupported_word hW (by simp [hC, hT, hM, hD]))
  · exact ⟨.unimplemented (.inl hD) rfl, .unimplemented (.inl hD) rfl⟩
  · exact ⟨.unimplemented (.inr hL) rfl, .unimplemented (.inr hL) rfl⟩
  · exact and_self_iff.2 (unsupported_class hX hW hD hL)

variable {s op}

/-- Each choice makes the checks R304 lists for its class. -/
theorem raises {addr : Bytes} {d : Except ErrorKind Instr} (h : WriteChoice s op (byteAt addr 1) (byteAt addr 2) d)
    (hsuffix : op.suffix = addr.drop 3) :
    SerRaises s d (ascWriteError s.cfg.cap addr op.size.toNat op.tail) := by
  cases h with
  | unimplemented hcls hexec =>
    rw [ascWriteError_unimplemented _ _ hcls]
    exact .ok (result := .error .unimplemented) hexec rfl
  | bit hcls harea hexec =>
    rw [ascWriteError_bit _ _ hcls harea, ← hsuffix]
    exact .ok hexec (raised_ascBitWrite ..)
  | word hcls harea hexec =>
    rw [ascWriteError_word _ _ hcls harea, ← hsuffix]
    exact .ok hexec (raised_ascWordWrite ..)
  | unsupported hdouble hbit hword =>
    rw [ascWriteError_unsupported _ _ hdouble hbit hword]
    exact .error _

end WriteChoice

/-! ## ASCII requests: station, token and header -/

/-- Item 1 of R304. -/
theorem decodeAsc_malformed {W : Bytes}
    (h : W.length < 5 ∨ byteAt (stripChecksum W) 0 ≠ ENQ ∨ (stripChecksum W).length < 6
      ∨ digit (byteAt (stripChecksum W) 1) = none ∨ digit (byteAt (stripChecksum W) 2) = none) :
    decodeAsc W = .error .malformedFrame := by
  simp only [decodeAsc]
  split_ifs with hlen henq hshort
  · rfl
  · rfl
  · rfl
  · have hstation := ((h.resolve_left hlen).resolve_left henq).resolve_left hshort
    rw [dec2_error.2 ⟨hstation, rfl⟩]

theorem dec2_of_digits {x y : Byte} (hx : digit x ≠ none) (hy : digit y ≠ none) :
    dec2 x y = .ok (10 * (x.toNat - 0x30) + (y.toNat - 0x30)) := by
  rw [ne_eq, digit_eq_none, not_not] at hx hy
  exact dec2_ok.2 ⟨isDigit_iff.2 hx, isDigit_iff.2 hy, rfl⟩

theorem decodeAsc_routes {W : Bytes}
    (h : ¬(W.length < 5 ∨ byteAt (stripChecksum W) 0 ≠ ENQ ∨ (stripChecksum W).length < 6
      ∨ digit (byteAt (stripChecksum W) 1) = none ∨ digit (byteAt (stripChecksum W) 2) = none)) :
    decodeAsc W = routeAsc (stripChecksum W) := by
  push Not at h
  obtain ⟨hlen, henq, hshort, h1, h2⟩ := h
  simp only [decodeAsc, if_neg (Nat.not_lt.2 hlen), henq, ne_eq, not_true_eq_false, if_false,
    if_neg (Nat.not_lt.2 hshort), dec2_of_digits h1 h2]

/-- The name length a header holds (R94, R95). -/
def addrLength (F : Bytes) (b : Nat) : Nat :=
  10 * ((byteAt F (6 + b)).toNat - 0x30) + ((byteAt F (7 + b)).toNat - 0x30)

/-- The size a header holds, in hex (R94, R95). -/
def headerSize (F : Bytes) (b : Nat) : Nat :=
  16 * (hexVal (byteAt F (8 + b + addrLength F b))).getD 0 + (hexVal (byteAt F (9 + b + addrLength F b))).getD 0

/-- Item 3 of R304. -/
def HeaderMalformed (F : Bytes) (b : Nat) : Prop :=
  F.length < 8 + b ∨ digit (byteAt F (6 + b)) = none ∨ digit (byteAt F (7 + b)) = none
    ∨ F.length < 10 + b + addrLength F b ∨ hexVal (byteAt F (8 + b + addrLength F b)) = none
    ∨ hexVal (byteAt F (9 + b + addrLength F b)) = none

theorem ascHeader_malformed {F : Bytes} {b : Nat} (h : HeaderMalformed F b) :
    ascHeader F b = .error .malformedFrame := by
  by_cases hlen : F.length < 8 + b
  · rw [ascHeader, if_pos hlen]
  by_cases hdigits : digit (byteAt F (6 + b)) = none ∨ digit (byteAt F (7 + b)) = none
  · rw [ascHeader, if_neg hlen, dec2_error.2 ⟨hdigits, rfl⟩]
  have h := (or_assoc.2 (h.resolve_left hlen)).resolve_left hdigits
  push Not at hdigits
  obtain ⟨h1, h2⟩ := hdigits
  have hlength : dec2 (byteAt F (6 + b)) (byteAt F (7 + b)) = .ok (addrLength F b) := dec2_of_digits h1 h2
  simp only [ascHeader, if_neg hlen, hlength]
  split
  · rfl
  · next hshort => rw [hexDec2_error.2 ⟨h.resolve_left hshort, rfl⟩]

theorem ascHeader_parses {F : Bytes} {b : Nat} (h : ¬HeaderMalformed F b) :
    ∃ hd, ascHeader F b = .ok hd ∧ hd.addr = slice F (8 + b) (addrLength F b) ∧ hd.size.toNat = headerSize F b
      ∧ hd.tail = F.drop (10 + b + addrLength F b) := by
  unfold HeaderMalformed at h
  push Not at h
  obtain ⟨hlen, h1, h2, hshort, hx, hy⟩ := h
  obtain ⟨x, hx⟩ := Option.ne_none_iff_exists'.1 hx
  obtain ⟨y, hy⟩ := Option.ne_none_iff_exists'.1 hy
  have hsize := hexDec2_ok.2 ⟨x, y, hx, hy, rfl⟩
  have hvalue : (BitVec.ofNat 8 (16 * x + y)).toNat = headerSize F b := by
    have := hexVal_lt hx
    have := hexVal_lt hy
    rw [headerSize, hx, hy, Option.getD_some, Option.getD_some, BitVec.toNat_ofNat]
    omega
  have hlength : dec2 (byteAt F (6 + b)) (byteAt F (7 + b)) = .ok (addrLength F b) := dec2_of_digits h1 h2
  simp only [ascHeader, if_neg (Nat.not_lt.2 hlen), hlength, if_neg (Nat.not_lt.2 hshort), hsize]
  exact ⟨_, rfl, rfl, hvalue, rfl⟩

theorem wssShift_wss {F : Bytes} (h : slice F 3 3 = [chW, chS, chS]) : wssShift F = 1 := if_pos h

theorem wssShift_of_ne {F : Bytes} {x : Byte} (h : slice F 3 2 = [x, chS]) (hx : x ≠ chW) : wssShift F = 0 := by
  refine if_neg fun hwss => hx ?_
  rw [← take_slice (by omega : 2 ≤ 3), hwss] at h
  exact (List.cons.inj h).1.symm

/-- The checks behind the header: those of a read for the token `rS`, those of a write for `wS` and `WSS`. -/
def classError (cap : Nat) (F addr : Bytes) (size : Nat) (tail : Bytes) : Option ErrorKind :=
  if slice F 3 2 = [chr, chS] then ascReadError cap addr size else ascWriteError cap addr size tail

/-- Every token goes to the header, at the shift of its family, and then to the choice of its command (R203, R219,
R238). -/
theorem routeAsc_chooses {F : Bytes}
    (htoken : slice F 3 2 = [chr, chS] ∨ slice F 3 3 = [chW, chS, chS] ∨ slice F 3 2 = [chw, chS]) (s : State) :
    ∃ sel, routeAsc F = afterHeader F (wssShift F) sel
      ∧ ∀ hd, SerRaises s (sel hd) (classError s.cfg.cap F hd.addr hd.size.toNat hd.tail) := by
  rcases htoken with hread | hwss | hwrite
  · refine ⟨_, by rw [routeAsc_read hread, wssShift_of_ne hread (by decide), decodeAscRead_eq], fun hd => ?_⟩
    rw [classError, if_pos hread]
    exact ascReadClass_raises rfl
  · refine ⟨_, by rw [routeAsc_wss hwss, wssShift_wss hwss, decodeAscWss_eq], fun hd => ?_⟩
    have hnot : slice F 3 2 ≠ [chr, chS] := by
      rw [← take_slice (by omega : 2 ≤ 3), hwss]
      decide
    rw [classError, if_neg hnot]
    exact (WriteChoice.of_class s (ascWriteOp F hd) _ _).2.raises rfl
  · refine ⟨_, by rw [routeAsc_write hwrite, wssShift_of_ne hwrite (by decide), decodeAscWrite_eq], fun hd => ?_⟩
    rw [classError, if_neg (by rw [hwrite]; decide)]
    exact (WriteChoice.of_class s (ascWriteOp F hd) _ _).1.raises rfl

theorem routeAsc_unsupported {F : Bytes}
    (h : slice F 3 2 ≠ [chr, chS] ∧ slice F 3 3 ≠ [chW, chS, chS] ∧ slice F 3 2 ≠ [chw, chS]) :
    routeAsc F = .error .unsupportedCommand := by
  obtain ⟨hread, hwss, hwrite⟩ := h
  rw [routeAsc, if_neg hread, if_neg hwss, if_neg hwrite]

theorem afterHeader_malformed {F : Bytes} {b : Nat} (h : HeaderMalformed F b) (sel : AscHeader → Except ErrorKind Instr) :
    afterHeader F b sel = .error .malformedFrame := by
  rw [afterHeader, ascHeader_malformed h]

/-- Item 4 of R304 comes between the header and the choice of a command. -/
theorem afterHeader_eq {F : Bytes} {b : Nat} {hd : AscHeader} (h : ascHeader F b = .ok hd)
    (sel : AscHeader → Except ErrorKind Instr) :
    afterHeader F b sel = if hd.addr.length < 3 then .error .invalidAddress else sel hd := by
  rw [afterHeader, h]

/-- The decoder and the commands it selects make the checks of R304, in its order. -/
theorem decodeAsc_raises (W : Bytes) (s : State) : SerRaises s (decodeAsc W) (ascFirstError s.cfg.cap W) := by
  unfold ascFirstError
  extract_lets F b len addr size
  split
  · next h =>
    rw [decodeAsc_malformed h]
    exact .error _
  next hfirst =>
  have hroutes : decodeAsc W = routeAsc F := decodeAsc_routes hfirst
  rw [hroutes]
  split
  · next htoken =>
    rw [routeAsc_unsupported htoken]
    exact .error _
  next htoken =>
  obtain ⟨sel, hroute, hsel⟩ := routeAsc_chooses (F := F) (by tauto) s
  rw [hroute]
  split
  · next hheader =>
    rw [afterHeader_malformed hheader]
    exact .error _
  next hheader =>
  obtain ⟨hd, hparse, (haddr : hd.addr = addr), (hsize : hd.size.toNat = size), htail⟩ := ascHeader_parses hheader
  have hclass := hsel hd
  rw [haddr, hsize, htail] at hclass
  rw [afterHeader_eq hparse, haddr]
  by_cases hshort : addr.length < 3
  · rw [if_pos hshort, if_pos hshort]
    exact .error _
  · rw [if_neg hshort, if_neg hshort]
    exact hclass

/-- Settles O30: the transaction ends with what `decodeAsc_raises` gives. -/
theorem asciiRequestReportsItsFirstError : Obligations.AsciiRequestReportsItsFirstError := by
  intro W s
  obtain ⟨result, htransact, hraised⟩ := (decodeAsc_raises W s).transact
  obtain ⟨hfails, hanswers⟩ := finishSer_reports result s
  refine ⟨fun e he => ⟨_, htransact, hfails e (hraised.trans he)⟩, fun hnone => ?_⟩
  obtain ⟨r, hanswer, hframe⟩ := hanswers (hraised.trans hnone)
  exact ⟨_, r, htransact, hanswer, hframe⟩

end Sys2Proof.Machine
end

section
/-! PROOFS. The statements of 70_reset_and_hazards.md: what reset leaves, when it fails, and that a block out of reset
always completes its step. -/

namespace Sys2Proof.Machine

/-! ## The store and the boot status of a configuration (R330, R331) -/

theorem Params.resetStore_of_no_image {p : Params} (himg : p.initImage = none) : Params.resetStore p = Store.zero := by
  rw [Params.resetStore, himg]

theorem Params.resetStore_of_image {p : Params} {img : Bytes} (himg : p.initImage = some img) :
    Params.resetStore p = Store.ofImage p.cap img := by
  rw [Params.resetStore, himg]

theorem Params.bootStatus_of_wrong_size {p : Params} {img : Bytes} (himg : p.initImage = some img)
    (hsize : img.length ≠ 4 * p.cap) : Params.bootStatus p = .error .malformedSnapshot := by
  simp only [Params.bootStatus, himg, if_neg hsize]

theorem Store.ok_zero (cap : Nat) : Store.zero.Ok cap := fun a => by
  rw [Store.get_zero]
  exact ⟨rfl, rfl⟩

theorem Params.resetStore_ok (p : Params) : (Params.resetStore p).Ok p.cap := by
  cases himg : p.initImage with
  | none =>
    rw [Params.resetStore_of_no_image himg]
    exact Store.ok_zero p.cap
  | some img =>
    rw [Params.resetStore_of_image himg]
    exact Store.ok_ofImage p.cap img

/-! ## What reset leaves (R330) -/

theorem State.eq_reset_of_mem_bin {p : Params} {q : BinPort} (hq : q ∈ (State.resetOf p).bin) : q = BinPort.reset :=
  List.eq_of_mem_replicate hq

/-- The image's size decides the boot status alone: the areas, cut off or filled up, are canonical for every image. -/
theorem State.resetOf_inv {p : Params} (hlegal : p.Legal) : (State.resetOf p).Inv where
  legal := hlegal
  booted := rfl
  ports := List.length_replicate
  store := Params.resetStore_ok p
  closed := fun _ hq _ => State.eq_reset_of_mem_bin hq ▸ rfl
  framer := rfl

/-- Settles O53: the areas are the zero store's or the image's, the ports are copies of `BinPort.reset`. -/
theorem resetLeavesTheStatedValues : Obligations.ResetLeavesTheStatedValues := by
  intro p
  refine ⟨fun himg a i => ?_, fun img himg _ a i hi => ?_, List.length_replicate, fun q hq => ?_,
    rfl, rfl, rfl, rfl, rfl, rfl⟩
  · rw [State.byte, State.resetOf_store, Params.resetStore_of_no_image himg, Store.get_zero]
    rfl
  · rw [State.byte, State.resetOf_store, Params.resetStore_of_image himg, Store.read_ofImage_place hi]
  · rw [State.eq_reset_of_mem_bin hq]
    exact ⟨rfl, rfl, rfl, rfl⟩

/-- Settles O51: this hardware's values are a legal configuration, so both clauses are `State.resetOf_inv`. -/
theorem resetHasTheInvariant : Obligations.ResetHasTheInvariant :=
  ⟨fun _ hlegal _ => State.resetOf_inv hlegal, State.resetOf_inv (by decide)⟩

/-! ## When a step completes (R331, R345) -/

/-- Settles O54: reset ends with an error, and a block whose reset ended so is held in reset. -/
theorem wrongSizeImageHoldsTheBlockInReset : Obligations.WrongSizeImageHoldsTheBlockInReset := by
  intro p img himg hsize
  have hboot : (State.resetOf p).boot = .error .malformedSnapshot := Params.bootStatus_of_wrong_size himg hsize
  exact ⟨hboot, fun s hs => step_of_boot_error (hs.trans hboot)⟩

/-- Settles O55: out of reset a step leaves the state as it is or serves an agent, and each way of serving one gives a
next state. -/
theorem stepsOutOfResetAlwaysComplete : Obligations.StepsOutOfResetAlwaysComplete := by
  intro s hboot
  rcases step_cases s with ⟨_, herror, _⟩ | ⟨_, _, hidle⟩ | ⟨a, _, _, hserve⟩
  · exact nomatch hboot.symm.trans herror
  · exact ⟨s, hidle⟩
  · obtain ⟨t, ht, _⟩ := serve_cases a { s with tick := s.tick + 1 }
    exact ⟨t, hserve.trans ht⟩

end Sys2Proof.Machine
end
